-- ==== Sys2Proof/Word.lean ====
section
/-! DEFINITION. The word types of the block: bytes of the two memories and 64-bit command words. -/

namespace Sys2Proof

/-- One byte of the stream or of the table memory (spec/20_memory.md R72, R75). -/
abbrev Byte := BitVec 8

/-- One command word as it stands on the command port (spec/30_encoding.md R100). -/
abbrev CmdWord := BitVec 64

end Sys2Proof
end

