-- ==== Sys2Proof/Config.lean ====
section
/-! DEFINITION. The parameters the spec fixes for this block, and the free values: what the spec leaves
open, as opaque constants of which nothing can be proved. -/

namespace Sys2Proof

/-- `W`, the width of VALUE and of END_WINDOW (spec/00_scope.md R7). -/
def Config.windowBits : Nat := 32

/-- `LOTS_OF_BITS`, the sentinel of COUNT and END_BITS (spec/00_scope.md R8). -/
def Config.lotsOfBits : Nat := 0x4000

/-- `UINT_BITS`, the split threshold of DECODE_UINT (spec/00_scope.md R9). -/
def Config.uintBits : Nat := 8

/-- `MAX_NSYMS`, the largest alphabet of an ICDF command (spec/00_scope.md R12). -/
def Config.maxNsyms : Nat := 256

/-- Which of the two cursors a stream read is for (spec/20_memory.md R73, R74). One command reads an index at
most once with each. -/
inductive StreamCursor where
  | forward
  | backward
  deriving DecidableEq, Repr

/-- What a read of a table entry is for (spec/43_icdf.md R233): the terminator check, `T(k − 1)` for `fl`, or
`T(k)` for `fh`. One command reads an entry at most once for each. -/
inductive EntryUse where
  | terminator
  | lowBound
  | highBound
  deriving DecidableEq, Repr

/-- FREE VALUE (log entry 5): the byte a stream read returns when the host has changed it while READY = 1
(spec/20_memory.md R82, spec/93_implementation_defined.md U12, "Each read of a changed byte is a draw"), by draw
number, cursor and stream index: a value of its own for each read. -/
opaque Config.changedStreamByte : Nat → StreamCursor → Nat → Byte

/-- FREE VALUE (log entry 6): the byte a table read returns when the host has changed it while READY = 1
(spec/20_memory.md R82, U12), by draw number, use and table address: a value of its own for each read. -/
opaque Config.changedTableByte : Nat → EntryUse → Nat → Byte

/-- What the search in a table goes by (spec/43_icdf.md R230, R231): where the table is, its total, the key, and
its entries as memory holds them. -/
structure TableSearch where
  base : Nat
  width : Nat
  total : Nat
  key : Nat
  entries : List Nat
  deriving DecidableEq, Repr

/-- FREE VALUE (log entry 6): the symbol the block's search ends on in a table with changed bytes, each read of which
is a draw (spec/20_memory.md R82, U12). By draw number and search; it is reduced modulo NSYMS where it is used. -/
opaque Config.icdfPick : Nat → TableSearch → Nat

/-- The registers of the block (spec/10_state.md R33 to R48). -/
inductive Register where
  | value
  | range
  | count
  | totalBits
  | fwdOffset
  | bwdOffset
  | storage
  | endWindow
  | endBits
  | ext
  | lookupFt
  | pending
  | ready
  | error
  | fault
  | cause
  | faultCmd
  deriving DecidableEq, Repr

/-- FREE VALUE (log entry 17): what a register holds between the return of power and reset
(spec/60_exceptions.md R315, "State does not survive power removal"), by draw number. -/
opaque Config.lostRegister : Nat → Register → BitVec 64

/-- FREE VALUE (log entry 17): the status a block that must be reset answers a word with, by draw number; it is
reduced to one of the three codes where it is used. -/
opaque Config.unresetStatus : Nat → Nat

/-- FREE VALUE (log entry 17): the RESULT a block that must be reset answers a word with, by draw number. -/
opaque Config.unresetResult : Nat → BitVec 32

end Sys2Proof
end

