-- ==== Sys2Proof/Syntax.lean ====
section
/-! DEFINITION. The commands of the opcode table, the fault causes, and the lines of the assembler syntax. -/

namespace Sys2Proof

/-- The fourteen commands (spec/30_encoding.md R103), one constructor per row of spec/opcode_table.json.
The operands are the word's fields; the table commands carry `NSYMS = NS + 1` (R101). -/
inductive Instr where
  /-- INIT: `storage = A` (R141). -/
  | init (storage : BitVec 32)
  /-- TELL (R149). -/
  | tell
  /-- DECODE: `ft = B` (R173). -/
  | decode (ft : BitVec 16)
  /-- DECODE_NORM: `ft = B` (R174). -/
  | decodeNorm (ft : BitVec 16)
  /-- DECODE_BIN_NORM (R175). -/
  | decodeBinNorm
  /-- DECODE_BIN: `ftb = B` (R176). -/
  | decodeBin (ftb : BitVec 16)
  /-- UPDATE: `fl = FL`, `fh = FH`, `ft = B` (R202). -/
  | update (fl fh ft : BitVec 16)
  /-- DECODE_BIT_LOGP: `logp = B` (R203). -/
  | decodeBitLogp (logp : BitVec 16)
  /-- DECODE_ICDF_FT: table base `A`, `ft = B` (R235). -/
  | decodeIcdfFt (tb : BitVec 32) (ft : BitVec 16) (nsyms : Nat)
  /-- DECODE_ICDF16_FT: table base `A`, `ft = B` (R236). -/
  | decodeIcdf16Ft (tb : BitVec 32) (ft : BitVec 16) (nsyms : Nat)
  /-- DECODE_ICDF: table base `A`, `ftb = B` (R237). -/
  | decodeIcdf (tb : BitVec 32) (ftb : BitVec 16) (nsyms : Nat)
  /-- DECODE_ICDF16: table base `A`, `ftb = B` (R238). -/
  | decodeIcdf16 (tb : BitVec 32) (ftb : BitVec 16) (nsyms : Nat)
  /-- DECODE_UINT: `ft = A` (R260). -/
  | decodeUint (ft : BitVec 32)
  /-- DECODE_BITS: `nbits = B` (R281). -/
  | decodeBits (nbits : BitVec 16)
  deriving DecidableEq, Repr

/-- The causes a command can fault with (spec/60_exceptions.md R303); their codes are `Cause.code`. -/
inductive Cause where
  | illegalOpcode
  | reservedFieldNonzero
  | notInitialised
  | argOutOfRange
  | lookupPending
  | noPendingLookup
  | updateFtMismatch
  | updateInterval
  | icdfTableNonconforming
  | tableMisaligned
  | tableAddressOverflow
  deriving DecidableEq, Repr

/-- The five formats of a command word (spec/30_encoding.md R102). -/
inductive Format where
  | z
  | b
  | a
  | u
  | t
  deriving DecidableEq, Repr

/-- One line of the assembler syntax (spec/30_encoding.md R111), with its operands as the unsigned
integers written there, and the two pseudo-instructions of R112. -/
inductive AsmLine where
  | init (storage : Nat)
  | tell
  | dec (ft : Nat)
  | decNorm (ft : Nat)
  | decBinnorm
  | decBin (ftb : Nat)
  | upd (fl fh ft : Nat)
  | bitLogp (logp : Nat)
  | icdfFt (tbase ft nsyms : Nat)
  | icdf16Ft (tbase ft nsyms : Nat)
  | icdf (tbase ftb nsyms : Nat)
  | icdf16 (tbase ftb nsyms : Nat)
  | uint (ft : Nat)
  | bits (nbits : Nat)
  /-- `upd.sym t, ft` (R112). -/
  | updSym (t ft : Nat)
  /-- `bool` (R112). -/
  | bool
  deriving DecidableEq, Repr

end Sys2Proof
end

