-- ==== Sys2Proof/WellFormed.lean ====
section
/-! DEFINITION. Which instructions the command word can carry. Operands that are bit vectors always fit
their fields; the number of symbols of a table command must lie in 1 to 256 (spec/30_encoding.md R101,
spec/00_scope.md R12). An operand outside its range of R103 is well-formed: it decodes, and faults when
executed (R111). -/

namespace Sys2Proof

/-- A table has at least one symbol: `NSYMS = NS + 1 ≥ 1` (spec/30_encoding.md R101). -/
def nsymsAtLeastOne (nsyms : Nat) : Bool := 1 ≤ nsyms

/-- `NSYMS − 1` fits the eight bits of NS (spec/00_scope.md R12). -/
def nsymsFitsField (nsyms : Nat) : Bool := nsyms ≤ Config.maxNsyms

/-- The instruction is one that some command word carries. -/
def Instr.wellFormed : Instr → Bool
  | .init _ => true
  | .tell => true
  | .decode _ => true
  | .decodeNorm _ => true
  | .decodeBinNorm => true
  | .decodeBin _ => true
  | .update _ _ _ => true
  | .decodeBitLogp _ => true
  | .decodeIcdfFt _ _ nsyms => nsymsAtLeastOne nsyms && nsymsFitsField nsyms
  | .decodeIcdf16Ft _ _ nsyms => nsymsAtLeastOne nsyms && nsymsFitsField nsyms
  | .decodeIcdf _ _ nsyms => nsymsAtLeastOne nsyms && nsymsFitsField nsyms
  | .decodeIcdf16 _ _ nsyms => nsymsAtLeastOne nsyms && nsymsFitsField nsyms
  | .decodeUint _ => true
  | .decodeBits _ => true

end Sys2Proof
end

