-- ==== Sys2Proof/Decode.lean ====
section
/-! DEFINITION. Decoding of command words, total over all 64-bit words and rejecting by name
(spec/30_encoding.md R106), and the encoder written from the same table of fields (R100 to R103). -/

namespace Sys2Proof

/-! ## The fields of a word (R100, R101) -/

/-- OP, bits 4:0. -/
def fieldOp (w : CmdWord) : BitVec 5 := w.extractLsb' 0 5

/-- NS, bits 15:8. -/
def fieldNs (w : CmdWord) : BitVec 8 := w.extractLsb' 8 8

/-- B, bits 31:16. -/
def fieldB (w : CmdWord) : BitVec 16 := w.extractLsb' 16 16

/-- A, bits 63:32. -/
def fieldA (w : CmdWord) : BitVec 32 := w.extractLsb' 32 32

/-- FL, bits 47:32. -/
def fieldFl (w : CmdWord) : BitVec 16 := w.extractLsb' 32 16

/-- FH, bits 63:48. -/
def fieldFh (w : CmdWord) : BitVec 16 := w.extractLsb' 48 16

/-- `NSYMS = NS + 1` (R101). -/
def fieldNsyms (w : CmdWord) : Nat := (fieldNs w).toNat + 1

/-! ## Formats (R102, R103, R106) -/

/-- The format of an opcode, none for the reserved ones (R103, R104). -/
def formatOf (op : Nat) : Option Format :=
  match op with
  | 0x01 => some .a
  | 0x02 => some .z
  | 0x03 => some .b
  | 0x04 => some .b
  | 0x05 => some .z
  | 0x06 => some .b
  | 0x07 => some .u
  | 0x08 => some .b
  | 0x09 => some .t
  | 0x0A => some .t
  | 0x0B => some .t
  | 0x0C => some .t
  | 0x0D => some .a
  | 0x0E => some .b
  | _ => none

/-- The bits that must be zero in a word of the format (R106). -/
def zeroMask : Format → CmdWord
  | .z => 0xFFFFFFFFFFFFFFE0
  | .b => 0xFFFFFFFF0000FFE0
  | .a => 0x00000000FFFFFFE0
  | .u => 0x000000000000FFE0
  | .t => 0x00000000000000E0

/-- The instruction of an opcode with a word's fields (R103); `none` for the reserved opcodes. -/
def instrOf (op : Nat) (w : CmdWord) : Option Instr :=
  match op with
  | 0x01 => some (.init (fieldA w))
  | 0x02 => some .tell
  | 0x03 => some (.decode (fieldB w))
  | 0x04 => some (.decodeNorm (fieldB w))
  | 0x05 => some .decodeBinNorm
  | 0x06 => some (.decodeBin (fieldB w))
  | 0x07 => some (.update (fieldFl w) (fieldFh w) (fieldB w))
  | 0x08 => some (.decodeBitLogp (fieldB w))
  | 0x09 => some (.decodeIcdfFt (fieldA w) (fieldB w) (fieldNsyms w))
  | 0x0A => some (.decodeIcdf16Ft (fieldA w) (fieldB w) (fieldNsyms w))
  | 0x0B => some (.decodeIcdf (fieldA w) (fieldB w) (fieldNsyms w))
  | 0x0C => some (.decodeIcdf16 (fieldA w) (fieldB w) (fieldNsyms w))
  | 0x0D => some (.decodeUint (fieldA w))
  | 0x0E => some (.decodeBits (fieldB w))
  | _ => none

/-- `Decode(w)` of R106: the first failing step decides. -/
def decode (w : CmdWord) : Except Cause Instr :=
  match formatOf (fieldOp w).toNat, instrOf (fieldOp w).toNat w with
  | some fmt, some i => if w &&& zeroMask fmt = 0 then .ok i else .error .reservedFieldNonzero
  | _, _ => .error .illegalOpcode

/-! ## The encoder (R100, R103) -/

/-- A word from its fields: A in 63:32, B in 31:16, NS in 15:8, RSV = 0 in 7:5, OP in 4:0 (R100). -/
def packWord (op : BitVec 5) (ns : BitVec 8) (b : BitVec 16) (a : BitVec 32) : CmdWord :=
  a ++ b ++ ns ++ (0 : BitVec 3) ++ op

/-- The A field of UPDATE: FH in its upper half, FL in its lower half (R100). -/
def packBounds (fl fh : BitVec 16) : BitVec 32 := fh ++ fl

/-- The NS field of a number of symbols: `NS = NSYMS − 1` (R101). -/
def packNsyms (nsyms : Nat) : BitVec 8 := BitVec.ofNat 8 (nsyms - 1)

/-- The command word of an instruction (R100 to R103). -/
def encode : Instr → CmdWord
  | .init storage => packWord 0x01 0 0 storage
  | .tell => packWord 0x02 0 0 0
  | .decode ft => packWord 0x03 0 ft 0
  | .decodeNorm ft => packWord 0x04 0 ft 0
  | .decodeBinNorm => packWord 0x05 0 0 0
  | .decodeBin ftb => packWord 0x06 0 ftb 0
  | .update fl fh ft => packWord 0x07 0 ft (packBounds fl fh)
  | .decodeBitLogp logp => packWord 0x08 0 logp 0
  | .decodeIcdfFt tb ft nsyms => packWord 0x09 (packNsyms nsyms) ft tb
  | .decodeIcdf16Ft tb ft nsyms => packWord 0x0A (packNsyms nsyms) ft tb
  | .decodeIcdf tb ftb nsyms => packWord 0x0B (packNsyms nsyms) ftb tb
  | .decodeIcdf16 tb ftb nsyms => packWord 0x0C (packNsyms nsyms) ftb tb
  | .decodeUint ft => packWord 0x0D 0 0 ft
  | .decodeBits nbits => packWord 0x0E 0 nbits 0

/-! ## The opcode table's own numbering -/

/-- The 64-bit word whose low `nbits` bits are those of `w`, the rest zero: the table numbers bit 0 as the
word's least significant bit, as R100 does. -/
def tableWord (nbits w : Nat) : CmdWord := BitVec.ofNat 64 (w % 2 ^ nbits)

/-- The instruction this decoder reads from the word of an opcode-table row. -/
def decodeTableWord (nbits w : Nat) : Option Instr :=
  match decode (tableWord nbits w) with
  | .ok i => some i
  | .error _ => none

end Sys2Proof
end

