-- ==== Sys2Proof/Machine/Assembler.lean ====
section
/-! DEFINITION. The assembler syntax and the pseudo-instructions (spec/30_encoding.md R111, R112). -/

namespace Sys2Proof.Machine

/-- An operand in a field of `n` bits; an operand that does not fit is refused (R111). -/
def asmField (n : Nat) (v : Nat) : Option (BitVec n) := if v < 2 ^ n then some (BitVec.ofNat n v) else none

/-- A number of symbols whose `NS = nsyms − 1` fits its field (R111). -/
def asmNsyms (v : Nat) : Option Nat := if nsymsAtLeastOne v && nsymsFitsField v then some v else none

/-- A table command from its three operands (R111). -/
def asmTable (mk : BitVec 32 → BitVec 16 → Nat → Instr) (tbase b nsyms : Nat) : Option Instr :=
  match asmField 32 tbase, asmField 16 b, asmNsyms nsyms with
  | some tb, some v, some n => some (mk tb v n)
  | _, _, _ => none

/-- UPDATE from its three operands (R111). -/
def asmUpdate (fl fh ft : Nat) : Option Instr :=
  match asmField 16 fl, asmField 16 fh, asmField 16 ft with
  | some l, some h, some t => some (.update l h t)
  | _, _, _ => none

/-- The instruction of a line (R111), its pseudo-instructions expanded (R112); `none` where the assembler
refuses an operand that does not fit its field. -/
def assembleLine (line : AsmLine) : Option Instr :=
  match line with
  | .init storage => (asmField 32 storage).map .init
  | .tell => some .tell
  | .dec ft => (asmField 16 ft).map .decode
  | .decNorm ft => (asmField 16 ft).map .decodeNorm
  | .decBinnorm => some .decodeBinNorm
  | .decBin ftb => (asmField 16 ftb).map .decodeBin
  | .upd fl fh ft => asmUpdate fl fh ft
  | .bitLogp logp => (asmField 16 logp).map .decodeBitLogp
  | .icdfFt tbase ft nsyms => asmTable .decodeIcdfFt tbase ft nsyms
  | .icdf16Ft tbase ft nsyms => asmTable .decodeIcdf16Ft tbase ft nsyms
  | .icdf tbase ftb nsyms => asmTable .decodeIcdf tbase ftb nsyms
  | .icdf16 tbase ftb nsyms => asmTable .decodeIcdf16 tbase ftb nsyms
  | .uint ft => (asmField 32 ft).map .decodeUint
  | .bits nbits => (asmField 16 nbits).map .decodeBits
  | .updSym t ft => asmUpdate t (t + 1) ft
  | .bool => some (.decodeBitLogp 1)

/-! ## Text of a line (R111) -/

/-- The value of a digit character in a base of at most 16. -/
def asmDigit (base : Nat) (c : Char) : Option Nat :=
  let v :=
    if '0' ≤ c ∧ c ≤ '9' then c.toNat - '0'.toNat
    else if 'a' ≤ c ∧ c ≤ 'f' then c.toNat - 'a'.toNat + 10
    else if 'A' ≤ c ∧ c ≤ 'F' then c.toNat - 'A'.toNat + 10
    else 16
  if v < base then some v else none

/-- The digits of a number, most significant first. -/
def asmDigits (base : Nat) (acc : Nat) (cs : List Char) : Option Nat :=
  match cs with
  | [] => some acc
  | c :: rest =>
    match asmDigit base c with
    | some v => asmDigits base (acc * base + v) rest
    | none => none

/-- A decimal or `0x` hexadecimal unsigned integer (R111). -/
def asmNumber (cs : List Char) : Option Nat :=
  match cs with
  | [] => none
  | '0' :: 'x' :: c :: rest => asmDigits 16 0 (c :: rest)
  | c :: rest => asmDigits 10 0 (c :: rest)

/-- The pieces of a text between separators. -/
def asmSplit (sep : Char) (cs : List Char) : List (List Char) :=
  match cs with
  | [] => [[]]
  | c :: rest =>
    if c = sep then [] :: asmSplit sep rest
    else
      match asmSplit sep rest with
      | [] => [[c]]
      | piece :: pieces => (c :: piece) :: pieces

/-- The operands of a line: numbers separated by commas, spaces ignored (log entry 19); none where the text
after the mnemonic is empty. -/
def asmOperands (cs : List Char) : Option (List Nat) :=
  match cs.filter (· != ' ') with
  | [] => some []
  | c :: rest => (asmSplit ',' (c :: rest)).mapM asmNumber

/-- The line a mnemonic and its operands stand for (R111, R112). -/
def asmForm (mnemonic : List Char) (operands : List Nat) : Option AsmLine :=
  match String.ofList mnemonic, operands with
  | "init", [storage] => some (.init storage)
  | "tell", [] => some .tell
  | "dec", [ft] => some (.dec ft)
  | "dec.norm", [ft] => some (.decNorm ft)
  | "dec.binnorm", [] => some .decBinnorm
  | "dec.bin", [ftb] => some (.decBin ftb)
  | "upd", [fl, fh, ft] => some (.upd fl fh ft)
  | "bit.logp", [logp] => some (.bitLogp logp)
  | "icdf.ft", [tbase, ft, nsyms] => some (.icdfFt tbase ft nsyms)
  | "icdf16.ft", [tbase, ft, nsyms] => some (.icdf16Ft tbase ft nsyms)
  | "icdf", [tbase, ftb, nsyms] => some (.icdf tbase ftb nsyms)
  | "icdf16", [tbase, ftb, nsyms] => some (.icdf16 tbase ftb nsyms)
  | "uint", [ft] => some (.uint ft)
  | "bits", [nbits] => some (.bits nbits)
  | "upd.sym", [t, ft] => some (.updSym t ft)
  | "bool", [] => some .bool
  | _, _ => none

/-- One line of text (R111): the mnemonic up to the first space, then the operands. -/
def asmParse (line : List Char) : Option AsmLine :=
  match asmOperands (line.dropWhile (· != ' ')) with
  | some operands => asmForm (line.takeWhile (· != ' ')) operands
  | none => none

/-- The command word of one line of text (R111). -/
def assembleText (line : List Char) : Option CmdWord :=
  match asmParse line with
  | some l => (assembleLine l).map encode
  | none => none

end Sys2Proof.Machine
end

