-- ==== Sys2Proof/Machine/State.lean ====
section
/-! DEFINITION. The state of the block and of its ports as plain data, and the state after reset
(spec/10_state.md R33 to R48, R57). -/

namespace Sys2Proof.Machine

/-- A memory: its bytes that are not zero, at strictly rising addresses (`Memory.wf`); an address that is
not listed reads as 0x00 (`Memory.unlistedByte`, log entry 3). -/
abbrev Memory := List Host.Cell

/-- STATUS_CODE of a response (spec/30_encoding.md R107); code 3 is never produced. -/
inductive StatusCode where
  /-- 0: the command completed. -/
  | ok
  /-- 1: this command raised a fault and changed nothing but the fault record. -/
  | fault
  /-- 2: the block was already faulted; the command was not executed and changed nothing. -/
  | refused
  deriving DecidableEq, Repr

/-- The response every command produces (spec/30_encoding.md R107). -/
structure Response where
  status : StatusCode
  result : BitVec 32
  deriving DecidableEq, Repr

/-- What the host does at the block's ports, one event a step (spec/30_encoding.md R109,
spec/70_reset_and_hazards.md R352; log entry 1). -/
inductive HostEvent where
  /-- A word enters at the command port (R109). -/
  | command (word : CmdWord)
  /-- `rst` is asserted and released (spec/70_reset_and_hazards.md R340). -/
  | reset
  /-- Power is removed and comes back (spec/60_exceptions.md R315; log entry 17). -/
  | powerLoss
  /-- The host accepts the oldest response (R109). -/
  | acceptResponse
  /-- The host binds a buffer to the stream port, index 0 first (spec/20_memory.md R71). -/
  | bindStream (bytes : List Byte)
  /-- The host writes one byte of its stream memory (spec/20_memory.md R82). -/
  | writeStream (index : BitVec 32) (byte : Byte)
  /-- The host writes one byte of its table memory (spec/70_reset_and_hazards.md R343, step 2). -/
  | writeTable (addr : BitVec 32) (byte : Byte)
  /-- From here on the host answers no read and accepts no response (spec/93_implementation_defined.md
  U13, U14; log entry 13). -/
  | neverAnswers
  deriving DecidableEq, Repr

/-- The state of the block, of the two memories it reads and of its command and response ports. -/
structure State where
  /-- VALUE (R33). -/
  value : BitVec 32
  /-- RANGE (R34). -/
  range : BitVec 16
  /-- COUNT, two's complement signed (R35). -/
  count : BitVec 16
  /-- TOTAL_BITS (R36). -/
  totalBits : BitVec 32
  /-- FWD_OFFSET (R37). -/
  fwdOffset : BitVec 32
  /-- BWD_OFFSET (R38). -/
  bwdOffset : BitVec 32
  /-- STORAGE (R39). -/
  storage : BitVec 32
  /-- END_WINDOW (R40). -/
  endWindow : BitVec 32
  /-- END_BITS (R41). -/
  endBits : BitVec 16
  /-- EXT (R42). -/
  ext : BitVec 4
  /-- LOOKUP_FT (R43). -/
  lookupFt : BitVec 16
  /-- PENDING (R44). -/
  pending : Bool
  /-- READY (R45). -/
  ready : Bool
  /-- ERROR (R46). -/
  error : Bool
  /-- FAULT (R47). -/
  fault : Bool
  /-- CAUSE (R47). -/
  cause : BitVec 8
  /-- FAULT_CMD (R48). -/
  faultCmd : CmdWord
  /-- The stream memory as the host holds it now (spec/20_memory.md R71). -/
  stream : Memory
  /-- The MODEL's own: the stream indices whose byte the host has changed while READY = 1, since the last INIT or
  reset, rising (spec/20_memory.md R82, spec/93_implementation_defined.md U12; log entry 5). -/
  streamChanged : List Nat
  /-- The table memory as the host holds it now (spec/20_memory.md R75). -/
  table : Memory
  /-- The MODEL's own: the table addresses whose byte the host has changed while READY = 1, since the last INIT or
  reset, rising (R82, U12; log entry 6). -/
  tableChanged : List Nat
  /-- The MODEL's own: how many command words have entered and how often power was lost; the free values are
  applied to it (log entry 16). -/
  draws : Nat
  /-- Power was removed, and the block has not been reset since (spec/60_exceptions.md R315; log entry 17). -/
  resetDue : Bool
  /-- Responses produced and not yet accepted, oldest first (spec/30_encoding.md R110). -/
  responses : List Response
  /-- Responses the host has accepted, oldest first (spec/70_reset_and_hazards.md R345). -/
  delivered : List Response
  /-- What the host does next, first event first (log entry 1). -/
  input : List HostEvent
  deriving DecidableEq, Repr

/-- Why the model's machine stops. The block's own faults are next states (spec/60_exceptions.md R302). -/
inductive Fault where
  /-- Raised by the step on `HostEvent.neverAnswers`: the block waits for ever (spec/93_implementation_defined.md
  U13, U14, "stuck"). Unsafe for claims that a run ends, which such a host defeats; safe for every other (log
  entry 13). -/
  | hostNeverAnswers
  deriving DecidableEq, Repr

/-- Why the model gives an instruction no meaning. -/
inductive Refusal where
  /-- For an arm of `exec` whose instruction has no meaning yet; no arm answers with it now. Safe: the model
  stops where the block goes on. -/
  | notModelled (mnemonic : String)
  /-- Raised by the four table commands on a table that ends in 0 but rises or has an entry above the total, where some
  symbol passes the bounds check (spec/43_icdf.md R239, "A model refuses such a command (no meaning)";
  spec/93_implementation_defined.md U7). Safe: the block faults or completes there, and nothing is claimed of it (log
  entry 7). -/
  | nonconformingTable
  deriving DecidableEq, Repr

/-- The state after reset: every register is 0 (spec/10_state.md R57, spec/70_reset_and_hazards.md R340);
the memories list nothing and the ports hold nothing (log entries 1 to 6, 16 and 17). -/
def State.reset : State where
  value := 0
  range := 0
  count := 0
  totalBits := 0
  fwdOffset := 0
  bwdOffset := 0
  storage := 0
  endWindow := 0
  endBits := 0
  ext := 0
  lookupFt := 0
  pending := false
  ready := false
  error := false
  fault := false
  cause := 0
  faultCmd := 0
  stream := []
  streamChanged := []
  table := []
  tableChanged := []
  draws := 0
  resetDue := false
  responses := []
  delivered := []
  input := []

end Sys2Proof.Machine
end

