-- ==== Sys2Proof/Machine/Flags.lean ====
section
/-! DEFINITION. The flags of the block: cause codes, STATUS and its fields, PARAMS, the status outputs and
the response codes (spec/10_state.md R44 to R52, spec/30_encoding.md R107, R109, spec/60_exceptions.md R303). -/

namespace Sys2Proof.Machine

/-- The code CAUSE holds for a cause (spec/60_exceptions.md R303). -/
def causeCode (c : Cause) : BitVec 8 :=
  match c with
  | .illegalOpcode => 1
  | .reservedFieldNonzero => 2
  | .notInitialised => 3
  | .argOutOfRange => 4
  | .lookupPending => 5
  | .noPendingLookup => 6
  | .updateFtMismatch => 7
  | .updateInterval => 8
  | .icdfTableNonconforming => 9
  | .tableMisaligned => 10
  | .tableAddressOverflow => 11

/-- The two bits of STATUS_CODE (spec/30_encoding.md R107). -/
def statusBits (c : StatusCode) : BitVec 2 :=
  match c with
  | .ok => 0
  | .fault => 1
  | .refused => 2

/-- The STATUS register (spec/10_state.md R51): reserved 31:16, CAUSE 15:8, EXT 7:4, FAULT 3, ERROR 2,
PENDING 1, READY 0. -/
def statusWord (s : State) : BitVec 32 :=
  (0 : BitVec 16) ++ s.cause ++ s.ext ++ BitVec.ofBool s.fault ++ BitVec.ofBool s.error ++
    BitVec.ofBool s.pending ++ BitVec.ofBool s.ready

/-- The PARAMS register (spec/10_state.md R52): LOTS_OF_BITS 31:16, UINT_BITS 15:8, W 7:0. -/
def paramsWord : BitVec 32 :=
  BitVec.ofNat 16 Config.lotsOfBits ++ BitVec.ofNat 8 Config.uintBits ++ BitVec.ofNat 8 Config.windowBits

/-- The output `ready` (spec/30_encoding.md R109). -/
def readyOutput (s : State) : Bool := s.ready

/-- The output `pending` (R109). -/
def pendingOutput (s : State) : Bool := s.pending

/-- The output `error` (R109). -/
def errorOutput (s : State) : Bool := s.error

/-- The output `fault` (R109). -/
def faultOutput (s : State) : Bool := s.fault

/-- The output `busy`: a command has entered and its response has not left (R109). -/
def busyOutput (s : State) : Bool := !s.responses.isEmpty

end Sys2Proof.Machine
end

