-- ==== Sys2Proof/Machine/Memory.lean ====
section
/-! DEFINITION. Reading and writing a memory, the one canonical form it is kept in, and what the block's
read ports return (spec/20_memory.md R72, R75, R76, R82). -/

namespace Sys2Proof.Machine

/-- What an address that a memory does not list reads as (log entry 3). DESIGN CHOICE, unsafe: the
contents of both memories are the host's (spec/70_reset_and_hazards.md R342). -/
def Memory.unlistedByte : Byte := 0

/-- The byte of a memory at an address. -/
def Memory.read (m : Memory) (a : Nat) : Byte :=
  match m with
  | [] => Memory.unlistedByte
  | (k, b) :: rest => if k = a then b else Memory.read rest a

/-- The memory with one byte replaced, in canonical form. -/
def Memory.write (m : Memory) (a : Nat) (v : Byte) : Memory :=
  match m with
  | [] => if v = Memory.unlistedByte then [] else [(a, v)]
  | (k, b) :: rest =>
    if a < k then (if v = Memory.unlistedByte then (k, b) :: rest else (a, v) :: (k, b) :: rest)
    else if a = k then (if v = Memory.unlistedByte then rest else (a, v) :: rest)
    else (k, b) :: Memory.write rest a v

/-- Every address of the list lies above `lo`, they rise strictly, and no byte is the unlisted one. -/
def Memory.wfAbove (lo : Nat) (m : Memory) : Bool :=
  match m with
  | [] => true
  | (k, b) :: rest => (lo ≤ k) && (b != Memory.unlistedByte) && Memory.wfAbove (k + 1) rest

/-- The canonical form: addresses strictly rising, no entry equal to what an unlisted address reads as. -/
def Memory.wf (m : Memory) : Bool := Memory.wfAbove 0 m

/-- The memory that holds the bytes from an address on and nothing else. -/
def Memory.ofBytes (a : Nat) (bytes : List Byte) : Memory :=
  match bytes with
  | [] => []
  | b :: rest =>
    if b = Memory.unlistedByte then Memory.ofBytes (a + 1) rest else (a, b) :: Memory.ofBytes (a + 1) rest

/-! ## Changes while READY = 1 -/

/-- A rising list of addresses with one more. -/
def markAddress (a : Nat) (marks : List Nat) : List Nat :=
  match marks with
  | [] => [a]
  | k :: rest => if a < k then a :: k :: rest else if a = k then k :: rest else k :: markAddress a rest

/-- The addresses at which two memories differ. -/
def Memory.differences (old new : Memory) : List Nat :=
  ((old ++ new).map Prod.fst).filter (fun a => old.read a != new.read a)

/-- The marks with those of a change from one memory to another; only a change while READY = 1 is marked
(spec/93_implementation_defined.md U12). -/
def markChanges (ready : Bool) (old new : Memory) (marks : List Nat) : List Nat :=
  if ready then (old.differences new).foldr markAddress marks else marks

/-- The host's stream memory becomes `m`. -/
def State.changeStream (s : State) (m : Memory) : State :=
  { s with stream := m, streamChanged := markChanges s.ready s.stream m s.streamChanged }

/-- The host's table memory becomes `m`. -/
def State.changeTable (s : State) (m : Memory) : State :=
  { s with table := m, tableChanged := markChanges s.ready s.table m s.tableChanged }

/-! ## The block's reads -/

/-- `StreamRead(i)` (spec/20_memory.md R72): the buffer's byte, or a draw of its own where the host has changed it
while READY = 1 (R82, U12). -/
def State.streamRead (s : State) (c : StreamCursor) (i : Nat) : Byte :=
  if i ∈ s.streamChanged then Config.changedStreamByte s.draws c i else s.stream.read i

/-- One byte of table memory, or a draw of its own where the host has changed it while READY = 1 (R82, U12). -/
def State.tableByte (s : State) (u : EntryUse) (a : Nat) : Byte :=
  if a ∈ s.tableChanged then Config.changedTableByte s.draws u a else s.table.read a

/-- The entry of `n` bytes at an address: one byte, or two bytes little-endian (spec/20_memory.md R75, R76). -/
def entryValue (byteAt : Nat → Byte) (a n : Nat) : Nat :=
  if n = 2 then (byteAt a).toNat ||| ((byteAt (a + 1)).toNat <<< 8) else (byteAt a).toNat

/-- `TableRead(a, n)` (spec/20_memory.md R75). -/
def State.tableRead (s : State) (u : EntryUse) (a n : Nat) : Nat := entryValue (s.tableByte u) a n

/-- No byte of the table of `size` bytes at `base` has changed while READY = 1. -/
def State.tableStands (s : State) (base size : Nat) : Bool :=
  s.tableChanged.all (fun a => a < base || base + size ≤ a)

end Sys2Proof.Machine
end

