-- ==== Sys2Proof/Machine/Operands.lean ====
section
/-! DEFINITION. The legal operand ranges of the commands (spec/30_encoding.md R103) and the placing of a
table in the address space (spec/20_memory.md R75, R77, R78). An operand is the unsigned value of its field. -/

namespace Sys2Proof.Machine

/-- DECODE and the `_FT` table commands: `1 ≤ ft ≤ 32767`. -/
def genericTotalOk (ft : Nat) : Bool := 1 ≤ ft && ft ≤ 32767

/-- DECODE_NORM: `16384 ≤ ft ≤ 32767`. -/
def normalizedTotalOk (ft : Nat) : Bool := 16384 ≤ ft && ft ≤ 32767

/-- DECODE_BIN, DECODE_ICDF, DECODE_ICDF16: `ftb ≤ 15`. -/
def totalBitsOperandOk (ftb : Nat) : Bool := ftb ≤ 15

/-- DECODE_BIT_LOGP: `logp ≤ 15`. -/
def logpOk (logp : Nat) : Bool := logp ≤ 15

/-- UPDATE: `1 ≤ ft ≤ 32768` and `fl < fh ≤ ft`. -/
def updateBoundsOk (fl fh ft : Nat) : Bool := 1 ≤ ft && ft ≤ 32768 && fl < fh && fh ≤ ft

/-- DECODE_UINT: `1 ≤ ft ≤ 2^32 − 1`. -/
def uintTotalOk (ft : Nat) : Bool := 1 ≤ ft && ft ≤ 2 ^ 32 - 1

/-- DECODE_BITS: `nbits ≤ 25`. -/
def rawWidthOk (nbits : Nat) : Bool := nbits ≤ 25

/-- The address of entry `k` of a table of `n`-byte entries (spec/20_memory.md R75). -/
def entryAddress (tb n k : Nat) : Nat := tb + n * k

/-- A 16-bit table's base must be even (spec/20_memory.md R77). -/
def tableAligned (tb n : Nat) : Bool := !(n == 2 && tb % 2 == 1)

/-- The table's last byte lies in the address space (spec/20_memory.md R78). -/
def tableInSpace (tb n nsyms : Nat) : Bool := tb + n * nsyms - 1 ≤ 2 ^ 32 - 1

end Sys2Proof.Machine
end

