-- ==== Sys2Proof/Machine/Ops.lean ====
section
/-! DEFINITION. The operations the commands share: raising a fault, completing a command, `ilog`, Lookup,
Narrow, Refill, Renormalize and RawBits (spec/00_scope.md R15, spec/40 to 44, spec/60_exceptions.md R302).
Integers are mathematical (spec/00_scope.md R14); a register write narrows explicitly (log entry 9). -/

namespace Sys2Proof.Machine

/-- What one step of the machine answers. -/
abbrev StepOutcome := Host.Outcome State Fault Refusal

/-! ## Responses and faults -/

/-- The state with one more response (spec/30_encoding.md R107, R110). -/
def State.respond (s : State) (status : StatusCode) (result : BitVec 32) : State :=
  { s with responses := s.responses ++ [{ status := status, result := result }] }

/-- The REFUSED response to a word that enters while FAULT = 1 (spec/60_exceptions.md R305). -/
def State.refuseWord (s : State) : State := s.respond .refused 0

/-- Fault entry for word `w` (spec/60_exceptions.md R302). -/
def State.enterFault (s : State) (c : Cause) (w : CmdWord) : State :=
  { s with fault := true, cause := causeCode c, faultCmd := w }.respond .fault 0

/-- The first cause, in the order given, whose condition holds (spec/60_exceptions.md R304). -/
def firstFault (checks : List (Bool × Cause)) : Option Cause :=
  match checks with
  | [] => none
  | (bad, c) :: rest => if bad then some c else firstFault rest

/-- A command word that does not decode (spec/30_encoding.md R106): refused while faulted, else fault entry. -/
def rejectWord (c : Cause) (w : CmdWord) (s : State) : StepOutcome :=
  if s.fault then .next s.refuseWord else .next (s.enterFault c w)

/-- Every command (spec/40_init_and_renormalization.md R140): refused while FAULT = 1; else the first failing
check is its fault, with the instruction's own word as FAULT_CMD (log entry 10); else the command completes
with the state and RESULT of `effect`. -/
def command (i : Instr) (checks : List (Bool × Cause)) (effect : State × BitVec 32) (s : State) : StepOutcome :=
  if s.fault then .next s.refuseWord
  else
    match firstFault checks with
    | some c => .next (s.enterFault c (encode i))
    | none => .next (effect.1.respond .ok effect.2)

/-- A command to which the spec gives a meaning on some conditions only: refused, by the model, where none of its checks
fails and the condition does not hold (spec/93_implementation_defined.md, "refuse"). -/
def commandIf (defined : Bool) (why : Refusal) (i : Instr) (checks : List (Bool × Cause)) (effect : State × BitVec 32)
    (s : State) : StepOutcome :=
  if !s.fault && (firstFault checks).isNone && !defined then .refused why else command i checks effect s

/-- READY must be 1 (spec/60_exceptions.md R303, cause 3). -/
def checkReady (s : State) : Bool × Cause := (!s.ready, .notInitialised)

/-- No lookup may be pending (R303, cause 5). -/
def checkIdle (s : State) : Bool × Cause := (s.pending, .lookupPending)

/-- A lookup must be pending (R303, cause 6). -/
def checkPending (s : State) : Bool × Cause := (!s.pending, .noPendingLookup)

/-- The operands must be in range (R303, cause 4). -/
def checkOperands (ok : Bool) : Bool × Cause := (!ok, .argOutOfRange)

/-! ## Arithmetic of the range decoder -/

/-- `ilog(x)` (spec/00_scope.md R15). -/
def ilog (x : Nat) : Nat := if x = 0 then 0 else Nat.log2 x + 1

/-- `c`, the position: the top 16 bits of VALUE (spec/00_scope.md R16). -/
def State.position (s : State) : Nat := s.value.toNat >>> 16

/-- The shift of `Lookup(ft)`: the largest `s` with `ft << s ≤ r` (spec/41_frequency_lookup.md R170), which is the
largest with `2^s ≤ r / ft` (`lookupShift_spec`). -/
def lookupShift (r ft : Nat) : Nat := Nat.log2 (r / ft)

/-- The quotient `q` of `Lookup` before the shift down (R170), for excess `d`. -/
def lookupQuotient (c d : Nat) : Nat := if 2 * d ≤ c then c - d else c >>> 1

/-- `Lookup(ft)` for RANGE `r` and position `c`: the probe and the shift (R170). -/
def lookup (r c ft : Nat) : Nat × Nat :=
  let k := lookupShift r ft
  ((lookupQuotient c (r - (ft <<< k))) >>> k, k)

/-- The map `g(x) = x + min(x, d)` of a scaled cumulative frequency into the range (spec/42_update_and_bit.md
R201). -/
def spread (d x : Nat) : Nat := x + min x d

/-- `Narrow(fl, fh, ft, s)` for RANGE `r` (spec/42_update_and_bit.md R200). -/
def narrow (r fl fh ft k : Nat) : Nat × Nat :=
  let d := r - (ft <<< k)
  (spread d (fl <<< k), spread d (fh <<< k))

/-! ## Refill and Renormalize -/

/-- The loop of `Refill` (spec/40_init_and_renormalization.md R143): its shift is always `8 − cnt`, that is
`(W − 24) − cnt`. The first argument bounds the passes. -/
def refillLoop (s : State) (passes val : Nat) (cnt : Int) (fwd : Nat) : Nat × Int × Nat :=
  match passes with
  | 0 => (val, cnt, fwd)
  | n + 1 =>
    if cnt ≤ 8 ∧ fwd < s.storage.toNat then
      refillLoop s n (val ||| ((s.streamRead .forward fwd).toNat <<< (8 - cnt).toNat)) (cnt + 8) (fwd + 1)
    else (val, cnt, fwd)

/-- How many passes the loop of `Refill` can make from `cnt`. -/
def refillPasses (cnt : Int) : Nat := (16 - cnt).toNat / 8

/-- `Refill(val, cnt, fwd)` (spec/40_init_and_renormalization.md R143). -/
def refill (s : State) (val : Nat) (cnt : Int) (fwd : Nat) : Nat × Int × Nat :=
  match refillLoop s (refillPasses cnt) val cnt fwd with
  | (val', cnt', fwd') =>
    (val', if s.storage.toNat ≤ fwd' then (Config.lotsOfBits : Int) else cnt', fwd')

/-- The refill of `Renormalize`: only when the count has gone negative (R146). -/
def refillIfShort (s : State) (val : Nat) (cnt : Int) (fwd : Nat) : Nat × Int × Nat :=
  if cnt < 0 then refill s val cnt fwd else (val, cnt, fwd)

/-- The renormalization shift of a range (R145). -/
def renormShift (rng : Nat) : Nat := 16 - ilog rng

/-- The registers that INIT's and a renormalization's refill leave: VALUE, COUNT and FWD_OFFSET. -/
def State.setWindow (s : State) (w : Nat × Int × Nat) : State :=
  { s with value := BitVec.ofNat 32 w.1, count := BitVec.ofInt 16 w.2.1, fwdOffset := BitVec.ofNat 32 w.2.2 }

/-- RANGE is written and TOTAL_BITS advances by `d`, modulo 2^32 (R146, R148). -/
def State.setRange (s : State) (rng d : Nat) : State :=
  { s with range := BitVec.ofNat 16 rng, totalBits := s.totalBits + BitVec.ofNat 32 d }

/-- `Renormalize(val, rng, ret)` (spec/40_init_and_renormalization.md R146), less the value it returns. -/
def State.renormalize (s : State) (val rng : Nat) : State :=
  let d := renormShift rng
  (s.setWindow (refillIfShort s (val <<< d) (s.count.toInt - d) s.fwdOffset.toNat)).setRange (rng <<< d) d

/-- The state narrowed to the sub-range `[u, v)`: `Renormalize(VALUE − (u << 16), v − u, …)`
(spec/42_update_and_bit.md R202). -/
def State.narrowTo (s : State) (uv : Nat × Nat) : State :=
  s.renormalize (s.value.toNat - (uv.1 <<< 16)) (uv.2 - uv.1)

/-! ## RawBits -/

/-- The refill loop of `RawBits` (spec/44_uint_and_bits.md R280): window, bits held, backward offset. It
makes at most four passes. -/
def rawRefill (s : State) (passes win avail bwd : Nat) : Nat × Nat × Nat :=
  match passes with
  | 0 => (win, avail, bwd)
  | n + 1 =>
    if s.storage.toNat ≤ bwd then (win, Config.lotsOfBits, bwd)
    else
      let win' := win ||| ((s.streamRead .backward (s.storage.toNat - 1 - bwd)).toNat <<< avail)
      if Config.windowBits - 8 < avail + 8 then (win', avail + 8, bwd + 1)
      else rawRefill s n win' (avail + 8) (bwd + 1)

/-- The reservoir of `RawBits(n)` after its refill, before any bit is taken (R280). -/
def rawReservoir (s : State) (n : Nat) : Nat × Nat × Nat :=
  if s.endBits.toNat < n then rawRefill s 4 s.endWindow.toNat s.endBits.toNat s.bwdOffset.toNat
  else (s.endWindow.toNat, s.endBits.toNat, s.bwdOffset.toNat)

/-- The registers `RawBits(n)` writes when it takes `n` bits from a reservoir (R280). -/
def State.takeRawBits (s : State) (n : Nat) (r : Nat × Nat × Nat) : State :=
  { s with
    endWindow := BitVec.ofNat 32 (r.1 >>> n)
    endBits := BitVec.ofNat 16 (r.2.1 - n)
    bwdOffset := BitVec.ofNat 32 r.2.2
    totalBits := s.totalBits + BitVec.ofNat 32 n }

/-- `RawBits(n)` (spec/44_uint_and_bits.md R280): the state after it and the bits it returns. -/
def rawBits (s : State) (n : Nat) : State × Nat :=
  (s.takeRawBits n (rawReservoir s n), (rawReservoir s n).1 &&& ((1 <<< n) - 1))

end Sys2Proof.Machine
end

