-- ==== Sys2Proof/Machine/Icdf.lean ====
section
/-! DEFINITION. The four inverse-CDF table commands, `binary_search_icdf_lu` (spec/43_icdf.md R230 to R239). -/

namespace Sys2Proof.Machine

/-- `T(k)`, entry `k` of the table of `n`-byte entries at `tb`, as the block reads it for a use (R230). -/
def icdfEntry (s : State) (u : EntryUse) (tb n k : Nat) : Nat := s.tableRead u (entryAddress tb n k) n

/-- `T(k)` as table memory holds it. -/
def icdfHeld (s : State) (tb n k : Nat) : Nat := entryValue s.table.read (entryAddress tb n k) n

/-- The table ends in 0 (R230 (a)). -/
def icdfTerminated (entry : Nat → Nat) (nsyms : Nat) : Bool := entry (nsyms - 1) == 0

/-- The entries that are known, from index `k` on among `m` of them, never rise, and none lies above `bound`
(R230 (b), (c)). -/
def fallingFrom (entry : Nat → Nat) (known : Nat → Bool) (m k bound : Nat) : Bool :=
  match m with
  | 0 => true
  | j + 1 =>
    if known k then entry k ≤ bound && fallingFrom entry known j (k + 1) (entry k)
    else fallingFrom entry known j (k + 1) bound

/-- The least index from `k` on, among `m` of them, whose entry is below the key; `k + m` if there is none
(R231). -/
def firstBelow (entry : Nat → Nat) (key m k : Nat) : Nat :=
  match m with
  | 0 => k
  | j + 1 => if entry k < key then k else firstBelow entry key j (k + 1)

/-- The reference binary search of R232 between `lo` and `hi` (informative; no command uses it). -/
def binarySearch (entry : Nat → Nat) (key passes lo hi : Nat) : Nat :=
  match passes with
  | 0 => lo
  | m + 1 =>
    if lo < hi then
      if entry ((lo + hi) >>> 1) < key then binarySearch entry key m lo ((lo + hi) >>> 1)
      else binarySearch entry key m (((lo + hi) >>> 1) + 1) hi
    else lo

/-- What the search for a key in a table goes by. -/
def tableSearch (s : State) (tb n nsyms ft key : Nat) : TableSearch where
  base := tb
  width := n
  total := ft
  key := key
  entries := (List.range nsyms).map (icdfHeld s tb n)

/-- The table meets (b) and (c) of R230 in the entries of which no byte has changed while READY = 1: the command
has a meaning (R239; log entry 7). -/
def icdfInContract (s : State) (tb n nsyms ft : Nat) : Bool :=
  fallingFrom (icdfHeld s tb n) (fun k => s.tableStands (entryAddress tb n k) n) nsyms 0 ft

/-- The symbol the block's search selects: the one of R231; on a table with changed bytes, whose reads are draws, a
free value (R82; log entry 6). -/
def icdfSelect (s : State) (tb n nsyms ft key : Nat) : Nat :=
  if s.tableStands tb (n * nsyms) then firstBelow (icdfHeld s tb n) key nsyms 0
  else Config.icdfPick s.draws (tableSearch s tb n nsyms ft key) % nsyms

/-- `fl` of symbol `k` (R231); negative for an entry above `ft`. -/
def icdfLow (entry : Nat → Nat) (ft k : Nat) : Int := if k = 0 then 0 else (ft : Int) - entry (k - 1)

/-- `fh` of symbol `k` (R231). -/
def icdfHigh (entry : Nat → Nat) (ft k : Nat) : Int := (ft : Int) - entry k

/-- The bounds check of R233: `0 ≤ fl ≤ p < fh`, with `T(k − 1)` from `low` and `T(k)` from `high`. -/
def icdfBoundsOk (low high : Nat → Nat) (ft p k : Nat) : Bool :=
  0 ≤ icdfLow low ft k && icdfLow low ft k ≤ p && (p : Int) < icdfHigh high ft k

/-- The symbol `IcdfDecode` selects in a state (R233): the search key is `ft − p`. -/
def icdfSymbol (s : State) (tb n nsyms ft : Nat) : Nat :=
  icdfSelect s tb n nsyms ft (ft - (lookup s.range.toNat s.position ft).1)

/-- The bounds of symbol `k`, as the block reads them, pass the check (R233). -/
def icdfSymbolOk (s : State) (tb n ft k : Nat) : Bool :=
  icdfBoundsOk (icdfEntry s .lowBound tb n) (icdfEntry s .highBound tb n) ft (lookup s.range.toNat s.position ft).1 k

/-- The bounds check can pass: for the symbol selected, or, where the search order decides which that is (R239), for
some symbol. -/
def icdfBoundsPass (s : State) (tb n nsyms ft : Nat) : Bool :=
  if icdfInContract s tb n nsyms ft then icdfSymbolOk s tb n ft (icdfSymbol s tb n nsyms ft)
  else (List.range nsyms).any (icdfSymbolOk s tb n ft)

/-- The checks of `IcdfDecode`, in R233's order. -/
def icdfChecks (s : State) (tb n nsyms ft : Nat) : List (Bool × Cause) :=
  [(!tableAligned tb n, .tableMisaligned), (!tableInSpace tb n nsyms, .tableAddressOverflow),
    (!icdfTerminated (icdfEntry s .terminator tb n) nsyms, .icdfTableNonconforming),
    (!icdfBoundsPass s tb n nsyms ft, .icdfTableNonconforming)]

/-- The sub-range of symbol `k` (R233). -/
def icdfRange (s : State) (low high : Nat → Nat) (ft k : Nat) : Nat × Nat :=
  narrow s.range.toNat (icdfLow low ft k).toNat (icdfHigh high ft k).toNat ft
    (lookup s.range.toNat s.position ft).2

/-- What a completed `IcdfDecode` leaves and returns (R233). -/
def icdfEffect (s : State) (tb n nsyms ft : Nat) : State × BitVec 32 :=
  (s.narrowTo (icdfRange s (icdfEntry s .lowBound tb n) (icdfEntry s .highBound tb n) ft (icdfSymbol s tb n nsyms ft)),
    BitVec.ofNat 32 (icdfSymbol s tb n nsyms ft))

/-- The common template of the table commands (R234): entries of `n` bytes, total `ft`. A table that meets (a) of R230
but not (b) or (c) gives the command no meaning, unless it faults whichever symbol the search ends on (R239). -/
def icdfCommand (i : Instr) (operandsOk : Bool) (tb : BitVec 32) (n nsyms ft : Nat) (s : State) : StepOutcome :=
  commandIf (icdfInContract s tb.toNat n nsyms ft) .nonconformingTable i
    ([checkReady s, checkIdle s, checkOperands operandsOk] ++ icdfChecks s tb.toNat n nsyms ft)
    (icdfEffect s tb.toNat n nsyms ft) s

/-- DECODE_ICDF_FT (R235). -/
def execDecodeIcdfFt (tb : BitVec 32) (ft : BitVec 16) (nsyms : Nat) (s : State) : StepOutcome :=
  icdfCommand (.decodeIcdfFt tb ft nsyms) (genericTotalOk ft.toNat) tb 1 nsyms ft.toNat s

/-- DECODE_ICDF16_FT (R236). -/
def execDecodeIcdf16Ft (tb : BitVec 32) (ft : BitVec 16) (nsyms : Nat) (s : State) : StepOutcome :=
  icdfCommand (.decodeIcdf16Ft tb ft nsyms) (genericTotalOk ft.toNat) tb 2 nsyms ft.toNat s

/-- DECODE_ICDF (R237): `ft = 1 << ftb`. -/
def execDecodeIcdf (tb : BitVec 32) (ftb : BitVec 16) (nsyms : Nat) (s : State) : StepOutcome :=
  icdfCommand (.decodeIcdf tb ftb nsyms) (totalBitsOperandOk ftb.toNat) tb 1 nsyms (1 <<< ftb.toNat) s

/-- DECODE_ICDF16 (R238): `ft = 1 << ftb`. -/
def execDecodeIcdf16 (tb : BitVec 32) (ftb : BitVec 16) (nsyms : Nat) (s : State) : StepOutcome :=
  icdfCommand (.decodeIcdf16 tb ftb nsyms) (totalBitsOperandOk ftb.toNat) tb 2 nsyms (1 <<< ftb.toNat) s

end Sys2Proof.Machine
end

