-- ==== Sys2Proof/Machine/Init.lean ====
section
/-! DEFINITION. INIT and TELL (spec/40_init_and_renormalization.md R141, R149). -/

namespace Sys2Proof.Machine

/-- The registers INIT sets outright (R141), and the memory it starts from, in which nothing has changed
yet (R82, R86). -/
def State.startStream (s : State) (storage : BitVec 32) : State :=
  { s with
    storage := storage
    bwdOffset := 0
    endWindow := 0
    endBits := 0
    range := 0x8000
    error := false
    ext := 0
    lookupFt := 0
    pending := false
    totalBits := 1
    ready := true
    streamChanged := []
    tableChanged := [] }

/-- The state INIT leaves (R141): the first refill starts from an empty window with `COUNT = −15`. -/
def State.initialise (s : State) (storage : BitVec 32) : State :=
  (s.startStream storage).setWindow (refill (s.startStream storage) 0 (-15) 0)

/-- INIT (R141): legal when READY = 0 and in either phase. -/
def execInit (storage : BitVec 32) (s : State) : StepOutcome :=
  command (.init storage) [] (s.initialise storage, 0) s

/-- TELL (R149): returns TOTAL_BITS and writes nothing; legal in both phases. -/
def execTell (s : State) : StepOutcome :=
  command .tell [checkReady s] (s, s.totalBits) s

end Sys2Proof.Machine
end

