-- ==== Sys2Proof/Machine/Lookup.lean ====
section
/-! DEFINITION. The four lookup commands, `frequency_to_symbol_mapper` (spec/41_frequency_lookup.md R172 to
R176). -/

namespace Sys2Proof.Machine

/-- The latches a lookup command writes: EXT, LOOKUP_FT and PENDING (R172). -/
def State.latchLookup (s : State) (k ft : Nat) : State :=
  { s with ext := BitVec.ofNat 4 k, lookupFt := BitVec.ofNat 16 ft, pending := true }

/-- The end of every lookup command (R172): the state with the latches, and the probe. -/
def lookupEffect (s : State) (ft : Nat) : State × BitVec 32 :=
  (s.latchLookup (lookup s.range.toNat s.position ft).2 ft,
    BitVec.ofNat 32 (lookup s.range.toNat s.position ft).1)

/-- DECODE (R173). -/
def execDecode (ft : BitVec 16) (s : State) : StepOutcome :=
  command (.decode ft) [checkReady s, checkIdle s, checkOperands (genericTotalOk ft.toNat)]
    (lookupEffect s ft.toNat) s

/-- DECODE_NORM (R174). -/
def execDecodeNorm (ft : BitVec 16) (s : State) : StepOutcome :=
  command (.decodeNorm ft) [checkReady s, checkIdle s, checkOperands (normalizedTotalOk ft.toNat)]
    (lookupEffect s ft.toNat) s

/-- DECODE_BIN_NORM (R175): `ft = 32768`. -/
def execDecodeBinNorm (s : State) : StepOutcome :=
  command .decodeBinNorm [checkReady s, checkIdle s] (lookupEffect s 32768) s

/-- DECODE_BIN (R176): `ft = 1 << ftb`. -/
def execDecodeBin (ftb : BitVec 16) (s : State) : StepOutcome :=
  command (.decodeBin ftb) [checkReady s, checkIdle s, checkOperands (totalBitsOperandOk ftb.toNat)]
    (lookupEffect s (1 <<< ftb.toNat)) s

end Sys2Proof.Machine
end

