-- ==== Sys2Proof/Machine/UintBits.lean ====
section
/-! DEFINITION. DECODE_UINT and DECODE_BITS (spec/44_uint_and_bits.md R260 to R263, R280, R281). -/

namespace Sys2Proof.Machine

/-- One uniform symbol of total `ft`: the lookup's own slot, narrowed to (R260). -/
def uniformSymbol (s : State) (ft : Nat) : State × Nat :=
  (s.narrowTo (narrow s.range.toNat (lookup s.range.toNat s.position ft).1
      ((lookup s.range.toNat s.position ft).1 + 1) ft (lookup s.range.toNat s.position ft).2),
    (lookup s.range.toNat s.position ft).1)

/-- ERROR is set (R262). -/
def State.setError (s : State) : State := { s with error := true }

/-- The raw low bits of a split: `ftb = ilog(ft − 1) − UINT_BITS` (R260). -/
def uintRawBits (ft : Nat) : Nat := ilog (ft - 1) - Config.uintBits

/-- The high-part alphabet of a split: `fth = ((ft − 1) >> ftb) + 1` (R260). -/
def uintHighTotal (ft : Nat) : Nat := ((ft - 1) >>> uintRawBits ft) + 1

/-- The value of a split before the clamp: the high part above the raw bits (R260). -/
def uintJoin (s : State) (ft : Nat) : State × Nat :=
  ((rawBits (uniformSymbol s (uintHighTotal ft)).1 (uintRawBits ft)).1,
    ((uniformSymbol s (uintHighTotal ft)).2 <<< uintRawBits ft) |||
      (rawBits (uniformSymbol s (uintHighTotal ft)).1 (uintRawBits ft)).2)

/-- The clamp of R262: a value above `ft − 1` sets ERROR and becomes `ft − 1`. -/
def uintClamp (ft : Nat) (r : State × Nat) : State × Nat :=
  if r.2 ≤ ft - 1 then r else (r.1.setError, ft - 1)

/-- `DecodeUint(ft)` (R260): direct up to `2^UINT_BITS`, split above. -/
def uintValue (s : State) (ft : Nat) : State × Nat :=
  if (1 <<< Config.uintBits) < ft then uintClamp ft (uintJoin s ft) else uniformSymbol s ft

/-- A state and the number it returns as RESULT. -/
def withResult (r : State × Nat) : State × BitVec 32 := (r.1, BitVec.ofNat 32 r.2)

/-- DECODE_UINT (R260). -/
def execDecodeUint (ft : BitVec 32) (s : State) : StepOutcome :=
  command (.decodeUint ft) [checkReady s, checkIdle s, checkOperands (uintTotalOk ft.toNat)]
    (withResult (uintValue s ft.toNat)) s

/-- DECODE_BITS (R281): legal in either phase. -/
def execDecodeBits (nbits : BitVec 16) (s : State) : StepOutcome :=
  command (.decodeBits nbits) [checkReady s, checkOperands (rawWidthOk nbits.toNat)]
    (withResult (rawBits s nbits.toNat)) s

end Sys2Proof.Machine
end

