-- ==== Sys2Proof/Machine/Update.lean ====
section
/-! DEFINITION. UPDATE and DECODE_BIT_LOGP, `range_update_pipeline` (spec/42_update_and_bit.md R202, R203). -/

namespace Sys2Proof.Machine

/-- PENDING is cleared (R202). -/
def State.clearPending (s : State) : State := { s with pending := false }

/-- The sub-range UPDATE narrows to, with the shift its lookup left in EXT (R202). -/
def updateRange (s : State) (fl fh ft : Nat) : Nat × Nat := narrow s.range.toNat fl fh ft s.ext.toNat

/-- The sub-range contains the position: `u ≤ c < v` (R202). -/
def State.positionIn (s : State) (uv : Nat × Nat) : Bool := uv.1 ≤ s.position && s.position < uv.2

/-- UPDATE (R202). -/
def execUpdate (fl fh ft : BitVec 16) (s : State) : StepOutcome :=
  command (.update fl fh ft)
    [checkReady s, checkPending s, checkOperands (updateBoundsOk fl.toNat fh.toNat ft.toNat),
      (ft != s.lookupFt, .updateFtMismatch),
      (!s.positionIn (updateRange s fl.toNat fh.toNat ft.toNat), .updateInterval)]
    (s.clearPending.narrowTo (updateRange s fl.toNat fh.toNat ft.toNat), 0) s

/-- The split point of DECODE_BIT_LOGP: the upper bound of symbol 0 = `[0, 2^logp − 1)` (R203). -/
def bitSplit (s : State) (logp : Nat) : Nat :=
  (narrow s.range.toNat 0 ((1 <<< logp) - 1) (1 <<< logp) (15 - logp)).2

/-- DECODE_BIT_LOGP's narrowed state and bit (R203). -/
def bitEffect (s : State) (logp : Nat) : State × BitVec 32 :=
  if bitSplit s logp ≤ s.position then (s.narrowTo (bitSplit s logp, s.range.toNat), 1)
  else (s.narrowTo (0, bitSplit s logp), 0)

/-- DECODE_BIT_LOGP (R203); EXT, LOOKUP_FT and PENDING are left alone. -/
def execDecodeBitLogp (logp : BitVec 16) (s : State) : StepOutcome :=
  command (.decodeBitLogp logp) [checkReady s, checkIdle s, checkOperands (logpOk logp.toNat)]
    (bitEffect s logp.toNat) s

end Sys2Proof.Machine
end

