-- ==== Sys2Proof/Machine/Dispatch.lean ====
section
/-! DEFINITION. One arm per command, each a direct call of its meaning. -/

namespace Sys2Proof.Machine

def exec (i : Instr) (s : State) : Host.Outcome State Fault Refusal :=
  match i with
  | .init storage => Sys2Proof.Machine.execInit storage s
  | .tell => Sys2Proof.Machine.execTell s
  | .decode ft => Sys2Proof.Machine.execDecode ft s
  | .decodeNorm ft => Sys2Proof.Machine.execDecodeNorm ft s
  | .decodeBinNorm => Sys2Proof.Machine.execDecodeBinNorm s
  | .decodeBin ftb => Sys2Proof.Machine.execDecodeBin ftb s
  | .update fl fh ft => Sys2Proof.Machine.execUpdate fl fh ft s
  | .decodeBitLogp logp => Sys2Proof.Machine.execDecodeBitLogp logp s
  | .decodeIcdfFt tb ft nsyms => Sys2Proof.Machine.execDecodeIcdfFt tb ft nsyms s
  | .decodeIcdf16Ft tb ft nsyms => Sys2Proof.Machine.execDecodeIcdf16Ft tb ft nsyms s
  | .decodeIcdf tb ftb nsyms => Sys2Proof.Machine.execDecodeIcdf tb ftb nsyms s
  | .decodeIcdf16 tb ftb nsyms => Sys2Proof.Machine.execDecodeIcdf16 tb ftb nsyms s
  | .decodeUint ft => Sys2Proof.Machine.execDecodeUint ft s
  | .decodeBits nbits => Sys2Proof.Machine.execDecodeBits nbits s

end Sys2Proof.Machine
end

