-- ==== Sys2Proof/Machine/HostPort.lean ====
section
/-! DEFINITION. What the host does besides issuing commands: reset, binding and changing its memories,
accepting responses, and power
(spec/70_reset_and_hazards.md R340, R343, R352, spec/60_exceptions.md R315). -/

namespace Sys2Proof.Machine

/-- `rst` (R340): every register as in `State.reset`, and a response not yet accepted is discarded. The
memories, the responses already accepted and the events to come are the host's and stay (log entry 12). -/
def State.resetBlock (s : State) : State :=
  { State.reset with
    stream := s.stream
    table := s.table
    draws := s.draws
    delivered := s.delivered
    input := s.input }

/-- The host accepts the oldest response, if there is one (spec/30_encoding.md R109). -/
def State.acceptResponse (s : State) : State :=
  match s.responses with
  | [] => s
  | r :: rest => { s with responses := rest, delivered := s.delivered ++ [r] }

/-- The host binds a buffer to the stream port (spec/20_memory.md R71): its bytes and no others. -/
def State.bindStream (s : State) (bytes : List Byte) : State := s.changeStream (Memory.ofBytes 0 bytes)

/-- The host writes one byte of its stream memory. -/
def State.writeStream (s : State) (index : BitVec 32) (byte : Byte) : State :=
  s.changeStream (s.stream.write index.toNat byte)

/-- The host writes one byte of its table memory. -/
def State.writeTable (s : State) (addr : BitVec 32) (byte : Byte) : State :=
  s.changeTable (s.table.write addr.toNat byte)

/-- The host events still to come, once one is taken. -/
def State.setInput (s : State) (rest : List HostEvent) : State := { s with input := rest }

/-- The model's draw counter advances: each command and each loss of power has free values of its own (log entry
16). -/
def State.nextDraw (s : State) : State := { s with draws := s.draws + 1 }

/-! ## Power (spec/60_exceptions.md R315; log entry 17) -/

/-- Every register holds a free value. -/
def State.loseRegisters (s : State) : State :=
  { s with
    value := (Config.lostRegister s.draws .value).setWidth 32
    range := (Config.lostRegister s.draws .range).setWidth 16
    count := (Config.lostRegister s.draws .count).setWidth 16
    totalBits := (Config.lostRegister s.draws .totalBits).setWidth 32
    fwdOffset := (Config.lostRegister s.draws .fwdOffset).setWidth 32
    bwdOffset := (Config.lostRegister s.draws .bwdOffset).setWidth 32
    storage := (Config.lostRegister s.draws .storage).setWidth 32
    endWindow := (Config.lostRegister s.draws .endWindow).setWidth 32
    endBits := (Config.lostRegister s.draws .endBits).setWidth 16
    ext := (Config.lostRegister s.draws .ext).setWidth 4
    lookupFt := (Config.lostRegister s.draws .lookupFt).setWidth 16
    pending := (Config.lostRegister s.draws .pending).getLsbD 0
    ready := (Config.lostRegister s.draws .ready).getLsbD 0
    error := (Config.lostRegister s.draws .error).getLsbD 0
    fault := (Config.lostRegister s.draws .fault).getLsbD 0
    cause := (Config.lostRegister s.draws .cause).setWidth 8
    faultCmd := Config.lostRegister s.draws .faultCmd }

/-- Power is removed and comes back: no register survives, a response not accepted is lost, and the block must be
reset (R315). What is the host's stays. -/
def State.losePower (s : State) : State :=
  { s.nextDraw.loseRegisters with responses := [], resetDue := true }

/-- The status code a free number stands for. -/
def statusOfDraw (n : Nat) : StatusCode :=
  match n % 3 with
  | 0 => .ok
  | 1 => .fault
  | _ => .refused

/-- A word that enters a block that must be reset: one response, of which nothing is known, as of the registers
(R315). -/
def State.answerUnreset (s : State) : State :=
  { s.loseRegisters with
    responses := s.responses ++
      [{ status := statusOfDraw (Config.unresetStatus s.draws), result := Config.unresetResult s.draws }] }

end Sys2Proof.Machine
end

