-- ==== Sys2Proof/Machine/CommandPort.lean ====
section
/-! DEFINITION. The command port: a word enters, is decoded and executed (spec/30_encoding.md R106, R109,
R110). -/

namespace Sys2Proof.Machine

/-- One command word is decoded and executed, as one indivisible step (spec/00_scope.md R3). A block that has lost
power and was not reset answers it somehow (spec/60_exceptions.md R315; log entry 17). -/
def runWord (w : CmdWord) (s : State) : StepOutcome :=
  if s.resetDue then .next s.nextDraw.answerUnreset
  else
    match decode w with
    | .ok i => exec i s.nextDraw
    | .error c => rejectWord c w s.nextDraw

end Sys2Proof.Machine
end

