-- ==== Sys2Proof/Machine/RegisterPort.lean ====
section
/-! DEFINITION. The read-only register port (spec/10_state.md R50 to R54): a function of the state, so a read
has no side effect. -/

namespace Sys2Proof.Machine

/-- The 32-bit word read at byte address `addr`, whose two low bits are ignored (R50); an address with no
register reads 0 (R53). -/
def csrRead (s : State) (addr : BitVec 8) : BitVec 32 :=
  match addr.toNat / 4 with
  | 0 => s.value
  | 1 => s.range.setWidth 32
  | 2 => s.count.signExtend 32
  | 3 => s.totalBits
  | 4 => s.fwdOffset
  | 5 => s.bwdOffset
  | 6 => s.storage
  | 7 => s.endWindow
  | 8 => s.endBits.setWidth 32
  | 9 => statusWord s
  | 10 => s.lookupFt.setWidth 32
  | 11 => s.faultCmd.extractLsb' 0 32
  | 12 => s.faultCmd.extractLsb' 32 32
  | 13 => paramsWord
  | _ => 0

end Sys2Proof.Machine
end

