-- ==== Sys2Proof/Machine/Step.lean ====
section
/-! DEFINITION. One step: the next host event at the block's ports. -/

namespace Sys2Proof.Machine

/-- One host event (spec/70_reset_and_hazards.md R352). -/
def stepEvent (e : HostEvent) (s : State) : Host.Outcome State Fault Refusal :=
  match e with
  | .command w => runWord w s
  | .reset => .next s.resetBlock
  | .powerLoss => .next s.losePower
  | .acceptResponse => .next s.acceptResponse
  | .bindStream bytes => .next (s.bindStream bytes)
  | .writeStream index byte => .next (s.writeStream index byte)
  | .writeTable addr byte => .next (s.writeTable addr byte)
  | .neverAnswers => .fault .hostNeverAnswers

/-- One step of the machine: the host's next event; with none, the block is idle and holds its state
(spec/60_exceptions.md R315). -/
def step (s : State) : Host.Outcome State Fault Refusal :=
  match s.input with
  | [] => .next s
  | e :: rest => stepEvent e (s.setInput rest)

/-- The state with a command word presented at the command port ahead of every other host event, so that
the next step executes it (log entry 1): the word's low `nbits` bits are those of `w`, the rest 0. -/
def State.withFetchWord (s : State) (nbits w : Nat) : State :=
  s.setInput (.command (tableWord nbits w) :: s.input)

end Sys2Proof.Machine
end

