-- ==== Sys2Proof/Safety.lean ====
section
/-! DEFINITION. What claims say of a state: the invariants of spec/10_state.md R49, what the model needs
beside them to keep them, the canonical memories, and the streams of bits a state stands for. -/

namespace Sys2Proof

/-! ## What the opcode table says of a command -/

/-- Base, entry size, number of symbols and total of a table command (spec/43_icdf.md R235 to R238). -/
def Instr.icdfTable (i : Instr) : Option (Nat × Nat × Nat × Nat) :=
  match i with
  | .decodeIcdfFt tb ft nsyms => some (tb.toNat, 1, nsyms, ft.toNat)
  | .decodeIcdf16Ft tb ft nsyms => some (tb.toNat, 2, nsyms, ft.toNat)
  | .decodeIcdf tb ftb nsyms => some (tb.toNat, 1, nsyms, 2 ^ ftb.toNat)
  | .decodeIcdf16 tb ftb nsyms => some (tb.toNat, 2, nsyms, 2 ^ ftb.toNat)
  | .init _ => none
  | .tell => none
  | .decode _ => none
  | .decodeNorm _ => none
  | .decodeBinNorm => none
  | .decodeBin _ => none
  | .update _ _ _ => none
  | .decodeBitLogp _ => none
  | .decodeUint _ => none
  | .decodeBits _ => none

/-- The total of a lookup command (spec/41_frequency_lookup.md R173 to R176). -/
def Instr.lookupTotal (i : Instr) : Option Nat :=
  match i with
  | .decode ft => some ft.toNat
  | .decodeNorm ft => some ft.toNat
  | .decodeBinNorm => some 32768
  | .decodeBin ftb => some (2 ^ ftb.toNat)
  | .init _ => none
  | .tell => none
  | .update _ _ _ => none
  | .decodeBitLogp _ => none
  | .decodeIcdfFt _ _ _ => none
  | .decodeIcdf16Ft _ _ _ => none
  | .decodeIcdf _ _ _ => none
  | .decodeIcdf16 _ _ _ => none
  | .decodeUint _ => none
  | .decodeBits _ => none

/-- The operands of a command are in the ranges of spec/30_encoding.md R103. -/
def Instr.operandsInRange (i : Instr) : Prop :=
  match i with
  | .init _ => True
  | .tell => True
  | .decode ft => 1 ≤ ft.toNat ∧ ft.toNat ≤ 32767
  | .decodeNorm ft => 16384 ≤ ft.toNat ∧ ft.toNat ≤ 32767
  | .decodeBinNorm => True
  | .decodeBin ftb => ftb.toNat ≤ 15
  | .update fl fh ft => 1 ≤ ft.toNat ∧ ft.toNat ≤ 32768 ∧ fl.toNat < fh.toNat ∧ fh.toNat ≤ ft.toNat
  | .decodeBitLogp logp => logp.toNat ≤ 15
  | .decodeIcdfFt _ ft _ => 1 ≤ ft.toNat ∧ ft.toNat ≤ 32767
  | .decodeIcdf16Ft _ ft _ => 1 ≤ ft.toNat ∧ ft.toNat ≤ 32767
  | .decodeIcdf _ ftb _ => ftb.toNat ≤ 15
  | .decodeIcdf16 _ ftb _ => ftb.toNat ≤ 15
  | .decodeUint ft => 1 ≤ ft.toNat
  | .decodeBits nbits => nbits.toNat ≤ 25

/-- The commands that fault while a lookup is pending (spec/60_exceptions.md R303, cause 5). -/
def Instr.needsIdle (i : Instr) : Bool :=
  match i with
  | .init _ => false
  | .tell => false
  | .decode _ => true
  | .decodeNorm _ => true
  | .decodeBinNorm => true
  | .decodeBin _ => true
  | .update _ _ _ => false
  | .decodeBitLogp _ => true
  | .decodeIcdfFt _ _ _ => true
  | .decodeIcdf16Ft _ _ _ => true
  | .decodeIcdf _ _ _ => true
  | .decodeIcdf16 _ _ _ => true
  | .decodeUint _ => true
  | .decodeBits _ => false

/-- The command reads raw bits: DECODE_BITS, or DECODE_UINT on its split path (spec/40 R150). -/
def Instr.readsRawBits (i : Instr) : Bool :=
  match i with
  | .decodeBits _ => true
  | .decodeUint ft => 1 <<< Config.uintBits < ft.toNat
  | .init _ => false
  | .tell => false
  | .decode _ => false
  | .decodeNorm _ => false
  | .decodeBinNorm => false
  | .decodeBin _ => false
  | .update _ _ _ => false
  | .decodeBitLogp _ => false
  | .decodeIcdfFt _ _ _ => false
  | .decodeIcdf16Ft _ _ _ => false
  | .decodeIcdf _ _ _ => false
  | .decodeIcdf16 _ _ _ => false

end Sys2Proof

namespace Sys2Proof.Machine

/-! ## The invariants of R49 -/

/-- `32768 ≤ RANGE < 65536` and `c < RANGE` (R49); the upper bound is RANGE's width. -/
def State.rangeOk (s : State) : Prop := 32768 ≤ s.range.toNat ∧ s.position < s.range.toNat

/-- `FWD_OFFSET ≤ STORAGE` and `BWD_OFFSET ≤ STORAGE` (R49). -/
def State.cursorsOk (s : State) : Prop :=
  s.fwdOffset.toNat ≤ s.storage.toNat ∧ s.bwdOffset.toNat ≤ s.storage.toNat

/-- When `COUNT ≤ 16`, `VALUE[15 − COUNT : 0] = 0` (R49). -/
def State.windowClear (s : State) : Prop :=
  s.count.toInt ≤ 16 → s.value.toNat % 2 ^ (16 - s.count.toInt).toNat = 0

/-- When `END_BITS < 32`, `END_WINDOW >> END_BITS = 0` (R49). -/
def State.reservoirClear (s : State) : Prop :=
  s.endBits.toNat < 32 → s.endWindow.toNat >>> s.endBits.toNat = 0

/-- `PENDING = 1` implies `LOOKUP_FT << EXT ≤ RANGE` and `2 · (LOOKUP_FT << EXT) > RANGE` (R49). -/
def State.phaseOk (s : State) : Prop :=
  s.pending = true →
    s.lookupFt.toNat <<< s.ext.toNat ≤ s.range.toNat ∧ s.range.toNat < 2 * (s.lookupFt.toNat <<< s.ext.toNat)

/-- The six invariants of R49, together. -/
def State.decoderOk (s : State) : Prop :=
  s.rangeOk ∧ s.cursorsOk ∧ s.windowClear ∧ s.reservoirClear ∧ s.phaseOk

/-! ## What keeps them: the counters between their legal values (R35, R41, R56) -/

/-- COUNT is in `[0, LOTS_OF_BITS]` (R35); while it counts down from the sentinel, as many low bits of
VALUE's low half are zero as it has counted. -/
def State.countOk (s : State) : Prop :=
  0 ≤ s.count.toInt ∧ s.count.toInt ≤ Config.lotsOfBits ∧
    (16 < s.count.toInt → s.value.toNat % 2 ^ (min 16 (Config.lotsOfBits - s.count.toInt).toNat) = 0)

/-- END_BITS is in `[0, LOTS_OF_BITS]` (R41); while it counts down from the sentinel, as many high bits of
END_WINDOW are zero as it has counted. -/
def State.endBitsOk (s : State) : Prop :=
  s.endBits.toNat ≤ Config.lotsOfBits ∧
    (32 < s.endBits.toNat → s.endWindow.toNat < 2 ^ (32 - (Config.lotsOfBits - s.endBits.toNat)))

/-- A pending lookup's total is in `[1, 32768]` (R43). -/
def State.lookupFtOk (s : State) : Prop := s.pending = true → 1 ≤ s.lookupFt.toNat ∧ s.lookupFt.toNat ≤ 32768

/-- The invariant of the decoder registers: R49 and the counters while READY = 1, and no lookup pending
before INIT. -/
def State.Inv (s : State) : Prop :=
  (s.ready = true → s.decoderOk ∧ s.countOk ∧ s.endBitsOk ∧ s.lookupFtOk) ∧ (s.ready = false → s.pending = false)

/-- The fault record: zero until a fault (R47, R48), and then a cause code of R303. -/
def State.faultRecordOk (s : State) : Prop :=
  if s.fault then 1 ≤ s.cause.toNat ∧ s.cause.toNat ≤ 11 else s.cause = 0 ∧ s.faultCmd = 0

/-- Both memories are in canonical form, and the addresses marked as changed rise strictly. -/
def State.memoriesOk (s : State) : Prop :=
  s.stream.wf = true ∧ s.table.wf = true ∧ s.streamChanged.Pairwise (· < ·) ∧ s.tableChanged.Pairwise (· < ·)

/-- Every register holds the free value of its draw (spec/60_exceptions.md R315). -/
def State.registersUnknown (s : State) : Prop :=
  s.value = (Config.lostRegister s.draws .value).setWidth 32 ∧
    s.range = (Config.lostRegister s.draws .range).setWidth 16 ∧
    s.count = (Config.lostRegister s.draws .count).setWidth 16 ∧
    s.totalBits = (Config.lostRegister s.draws .totalBits).setWidth 32 ∧
    s.fwdOffset = (Config.lostRegister s.draws .fwdOffset).setWidth 32 ∧
    s.bwdOffset = (Config.lostRegister s.draws .bwdOffset).setWidth 32 ∧
    s.storage = (Config.lostRegister s.draws .storage).setWidth 32 ∧
    s.endWindow = (Config.lostRegister s.draws .endWindow).setWidth 32 ∧
    s.endBits = (Config.lostRegister s.draws .endBits).setWidth 16 ∧
    s.ext = (Config.lostRegister s.draws .ext).setWidth 4 ∧
    s.lookupFt = (Config.lostRegister s.draws .lookupFt).setWidth 16 ∧
    s.pending = (Config.lostRegister s.draws .pending).getLsbD 0 ∧
    s.ready = (Config.lostRegister s.draws .ready).getLsbD 0 ∧
    s.error = (Config.lostRegister s.draws .error).getLsbD 0 ∧
    s.fault = (Config.lostRegister s.draws .fault).getLsbD 0 ∧
    s.cause = (Config.lostRegister s.draws .cause).setWidth 8 ∧
    s.faultCmd = Config.lostRegister s.draws .faultCmd

/-- The state less the block's registers (spec/10_state.md R33 to R48), which are 0 here. -/
def hostPart (s : State) : State :=
  { State.reset with
    stream := s.stream, streamChanged := s.streamChanged, table := s.table, tableChanged := s.tableChanged
    draws := s.draws, resetDue := s.resetDue, responses := s.responses, delivered := s.delivered, input := s.input }

/-- A command that decodes may run: not faulted, initialised, no lookup pending. -/
def State.idleReady (s : State) : Prop := s.fault = false ∧ s.ready = true ∧ s.pending = false

/-! ## The streams of bits a state stands for -/

/-- Bit `j` of the raw bits still to come of a reservoir (window, bits held, backward offset)
(spec/44_uint_and_bits.md R282): first those the window holds, bit 0 first, then those of the bytes from
the back of the buffer, each from its bit 0; past the front of the buffer every bit is 0. -/
def reservoirBit (s : State) (r : Nat × Nat × Nat) (j : Nat) : Bool :=
  if j < r.2.1 then r.1.testBit j
  else if r.2.2 + (j - r.2.1) / 8 < s.storage.toNat then
    (s.streamRead .backward (s.storage.toNat - 1 - (r.2.2 + (j - r.2.1) / 8))).getLsbD ((j - r.2.1) % 8)
  else false

/-- Bit `j` of the raw bits a state stands for (R282): those of END_WINDOW, END_BITS and BWD_OFFSET. -/
def rawBit (s : State) (j : Nat) : Bool :=
  reservoirBit s (s.endWindow.toNat, s.endBits.toNat, s.bwdOffset.toNat) j

/-! ## What the rules say a command leaves, in closed form -/

/-- `g(x << k) = (x << k) + min(x << k, d)` with `d = r − (ft << k)`: where a cumulative frequency `x` of total
`ft` falls in the range `r` (spec/42_update_and_bit.md R200, R201). -/
def scaledBound (r ft k x : Nat) : Nat := x * 2 ^ k + min (x * 2 ^ k) (r - ft * 2 ^ k)

/-- `(p, k)` is what `Lookup(ft)` gives for range `r` and position `c` (spec/41_frequency_lookup.md R170): `k` is the
largest shift with `ft << k ≤ r`, and `p = max(c >> 1, c − d) >> k`. -/
def isLookup (r c ft p k : Nat) : Prop :=
  ft * 2 ^ k ≤ r ∧ r < ft * 2 ^ (k + 1) ∧ p = max (c / 2) (c - (r - ft * 2 ^ k)) / 2 ^ k

/-- How many bytes `Refill` reads from count `cnt` with `left` bytes left (spec/40 R143): as many as fit below
bit 8 of the count, or all that are left. -/
def refillBytes (cnt : Int) (left : Nat) : Nat := min ((16 - cnt) / 8).toNat left

/-- `t` holds in VALUE, COUNT and FWD_OFFSET what `Refill(val, cnt, fwd)` gives (spec/40 R143): byte `j` is added
with its bit 0 at bit `8 − cnt − 8·j`, and the count saturates once the last byte is loaded. -/
def refilled (s : State) (val : Nat) (cnt : Int) (fwd : Nat) (t : State) : Prop :=
  t.value.toNat = val + ∑ j ∈ Finset.range (refillBytes cnt (s.storage.toNat - fwd)),
    (s.streamRead .forward (fwd + j)).toNat * 2 ^ (8 - cnt - 8 * (j : Int)).toNat ∧
  t.fwdOffset.toNat = fwd + refillBytes cnt (s.storage.toNat - fwd) ∧
  t.count.toInt = if s.storage.toNat ≤ fwd + refillBytes cnt (s.storage.toNat - fwd) then (Config.lotsOfBits : Int)
    else cnt + 8 * (refillBytes cnt (s.storage.toNat - fwd) : Int)

/-- `t` holds what `Renormalize(val, rng, …)` leaves (spec/40 R145, R146): RANGE brought into `[32768, 65536)` by a
shift `d`, VALUE shifted with it, TOTAL_BITS advanced by it, and bytes read only when the count would go negative. -/
def renormalized (s : State) (val rng : Nat) (t : State) : Prop :=
  ∃ d, 32768 ≤ rng * 2 ^ d ∧ rng * 2 ^ d < 65536 ∧ t.range.toNat = rng * 2 ^ d ∧
    t.totalBits = s.totalBits + BitVec.ofNat 32 d ∧
    (s.count.toInt < d → refilled s (val * 2 ^ d) (s.count.toInt - d) s.fwdOffset.toNat t) ∧
    ((d : Int) ≤ s.count.toInt →
      t.value.toNat = val * 2 ^ d ∧ t.count.toInt = s.count.toInt - d ∧ t.fwdOffset = s.fwdOffset)

/-- `t` holds what narrowing to the sub-range `[u, v)` leaves (spec/42 R202). -/
def narrowed (s : State) (u v : Nat) (t : State) : Prop :=
  renormalized s (s.value.toNat - u * 2 ^ 16) (v - u) t

/-- The state with one more response, and nothing else changed (spec/30_encoding.md R107). -/
def answered (s : State) (status : StatusCode) (result : BitVec 32) : State :=
  { s with responses := s.responses ++ [{ status := status, result := result }] }

/-- The state after fault entry with cause `code` for word `w`, and nothing else changed (spec/60_exceptions.md
R302). -/
def faulted (s : State) (code : BitVec 8) (w : CmdWord) : State :=
  { s with
    fault := true, cause := code, faultCmd := w
    responses := s.responses ++ [{ status := .fault, result := 0 }] }

/-- `t` holds in END_WINDOW, END_BITS and BWD_OFFSET what `RawBits(n)` leaves in a reservoir (spec/44 R280). With
enough bits held nothing is read. Else bytes are read while fewer than 25 bits are held: if the buffer has them all,
the back cursor and END_BITS count them; if not, the cursor stops at the buffer's front and END_BITS counts down from
the sentinel. What the window holds is the next bits of the stream (`rawBit`). -/
def reservoirAfter (s : State) (n : Nat) (t : State) : Prop :=
  (∀ j, rawBit t j = rawBit s (j + n)) ∧
  (n ≤ s.endBits.toNat → t.bwdOffset = s.bwdOffset ∧ t.endBits.toNat = s.endBits.toNat - n ∧
    t.endWindow.toNat = s.endWindow.toNat / 2 ^ n) ∧
  (s.endBits.toNat < n →
    (s.bwdOffset.toNat + (32 - s.endBits.toNat) / 8 ≤ s.storage.toNat →
      t.bwdOffset.toNat = s.bwdOffset.toNat + (32 - s.endBits.toNat) / 8 ∧
      t.endBits.toNat = s.endBits.toNat + 8 * ((32 - s.endBits.toNat) / 8) - n) ∧
    (s.storage.toNat < s.bwdOffset.toNat + (32 - s.endBits.toNat) / 8 →
      t.bwdOffset = s.storage ∧ t.endBits.toNat = 0x4000 - n))

/-- Every byte of both memories reads in `t` as in `s` (spec/20_memory.md R79). -/
def sameMemory (s t : State) : Prop := ∀ a, t.stream.read a = s.stream.read a ∧ t.table.read a = s.table.read a

/-- The instructions executed in order, one after another; `none` if one does not complete its step. -/
def runInstrs (is : List Instr) (s : State) : Option State :=
  match is with
  | [] => some s
  | i :: rest =>
    match exec i s with
    | .next t => runInstrs rest t
    | .fault _ => none
    | .refused _ => none

/-- Entry `k` of the table of `n`-byte entries at `tb`, little-endian, of the bytes at `tb + n·k`
(spec/20_memory.md R75, R76). -/
def tableEntry (byteAt : Nat → Byte) (tb n k : Nat) : Nat :=
  if n = 2 then (byteAt (tb + 2 * k)).toNat + 256 * (byteAt (tb + 2 * k + 1)).toNat else (byteAt (tb + k)).toNat

/-- No byte of the `size` bytes of table memory at `base` has been changed while READY = 1 (spec/20_memory.md R82). -/
def State.tableUnchanged (s : State) (base size : Nat) : Prop := ∀ a, base ≤ a → a < base + size → a ∉ s.tableChanged

/-- The table is conforming for total `ft` (spec/43_icdf.md R230). -/
def conformingTable (T : Nat → Nat) (nsyms ft : Nat) : Prop :=
  T (nsyms - 1) = 0 ∧ (∀ k, k < nsyms - 1 → T (k + 1) ≤ T k) ∧ T 0 ≤ ft

/-- `fl` of symbol `k` of a table with entries at most `ft` (spec/43_icdf.md R231). -/
def symbolLow (T : Nat → Nat) (ft k : Nat) : Nat := if k = 0 then 0 else ft - T (k - 1)

/-- The bounds of symbol `k`, as the block reads them, pass the check of spec/43_icdf.md R233: `0 ≤ fl ≤ p < fh`. -/
def State.symbolFits (s : State) (tb n ft p k : Nat) : Prop :=
  (k = 0 ∨ tableEntry (s.tableByte .lowBound) tb n (k - 1) ≤ ft) ∧
    symbolLow (tableEntry (s.tableByte .lowBound) tb n) ft k ≤ p ∧ p < ft - tableEntry (s.tableByte .highBound) tb n k

/-- The table meets (b) and (c) of spec/43_icdf.md R230 in the entries that have not changed while READY = 1: none lies
above the total, and none above an earlier one. -/
def State.tableInContract (s : State) (tb n nsyms ft : Nat) : Prop :=
  ∀ j, j < nsyms → s.tableUnchanged (tb + n * j) n → tableEntry s.table.read tb n j ≤ ft ∧
    ∀ i, i < j → s.tableUnchanged (tb + n * i) n → tableEntry s.table.read tb n j ≤ tableEntry s.table.read tb n i

/-- The spec gives the command a meaning: its table, if it names one, is within the contract (spec/43_icdf.md R239). -/
def State.givesMeaning (s : State) (i : Instr) : Prop :=
  ∀ tb n nsyms ft, i.icdfTable = some (tb, n, nsyms, ft) → s.tableInContract tb n nsyms ft

end Sys2Proof.Machine
end

