-- ==== Sys2Proof/Certificates/Slice0/Obligations.lean ====
section
/-! DEFINITION. The statements for the provers, each a proposition about the model that formalises numbered rules
of the spec. -/

section

open Sys2Proof Sys2Proof.Machine

/-! ## Encoding (spec/30_encoding.md) -/

/-- R113: every example line assembles to its word, and the word decodes to the command it stands for. -/
def Obligations.ExampleWordsDecode : Prop :=
  (assembleText "init 5".toList = some 0x0000000500000001 ∧ decode 0x0000000500000001 = .ok (.init 5)) ∧
  (assembleText "tell".toList = some 0x0000000000000002 ∧ decode 0x0000000000000002 = .ok .tell) ∧
  (assembleText "dec 300".toList = some 0x00000000012C0003 ∧ decode 0x00000000012C0003 = .ok (.decode 300)) ∧
  (assembleText "dec.binnorm".toList = some 0x0000000000000005 ∧ decode 0x0000000000000005 = .ok .decodeBinNorm) ∧
  (assembleText "dec.bin 4".toList = some 0x0000000000040006 ∧ decode 0x0000000000040006 = .ok (.decodeBin 4)) ∧
  (assembleText "upd 10, 20, 300".toList = some 0x0014000A012C0007 ∧
    decode 0x0014000A012C0007 = .ok (.update 10 20 300)) ∧
  (assembleText "bit.logp 1".toList = some 0x0000000000010008 ∧ decode 0x0000000000010008 = .ok (.decodeBitLogp 1)) ∧
  (assembleText "icdf 0x1000, 2, 3".toList = some 0x000010000002020B ∧
    decode 0x000010000002020B = .ok (.decodeIcdf 0x1000 2 3)) ∧
  (assembleText "icdf16.ft 0x2000, 100, 4".toList = some 0x000020000064030A ∧
    decode 0x000020000064030A = .ok (.decodeIcdf16Ft 0x2000 100 4)) ∧
  (assembleText "uint 1000".toList = some 0x000003E80000000D ∧ decode 0x000003E80000000D = .ok (.decodeUint 1000)) ∧
  (assembleText "bits 3".toList = some 0x000000000003000E ∧ decode 0x000000000003000E = .ok (.decodeBits 3))

/-- Decoding what the encoder writes gives the instruction back, for every instruction a word can carry. -/
def Obligations.DecodeOfEncode : Prop :=
  ∀ i : Instr, i.wellFormed = true → decode (encode i) = .ok i

/-- A word that decodes is the one the encoder writes for what it decodes to, and that instruction is
well-formed: no word has a second reading and no bit of it is dropped. -/
def Obligations.EncodeOfDecode : Prop :=
  ∀ (w : CmdWord) (i : Instr), decode w = .ok i → i.wellFormed = true ∧ encode i = w

/-- R106, R104, R105: the decoding procedure, bit by bit, over all words. A reserved opcode is ILLEGAL_OPCODE; a
defined one with a bit set outside its format's fields is RESERVED_FIELD_NONZERO; else the command is the
opcode's, with the word's fields as operands. -/
def Obligations.DecodingProcedure : Prop :=
  ∀ w : CmdWord,
    (w.toNat % 32 = 0 ∨ 15 ≤ w.toNat % 32 → decode w = .error .illegalOpcode) ∧
    (w.toNat % 32 ∈ [2, 5] → w &&& 0xFFFFFFFFFFFFFFE0 ≠ 0 → decode w = .error .reservedFieldNonzero) ∧
    (w.toNat % 32 ∈ [3, 4, 6, 8, 14] → w &&& 0xFFFFFFFF0000FFE0 ≠ 0 → decode w = .error .reservedFieldNonzero) ∧
    (w.toNat % 32 ∈ [1, 13] → w &&& 0x00000000FFFFFFE0 ≠ 0 → decode w = .error .reservedFieldNonzero) ∧
    (w.toNat % 32 = 7 → w &&& 0x000000000000FFE0 ≠ 0 → decode w = .error .reservedFieldNonzero) ∧
    (w.toNat % 32 ∈ [9, 10, 11, 12] → w &&& 0x00000000000000E0 ≠ 0 → decode w = .error .reservedFieldNonzero) ∧
    (w.toNat % 32 = 1 → w &&& 0x00000000FFFFFFE0 = 0 →
      decode w = .ok (.init (BitVec.ofNat 32 (w.toNat / 2 ^ 32)))) ∧
    (w.toNat % 32 = 2 → w &&& 0xFFFFFFFFFFFFFFE0 = 0 → decode w = .ok .tell) ∧
    (w.toNat % 32 = 3 → w &&& 0xFFFFFFFF0000FFE0 = 0 →
      decode w = .ok (.decode (BitVec.ofNat 16 (w.toNat / 2 ^ 16)))) ∧
    (w.toNat % 32 = 4 → w &&& 0xFFFFFFFF0000FFE0 = 0 →
      decode w = .ok (.decodeNorm (BitVec.ofNat 16 (w.toNat / 2 ^ 16)))) ∧
    (w.toNat % 32 = 5 → w &&& 0xFFFFFFFFFFFFFFE0 = 0 → decode w = .ok .decodeBinNorm) ∧
    (w.toNat % 32 = 6 → w &&& 0xFFFFFFFF0000FFE0 = 0 →
      decode w = .ok (.decodeBin (BitVec.ofNat 16 (w.toNat / 2 ^ 16)))) ∧
    (w.toNat % 32 = 7 → w &&& 0x000000000000FFE0 = 0 →
      decode w = .ok (.update (BitVec.ofNat 16 (w.toNat / 2 ^ 32)) (BitVec.ofNat 16 (w.toNat / 2 ^ 48))
        (BitVec.ofNat 16 (w.toNat / 2 ^ 16)))) ∧
    (w.toNat % 32 = 8 → w &&& 0xFFFFFFFF0000FFE0 = 0 →
      decode w = .ok (.decodeBitLogp (BitVec.ofNat 16 (w.toNat / 2 ^ 16)))) ∧
    (w.toNat % 32 = 9 → w &&& 0x00000000000000E0 = 0 →
      decode w = .ok (.decodeIcdfFt (BitVec.ofNat 32 (w.toNat / 2 ^ 32)) (BitVec.ofNat 16 (w.toNat / 2 ^ 16))
        (w.toNat / 2 ^ 8 % 256 + 1))) ∧
    (w.toNat % 32 = 10 → w &&& 0x00000000000000E0 = 0 →
      decode w = .ok (.decodeIcdf16Ft (BitVec.ofNat 32 (w.toNat / 2 ^ 32)) (BitVec.ofNat 16 (w.toNat / 2 ^ 16))
        (w.toNat / 2 ^ 8 % 256 + 1))) ∧
    (w.toNat % 32 = 11 → w &&& 0x00000000000000E0 = 0 →
      decode w = .ok (.decodeIcdf (BitVec.ofNat 32 (w.toNat / 2 ^ 32)) (BitVec.ofNat 16 (w.toNat / 2 ^ 16))
        (w.toNat / 2 ^ 8 % 256 + 1))) ∧
    (w.toNat % 32 = 12 → w &&& 0x00000000000000E0 = 0 →
      decode w = .ok (.decodeIcdf16 (BitVec.ofNat 32 (w.toNat / 2 ^ 32)) (BitVec.ofNat 16 (w.toNat / 2 ^ 16))
        (w.toNat / 2 ^ 8 % 256 + 1))) ∧
    (w.toNat % 32 = 13 → w &&& 0x00000000FFFFFFE0 = 0 →
      decode w = .ok (.decodeUint (BitVec.ofNat 32 (w.toNat / 2 ^ 32)))) ∧
    (w.toNat % 32 = 14 → w &&& 0xFFFFFFFF0000FFE0 = 0 →
      decode w = .ok (.decodeBits (BitVec.ofNat 16 (w.toNat / 2 ^ 16))))

/-- R111, R112: a line assembles exactly when its operands fit their fields, to a well-formed instruction; the
pseudo-instructions stand for `upd t, t+1, ft` and `bit.logp 1`. -/
def Obligations.AssemblerFitsFields : Prop :=
  (∀ (line : AsmLine) (i : Instr), assembleLine line = some i → i.wellFormed = true) ∧
  (∀ n : Nat, (2 ^ 32 ≤ n → assembleLine (.init n) = none ∧ assembleLine (.uint n) = none) ∧
    (n < 2 ^ 32 → assembleLine (.init n) = some (.init (BitVec.ofNat 32 n)) ∧
      assembleLine (.uint n) = some (.decodeUint (BitVec.ofNat 32 n)))) ∧
  (∀ n : Nat, (2 ^ 16 ≤ n → assembleLine (.dec n) = none ∧ assembleLine (.decNorm n) = none ∧
      assembleLine (.decBin n) = none ∧ assembleLine (.bitLogp n) = none ∧ assembleLine (.bits n) = none) ∧
    (n < 2 ^ 16 → assembleLine (.dec n) = some (.decode (BitVec.ofNat 16 n)) ∧
      assembleLine (.decNorm n) = some (.decodeNorm (BitVec.ofNat 16 n)) ∧
      assembleLine (.decBin n) = some (.decodeBin (BitVec.ofNat 16 n)) ∧
      assembleLine (.bitLogp n) = some (.decodeBitLogp (BitVec.ofNat 16 n)) ∧
      assembleLine (.bits n) = some (.decodeBits (BitVec.ofNat 16 n)))) ∧
  (∀ fl fh ft : Nat, assembleLine (.upd fl fh ft) =
    if fl < 2 ^ 16 ∧ fh < 2 ^ 16 ∧ ft < 2 ^ 16 then
      some (.update (BitVec.ofNat 16 fl) (BitVec.ofNat 16 fh) (BitVec.ofNat 16 ft)) else none) ∧
  (∀ tb b n : Nat, assembleLine (.icdfFt tb b n) =
    if tb < 2 ^ 32 ∧ b < 2 ^ 16 ∧ 1 ≤ n ∧ n ≤ 256 then
      some (.decodeIcdfFt (BitVec.ofNat 32 tb) (BitVec.ofNat 16 b) n) else none) ∧
  (∀ tb b n : Nat, assembleLine (.icdf16Ft tb b n) =
    if tb < 2 ^ 32 ∧ b < 2 ^ 16 ∧ 1 ≤ n ∧ n ≤ 256 then
      some (.decodeIcdf16Ft (BitVec.ofNat 32 tb) (BitVec.ofNat 16 b) n) else none) ∧
  (∀ tb b n : Nat, assembleLine (.icdf tb b n) =
    if tb < 2 ^ 32 ∧ b < 2 ^ 16 ∧ 1 ≤ n ∧ n ≤ 256 then
      some (.decodeIcdf (BitVec.ofNat 32 tb) (BitVec.ofNat 16 b) n) else none) ∧
  (∀ tb b n : Nat, assembleLine (.icdf16 tb b n) =
    if tb < 2 ^ 32 ∧ b < 2 ^ 16 ∧ 1 ≤ n ∧ n ≤ 256 then
      some (.decodeIcdf16 (BitVec.ofNat 32 tb) (BitVec.ofNat 16 b) n) else none) ∧
  assembleLine .tell = some .tell ∧ assembleLine .decBinnorm = some .decodeBinNorm ∧
  (∀ t ft : Nat, assembleLine (.updSym t ft) = assembleLine (.upd t (t + 1) ft)) ∧
  assembleLine .bool = assembleLine (.bitLogp 1)

/-! ## One step (spec/30_encoding.md R109, R110; spec/60_exceptions.md R315) -/

/-- A word on the command port that decodes is executed as its instruction, unless power was lost and reset is due: the
step takes the word from the host's events, advances the model's draw counter (log entry 16) and is `exec` from there;
and the word that `withFetchWord` presents is the one the next step executes. -/
def Obligations.StepRunsDecoded : Prop :=
  (∀ (s : State) (w : CmdWord) (rest : List HostEvent) (i : Instr), s.resetDue = false →
    s.input = .command w :: rest → decode w = .ok i →
    step s = exec i { s with input := rest, draws := s.draws + 1 }) ∧
  (∀ (s : State) (i : Instr), s.resetDue = false → i.wellFormed = true →
    step (s.withFetchWord 64 (encode i).toNat) = exec i { s with draws := s.draws + 1 })

/-- R315: with no event the block holds its state. -/
def Obligations.IdleBlockHoldsState : Prop :=
  ∀ s : State, s.input = [] → step s = .next s

/-- R107: every command word that enters gives exactly one response. It is REFUSED exactly when the block was
already faulted, and then nothing changes; FAULT changes the fault record alone; a RESULT that is not an OK
command's is 0, and INIT and UPDATE return 0; the codes are 0, 1 and 2. (The draw counter is the model's own, log
entry 16; a block that must be reset after a loss of power answers too, and nothing more is known of it, log entry
17; a table command that could run has no meaning on a table outside R230 (b), (c), R239, log entry 7.) -/
def Obligations.EveryCommandOneResponse : Prop :=
  (statusBits .ok = 0 ∧ statusBits .fault = 1 ∧ statusBits .refused = 2) ∧
  ∀ (s : State) (w : CmdWord),
    s.resetDue = true ∨ (∀ i, decode w = .ok i → s.idleReady → i.operandsInRange → s.givesMeaning i) →
    ∃ (t : State) (r : Response), runWord w s = .next t ∧ t.responses = s.responses ++ [r] ∧ t.delivered = s.delivered ∧ t.input = s.input ∧
    (s.resetDue = false →
    (r.status = .refused ↔ s.fault = true) ∧
    (r.status = .refused → t = { s with draws := s.draws + 1, responses := t.responses }) ∧
    (r.status = .fault → t = { s with
      draws := s.draws + 1, responses := t.responses, fault := true, cause := t.cause, faultCmd := w }) ∧
    (r.status = .ok → t.fault = false ∧ t.cause = s.cause ∧ t.faultCmd = s.faultCmd) ∧
    (r.status ≠ .ok → r.result = 0) ∧
    (∀ storage, decode w = .ok (.init storage) → r.result = 0) ∧
    (∀ fl fh ft, decode w = .ok (.update fl fh ft) → r.result = 0))

/-- R108: the return values of completed commands lie where the rule says, in every state that meets the invariant. -/
def Obligations.ReturnValuesInRange : Prop :=
  ∀ (i : Instr) (s t : State) (r : BitVec 32), i.wellFormed = true → s.Inv → exec i s = .next t →
    t.responses = s.responses ++ [{ status := .ok, result := r }] →
    match i with
    | .init _ => r = 0
    | .tell => r = s.totalBits
    | .decode ft => r.toNat < ft.toNat
    | .decodeNorm ft => r.toNat < ft.toNat
    | .decodeBinNorm => r.toNat < 32768
    | .decodeBin ftb => r.toNat < 2 ^ ftb.toNat
    | .update _ _ _ => r = 0
    | .decodeBitLogp _ => r = 0 ∨ r = 1
    | .decodeIcdfFt _ _ nsyms => r.toNat < nsyms
    | .decodeIcdf16Ft _ _ nsyms => r.toNat < nsyms
    | .decodeIcdf _ _ nsyms => r.toNat < nsyms
    | .decodeIcdf16 _ _ nsyms => r.toNat < nsyms
    | .decodeUint ft => r.toNat < ft.toNat
    | .decodeBits nbits => r.toNat < 2 ^ nbits.toNat

/-- R110: the host accepts responses oldest first, and accepting one changes nothing else; with none held nothing
changes. -/
def Obligations.ResponsesLeaveInOrder : Prop :=
  ∀ (s : State) (rest : List HostEvent), s.input = .acceptResponse :: rest →
    (∀ r rs, s.responses = r :: rs →
      step s = .next { s with input := rest, responses := rs, delivered := s.delivered ++ [r] }) ∧
    (s.responses = [] → step s = .next { s with input := rest })

/-! ## Faults (spec/60_exceptions.md) -/

/-- R302: what fault entry writes. While power lasts, when a word raises a fault while FAULT = 0, FAULT, CAUSE (a code
of R303) and FAULT_CMD (that word) are written, the response is FAULT with RESULT 0, and nothing else changes. (The
draw counter is the model's own, log entry 16.) -/
def Obligations.FaultEntry : Prop :=
  ∀ (s t : State) (w : CmdWord), s.resetDue = false → s.fault = false → runWord w s = .next t → t.fault = true →
    ∃ code : BitVec 8, 1 ≤ code.toNat ∧ code.toNat ≤ 11 ∧ t = faulted { s with draws := s.draws + 1 } code w

/-- R104, R105 as faults: while power lasts and FAULT = 0, a word with a reserved opcode faults with cause 1, and one of a defined
opcode that does not decode faults with cause 2. -/
def Obligations.UndecodableWordFaults : Prop :=
  ∀ (s : State) (w : CmdWord), s.resetDue = false → s.fault = false →
    (w.toNat % 32 = 0 ∨ 15 ≤ w.toNat % 32 → runWord w s = .next (faulted { s with draws := s.draws + 1 } 1 w)) ∧
    (1 ≤ w.toNat % 32 → w.toNat % 32 ≤ 14 → (∀ i, decode w ≠ .ok i) →
      runWord w s = .next (faulted { s with draws := s.draws + 1 } 2 w))

/-- R45, R303 cause 3: before INIT every command but INIT faults, whatever else it could fault for. -/
def Obligations.UninitialisedBlockFaults : Prop :=
  ∀ (i : Instr) (s : State), s.fault = false → s.ready = false → (∀ n, i ≠ .init n) →
    exec i s = .next (faulted s 3 (encode i))

/-- R303 causes 5 and 6: a lookup or fused command in the PENDING phase faults with cause 5, and UPDATE in the
IDLE phase with cause 6, whatever the operands. -/
def Obligations.PhaseViolationFaults : Prop :=
  ∀ (i : Instr) (s : State), s.fault = false → s.ready = true →
    (s.pending = true → i.needsIdle = true → exec i s = .next (faulted s 5 (encode i))) ∧
    (s.pending = false → ∀ fl fh ft, i = .update fl fh ft → exec i s = .next (faulted s 6 (encode i)))

/-- R303 cause 4 with the ranges of R103: in the phase it needs, a command with an operand out of range faults,
before any table or interval check. -/
def Obligations.OperandOutOfRangeFaults : Prop :=
  ∀ (i : Instr) (s : State), s.fault = false → s.ready = true → ¬ i.operandsInRange →
    (i.needsIdle = true → s.pending = false) → ((∃ fl fh ft, i = .update fl fh ft) → s.pending = true) →
    exec i s = .next (faulted s 4 (encode i))

/-- R303 causes 7 and 8, in the order of R304: an UPDATE with operands in range faults with cause 7 if its total is
not the lookup's, and else with cause 8 if its sub-range does not contain the position. -/
def Obligations.UpdateMismatchFaults : Prop :=
  ∀ (fl fh ft : BitVec 16) (s : State), s.fault = false → s.ready = true → s.pending = true →
    (Instr.update fl fh ft).operandsInRange →
    (ft ≠ s.lookupFt → exec (.update fl fh ft) s = .next (faulted s 7 (encode (.update fl fh ft)))) ∧
    (ft = s.lookupFt →
      ¬ (scaledBound s.range.toNat ft.toNat s.ext.toNat fl.toNat ≤ s.position ∧
        s.position < scaledBound s.range.toNat ft.toNat s.ext.toNat fh.toNat) →
      exec (.update fl fh ft) s = .next (faulted s 8 (encode (.update fl fh ft))))

/-- R77, R78, R233 and R303 causes 10, 11 and 9, in the order of R304: a table command faults with cause 10 on an
odd base of a 16-bit table, else with cause 11 when the table's last byte lies past the address space, else with
cause 9 when the table's last entry does not read as 0. -/
def Obligations.TableFaults : Prop :=
  ∀ (i : Instr) (s : State) (tb n nsyms ft : Nat), i.icdfTable = some (tb, n, nsyms, ft) → i.wellFormed = true →
    s.idleReady → i.operandsInRange →
    (n = 2 → tb % 2 = 1 → exec i s = .next (faulted s 10 (encode i))) ∧
    ((n = 2 → tb % 2 = 0) → 2 ^ 32 - 1 < tb + n * nsyms - 1 → exec i s = .next (faulted s 11 (encode i))) ∧
    ((n = 2 → tb % 2 = 0) → tb + n * nsyms - 1 ≤ 2 ^ 32 - 1 → tableEntry (s.tableByte .terminator) tb n (nsyms - 1) ≠ 0 →
      exec i s = .next (faulted s 9 (encode i)))

/-- R305: while power lasts and FAULT = 1, every word, INIT too, is answered REFUSED with RESULT 0 and changes nothing,
the fault record included. (The draw counter is the model's own, log entry 16.) -/
def Obligations.FaultedBlockRefuses : Prop :=
  ∀ (s : State) (w : CmdWord), s.resetDue = false → s.fault = true →
    runWord w s = .next (answered { s with draws := s.draws + 1 } .refused 0)

/-- R307: while power lasts no event but reset leaves the faulted state or changes its record, and reset clears FAULT,
CAUSE, FAULT_CMD and every other register. -/
def Obligations.OnlyResetClearsFault : Prop :=
  (∀ s t : State, s.fault = true → step s = .next t → s.resetDue = false → (∀ rest, s.input ≠ .powerLoss :: rest) →
    (∀ rest, s.input ≠ .reset :: rest) →
    t.fault = true ∧ t.cause = s.cause ∧ t.faultCmd = s.faultCmd) ∧
  ∀ (s : State) (rest : List HostEvent), s.input = .reset :: rest →
    ∃ t, step s = .next t ∧ t.fault = false ∧ t.cause = 0 ∧ t.faultCmd = 0 ∧
      t = { State.reset with
        stream := s.stream, table := s.table, draws := s.draws, delivered := s.delivered, input := rest }

/-- R47, R48: the fault record is all zero while FAULT = 0 and holds a cause code of R303 while FAULT = 1, and every
step keeps that so (but between a loss of power and reset, where no register is known). -/
def Obligations.StepKeepsFaultRecord : Prop :=
  ∀ s t : State, (s.resetDue = false → s.faultRecordOk) → step s = .next t → t.resetDue = false → t.faultRecordOk

/-- R46, R262: while power lasts ERROR is set by a completed DECODE_UINT of a split total only, and cleared by INIT and
reset only, which both clear it. -/
def Obligations.ErrorIsSticky : Prop :=
  (∀ (s : State) (rest : List HostEvent), s.input = .reset :: rest → ∃ t, step s = .next t ∧ t.error = false) ∧
  (∀ (s : State) (storage : BitVec 32), s.fault = false → ∃ t, exec (.init storage) s = .next t ∧ t.error = false) ∧
  (∀ s t : State, step s = .next t → s.resetDue = false → (∀ rest, s.input ≠ .powerLoss :: rest) →
    s.error = true → t.error = false →
    (∃ rest, s.input = .reset :: rest) ∨
      ∃ w rest storage, s.input = .command w :: rest ∧ decode w = .ok (.init storage)) ∧
  (∀ s t : State, step s = .next t → s.resetDue = false → (∀ rest, s.input ≠ .powerLoss :: rest) →
    s.error = false → t.error = true →
    ∃ w rest ft, s.input = .command w :: rest ∧ decode w = .ok (.decodeUint ft) ∧ 256 < ft.toNat ∧
      t.responses = s.responses ++ [{ status := .ok, result := ft - 1 }])

/-! ## Reset and INIT (spec/70_reset_and_hazards.md, spec/40_init_and_renormalization.md) -/

/-- R340, R57: reset puts every register to 0 and discards the responses not accepted; what is the host's (the two
memories, the responses accepted, the events to come) stays, which is the model's choice (log entry 12). -/
def Obligations.ResetClearsRegisters : Prop :=
  ∀ (s : State) (rest : List HostEvent), s.input = .reset :: rest →
    step s = .next
      { value := 0, range := 0, count := 0, totalBits := 0, fwdOffset := 0, bwdOffset := 0, storage := 0,
        endWindow := 0, endBits := 0, ext := 0, lookupFt := 0, pending := false, ready := false, error := false,
        fault := false, cause := 0, faultCmd := 0, stream := s.stream, streamChanged := [], table := s.table,
        tableChanged := [], draws := s.draws, resetDue := false, responses := [], delivered := s.delivered,
        input := rest }

/-- R141, R57: INIT completes in every phase, before or after another INIT, and its end state: every register at the
value of R57's second column, and the first three bytes of the buffer (those there are) in VALUE. No byte of either
memory counts as changed after it (log entries 5 and 6). -/
def Obligations.InitCompletes : Prop :=
  ∀ (s : State) (storage : BitVec 32), s.fault = false →
    exec (.init storage) s = .next
      { s with
        value := BitVec.ofNat 32 ((if 0 < storage.toNat then (s.stream.read 0).toNat * 2 ^ 23 else 0) +
          (if 1 < storage.toNat then (s.stream.read 1).toNat * 2 ^ 15 else 0) +
          (if 2 < storage.toNat then (s.stream.read 2).toNat * 2 ^ 7 else 0))
        range := 0x8000
        count := if 4 ≤ storage.toNat then 9 else 0x4000
        totalBits := 1
        fwdOffset := BitVec.ofNat 32 (min storage.toNat 3)
        bwdOffset := 0, storage := storage, endWindow := 0, endBits := 0, ext := 0, lookupFt := 0
        pending := false, ready := true, error := false
        responses := s.responses ++ [{ status := .ok, result := 0 }]
        streamChanged := [], tableChanged := [] }

/-- R344, R84: after INIT nothing of the old stream is left: two blocks that hold the same memories give the same
responses to the same commands from an INIT on, whatever their registers and the draw counter (the model's own, log
entry 16) held before. -/
def Obligations.InitForgetsThePast : Prop :=
  ∀ (s s' t t' : State) (storage : BitVec 32) (is : List Instr), s.fault = false → s'.fault = false →
    s.faultRecordOk → s'.faultRecordOk → s.stream = s'.stream → s.table = s'.table →
    s.responses = [] → s'.responses = [] →
    runInstrs (.init storage :: is) s = some t → runInstrs (.init storage :: is) s' = some t' →
    t' = { t with draws := s'.draws, delivered := s'.delivered, input := s'.input, resetDue := s'.resetDue }

/-- R149: TELL completes in both phases, returns TOTAL_BITS and writes nothing. -/
def Obligations.TellCompletes : Prop :=
  ∀ s : State, s.fault = false → s.ready = true → exec .tell s = .next (answered s .ok s.totalBits)

/-! ## Refill and Renormalize (spec/40_init_and_renormalization.md) -/

/-- R143, R144: `Refill` on a window whose unloaded bits are zero reads as many bytes as fit, never past the buffer,
adds each at its place, stays within 32 bits, and saturates the count exactly when the last byte has been loaded. -/
def Obligations.RefillPlacesBytes : Prop :=
  ∀ (s : State) (val fwd : Nat) (cnt : Int), -15 ≤ cnt → cnt ≤ -1 → val < 2 ^ 32 → val % 2 ^ (16 - cnt).toNat = 0 →
    fwd ≤ s.storage.toNat →
    (refill s val cnt fwd).1 = val + ∑ j ∈ Finset.range (refillBytes cnt (s.storage.toNat - fwd)),
      (s.streamRead .forward (fwd + j)).toNat * 2 ^ (8 - cnt - 8 * (j : Int)).toNat ∧
    (refill s val cnt fwd).1 < 2 ^ 32 ∧
    (refill s val cnt fwd).2.2 = fwd + refillBytes cnt (s.storage.toNat - fwd) ∧
    (refill s val cnt fwd).2.2 ≤ s.storage.toNat ∧
    (refill s val cnt fwd).2.2 ≤ fwd + 3 ∧
    ((refill s val cnt fwd).2.2 = s.storage.toNat → (refill s val cnt fwd).2.1 = 0x4000) ∧
    ((refill s val cnt fwd).2.2 < s.storage.toNat →
      (refill s val cnt fwd).2.1 = cnt + 8 * (refillBytes cnt (s.storage.toNat - fwd) : Int) ∧
      9 ≤ (refill s val cnt fwd).2.1 ∧ (refill s val cnt fwd).2.1 ≤ 16)

/-- R145: the renormalization shift of a range of 1 to 65535 is `16 − ilog` = `15 − floor(log2)`, brings the range into
`[32768, 65536)`, is at most 15, and is 0 for a range from 32768 on. -/
def Obligations.RenormalizationShift : Prop :=
  ∀ rng : Nat, 1 ≤ rng → rng ≤ 65535 →
    renormShift rng = 16 - ilog rng ∧ renormShift rng = 15 - Nat.log 2 rng ∧
    32768 ≤ rng * 2 ^ renormShift rng ∧ rng * 2 ^ renormShift rng < 65536 ∧ renormShift rng ≤ 15 ∧
    (∀ d, 32768 ≤ rng * 2 ^ d → rng * 2 ^ d < 65536 → d = renormShift rng) ∧
    (32768 ≤ rng → renormShift rng = 0)

/-- R147: what holds after `Renormalize`, from its preconditions and R49's window and count; and with a range that is
already normal it changes VALUE and RANGE alone. -/
def Obligations.RenormalizeRestoresInvariants : Prop :=
  ∀ (s : State) (val rng : Nat), 1 ≤ rng → rng ≤ 65535 → val / 2 ^ 16 < rng →
    0 ≤ s.count.toInt → s.count.toInt ≤ 0x4000 →
    (s.count.toInt ≤ 16 → val % 2 ^ (16 - s.count.toInt).toNat = 0) →
    (16 < s.count.toInt → val % 2 ^ (min 16 (0x4000 - s.count.toInt).toNat) = 0) →
    s.fwdOffset.toNat ≤ s.storage.toNat →
    32768 ≤ (s.renormalize val rng).range.toNat ∧
    (s.renormalize val rng).value.toNat / 2 ^ 16 < (s.renormalize val rng).range.toNat ∧
    0 ≤ (s.renormalize val rng).count.toInt ∧
    (s.renormalize val rng).windowClear ∧
    renormalized s val rng (s.renormalize val rng) ∧
    (32768 ≤ rng → s.renormalize val rng =
      { s with value := BitVec.ofNat 32 val, range := BitVec.ofNat 16 rng })

/-! ## Frequency lookup (spec/41_frequency_lookup.md) -/

/-- R170: `Lookup(ft)` for a normal range, and the computational form of its shift. -/
def Obligations.LookupFunction : Prop :=
  ∀ r c ft : Nat, 32768 ≤ r → r < 65536 → c < r → 1 ≤ ft → ft ≤ 32768 →
    isLookup r c ft (lookup r c ft).1 (lookup r c ft).2 ∧
    (lookup r c ft).2 = (if ft * 2 ^ (15 - ilog (ft - 1)) ≤ r - ft * 2 ^ (15 - ilog (ft - 1))
      then 15 - ilog (ft - 1) + 1 else 15 - ilog (ft - 1))

/-- R171: the properties of `Lookup`: the bounds of its shift, of the scaled total and of the probe, and that the
unscaled probe `q` is the place of the position under `g(x) = x + min(x, d)`, which increases up to `g(ftp) = r`. -/
def Obligations.LookupProperties : Prop :=
  ∀ r c ft : Nat, 32768 ≤ r → r < 65536 → c < r → 1 ≤ ft → ft ≤ 32768 →
    ∃ p k q d : Nat, lookup r c ft = (p, k) ∧ k ≤ 15 ∧ (k = 15 → ft = 1) ∧ ft * 2 ^ k + d = r ∧ d < ft * 2 ^ k ∧
      q < ft * 2 ^ k ∧ p = q / 2 ^ k ∧ p < ft ∧
      (∀ x y, x < y → x + min x d < y + min y d) ∧ ft * 2 ^ k + min (ft * 2 ^ k) d = r ∧
      q + min q d ≤ c ∧ c < (q + 1) + min (q + 1) d

/-- R172: with a normal range each of the four lookup commands completes whenever no lookup is pending and its operand is
in range, returns the probe, latches the shift, the total and PENDING, and writes nothing else; no memory is read or
changed. -/
def Obligations.LookupCommandsComplete : Prop :=
  ∀ (i : Instr) (s : State) (ft : Nat), i.lookupTotal = some ft → s.idleReady → s.rangeOk → i.operandsInRange →
    ∃ p k : Nat, isLookup s.range.toNat s.position ft p k ∧ p < ft ∧ k ≤ 15 ∧
      exec i s = .next { s with
        ext := BitVec.ofNat 4 k, lookupFt := BitVec.ofNat 16 ft, pending := true
        responses := s.responses ++ [{ status := .ok, result := BitVec.ofNat 32 p }] }

/-- R177: DECODE_NORM writes what DECODE writes on its totals; DECODE_BIN writes what DECODE of the power of two
writes; and DECODE_BIN of 15 writes what DECODE_BIN_NORM writes. -/
def Obligations.LookupEquivalences : Prop :=
  ∀ s : State, s.idleReady →
    (∀ ft : BitVec 16, 16384 ≤ ft.toNat → ft.toNat ≤ 32767 → exec (.decodeNorm ft) s = exec (.decode ft) s) ∧
    (∀ ftb : BitVec 16, ftb.toNat ≤ 14 →
      exec (.decodeBin ftb) s = exec (.decode (BitVec.ofNat 16 (2 ^ ftb.toNat))) s) ∧
    exec (.decodeBin 15) s = exec .decodeBinNorm s

/-! ## UPDATE and DECODE_BIT_LOGP (spec/42_update_and_bit.md) -/

/-- R200, R201: `Narrow` for the shift of its total: the bounds are the scaled bounds, values of the increasing map
`g(x) = x + min(x, d)` from 0 to the range, which gives a scaled frequency below `d` two positions and one from `d` on
one; a nonempty symbol has a nonempty sub-range inside the range, starting at 0 for `fl = 0` and ending at the range for
`fh = ft`; neighbours share their border, and every position lies in the sub-range of exactly one frequency: the
sub-ranges tile the range. -/
def Obligations.NarrowTilesTheRange : Prop :=
  ∀ r ft k : Nat, ft * 2 ^ k ≤ r → r < 2 * (ft * 2 ^ k) →
    (∀ x, scaledBound r ft k x = x * 2 ^ k + min (x * 2 ^ k) (r - ft * 2 ^ k)) ∧
    (∀ x y, x < y → x + min x (r - ft * 2 ^ k) < y + min y (r - ft * 2 ^ k)) ∧
    ft * 2 ^ k + min (ft * 2 ^ k) (r - ft * 2 ^ k) = r ∧
    (∀ x, (x + 1) + min (x + 1) (r - ft * 2 ^ k) =
      x + min x (r - ft * 2 ^ k) + if x < r - ft * 2 ^ k then 2 else 1) ∧
    (∀ fl fh, fl < fh → fh ≤ ft →
      narrow r fl fh ft k = (scaledBound r ft k fl, scaledBound r ft k fh) ∧
      (narrow r fl fh ft k).1 < (narrow r fl fh ft k).2 ∧ (narrow r fl fh ft k).2 ≤ r ∧
      (fl = 0 → (narrow r fl fh ft k).1 = 0) ∧ (fh = ft → (narrow r fl fh ft k).2 = r) ∧
      (∀ fm, fm ≤ ft → fh < fm → (narrow r fl fh ft k).2 = (narrow r fh fm ft k).1)) ∧
    (∀ c, c < r → ∃! x, x < ft ∧ (narrow r x (x + 1) ft k).1 ≤ c ∧ c < (narrow r x (x + 1) ft k).2)

/-- R202: UPDATE completes when a lookup of its total is pending, its bounds are in range and its sub-range contains
the position: it returns 0, clears PENDING, narrows and renormalizes; EXT, LOOKUP_FT, every other register and both
memories are unchanged. -/
def Obligations.UpdateCompletes : Prop :=
  ∀ (s : State) (fl fh ft : BitVec 16), s.fault = false → s.ready = true → s.pending = true → s.Inv →
    (Instr.update fl fh ft).operandsInRange → ft = s.lookupFt →
    scaledBound s.range.toNat ft.toNat s.ext.toNat fl.toNat ≤ s.position →
    s.position < scaledBound s.range.toNat ft.toNat s.ext.toNat fh.toNat →
    ∃ t : State, exec (.update fl fh ft) s = .next t ∧
      narrowed s (scaledBound s.range.toNat ft.toNat s.ext.toNat fl.toNat)
        (scaledBound s.range.toNat ft.toNat s.ext.toNat fh.toNat) t ∧
      t = { s with
        value := t.value, range := t.range, count := t.count, fwdOffset := t.fwdOffset, totalBits := t.totalBits
        pending := false, responses := s.responses ++ [{ status := .ok, result := 0 }] } ∧
      sameMemory s t

/-- R202's first corner case: after any of the four lookup commands that returned `p`, an UPDATE of the same total
completes when `fl ≤ p < fh`, and else faults with UPDATE_INTERVAL. -/
def Obligations.UpdateAcceptsTheProbesSymbol : Prop :=
  ∀ (i : Instr) (s : State) (fl fh ft : BitVec 16), i.lookupTotal = some ft.toNat → s.idleReady → s.Inv →
    i.operandsInRange → (Instr.update fl fh ft).operandsInRange →
    ∃ (s1 : State) (p : BitVec 32), exec i s = .next s1 ∧
      s1.responses = s.responses ++ [{ status := .ok, result := p }] ∧
      (fl.toNat ≤ p.toNat → p.toNat < fh.toNat →
        ∃ t, exec (.update fl fh ft) s1 = .next t ∧ t.fault = false ∧ t.pending = false) ∧
      (¬ (fl.toNat ≤ p.toNat ∧ p.toNat < fh.toNat) →
        exec (.update fl fh ft) s1 = .next (faulted s1 8 (encode (.update fl fh ft))))

/-- R203: DECODE_BIT_LOGP completes when no lookup is pending and `logp ≤ 15`: the bit says whether the position is at
or above the split point `v`, and the state is narrowed to that side of it; PENDING, EXT, LOOKUP_FT, every other
register and both memories are unchanged. -/
def Obligations.BitLogpCompletes : Prop :=
  ∀ (s : State) (logp : BitVec 16), s.idleReady → s.Inv → logp.toNat ≤ 15 →
    ∃ (t : State) (v : Nat), v = (32768 - 2 ^ (15 - logp.toNat)) + min (32768 - 2 ^ (15 - logp.toNat)) (s.range.toNat - 32768) ∧
      exec (.decodeBitLogp logp) s = .next t ∧
      (v ≤ s.position → narrowed s v s.range.toNat t ∧
        t.responses = s.responses ++ [{ status := .ok, result := 1 }]) ∧
      (s.position < v → narrowed s 0 v t ∧ t.responses = s.responses ++ [{ status := .ok, result := 0 }]) ∧
      t = { s with
        value := t.value, range := t.range, count := t.count, fwdOffset := t.fwdOffset, totalBits := t.totalBits
        responses := t.responses } ∧
      sameMemory s t

/-- R203's equivalence: DECODE_BIT_LOGP gives the bit and the end state of DECODE_BIN followed by the UPDATE of the
symbol that contains the probe, but for EXT, LOOKUP_FT and the responses. -/
def Obligations.BitLogpIsLookupThenUpdate : Prop :=
  ∀ (s : State) (logp : BitVec 16), s.idleReady → s.Inv → logp.toNat ≤ 15 →
    ∃ (s1 s2 t : State) (p bit : BitVec 32) (fl fh : BitVec 16),
      exec (.decodeBin logp) s = .next s1 ∧ s1.responses = s.responses ++ [{ status := .ok, result := p }] ∧
      (if 2 ^ logp.toNat - 1 ≤ p.toNat
        then bit = 1 ∧ fl.toNat = 2 ^ logp.toNat - 1 ∧ fh.toNat = 2 ^ logp.toNat
        else bit = 0 ∧ fl.toNat = 0 ∧ fh.toNat = 2 ^ logp.toNat - 1) ∧
      exec (.update fl fh (BitVec.ofNat 16 (2 ^ logp.toNat))) s1 = .next s2 ∧ s2.fault = false ∧
      exec (.decodeBitLogp logp) s = .next t ∧
      t = { s2 with
        ext := s.ext, lookupFt := s.lookupFt
        responses := s.responses ++ [{ status := .ok, result := bit }] }

/-! ## The table commands (spec/43_icdf.md) -/

/-- R231, R233, R234: on a conforming table each of the four table commands completes and returns the least symbol
`k` whose entry is below `ft − p`, with the probe in its bounds; the state is narrowed to them; every other register,
PENDING, EXT and LOOKUP_FT among them, and both memories are unchanged, and every table address reads as before.
None of the table's bytes has changed while READY = 1 (R82). -/
def Obligations.TableCommandsComplete : Prop :=
  ∀ (i : Instr) (s : State) (tb n nsyms ft : Nat), i.icdfTable = some (tb, n, nsyms, ft) → i.wellFormed = true →
    s.idleReady → s.Inv → i.operandsInRange → (n = 2 → tb % 2 = 0) → tb + n * nsyms - 1 ≤ 2 ^ 32 - 1 →
    conformingTable (tableEntry s.table.read tb n) nsyms ft → s.tableUnchanged tb (n * nsyms) →
    ∃ (p k sym : Nat) (t : State), isLookup s.range.toNat s.position ft p k ∧
      sym < nsyms ∧ tableEntry s.table.read tb n sym < ft - p ∧ (∀ j, j < sym → ft - p ≤ tableEntry s.table.read tb n j) ∧
      symbolLow (tableEntry s.table.read tb n) ft sym ≤ p ∧ p < ft - tableEntry s.table.read tb n sym ∧
      exec i s = .next t ∧
      narrowed s (scaledBound s.range.toNat ft k (symbolLow (tableEntry s.table.read tb n) ft sym))
        (scaledBound s.range.toNat ft k (ft - tableEntry s.table.read tb n sym)) t ∧
      t = { s with
        value := t.value, range := t.range, count := t.count, fwdOffset := t.fwdOffset, totalBits := t.totalBits
        responses := s.responses ++ [{ status := .ok, result := BitVec.ofNat 32 sym }] } ∧
      sameMemory s t ∧ ∀ u a, t.tableByte u a = s.tableByte u a

/-- R232: on a conforming table the reference binary search, in `ceil(log2 NSYMS)` passes or more, finds the symbol of
R231. -/
def Obligations.BinarySearchFindsTheSymbol : Prop :=
  ∀ (T : Nat → Nat) (nsyms ft key passes : Nat), 1 ≤ nsyms → conformingTable T nsyms ft → 1 ≤ key →
    Nat.clog 2 nsyms ≤ passes →
    binarySearch T key passes 0 (nsyms - 1) = firstBelow T key nsyms 0 ∧
    binarySearch T key passes 0 (nsyms - 1) < nsyms ∧ T (binarySearch T key passes 0 (nsyms - 1)) < key ∧
    ∀ j, j < binarySearch T key passes 0 (nsyms - 1) → key ≤ T j

/-- R239: a table command on a table whose last entry reads as 0, but which rises or has an entry above the total, has
no meaning: the model refuses it by name (log entry 7) where some symbol's bounds pass the check of R233, so that the
block may complete; where none do, the block faults with cause 9 whichever it ends on. -/
def Obligations.NonconformingTableOutcome : Prop :=
  ∀ (i : Instr) (s : State) (tb n nsyms ft : Nat), i.icdfTable = some (tb, n, nsyms, ft) → i.wellFormed = true →
    s.idleReady → s.Inv → i.operandsInRange → (n = 2 → tb % 2 = 0) → tb + n * nsyms - 1 ≤ 2 ^ 32 - 1 →
    tableEntry (s.tableByte .terminator) tb n (nsyms - 1) = 0 → ¬ s.tableInContract tb n nsyms ft →
    ∃ p k : Nat, isLookup s.range.toNat s.position ft p k ∧
      ((∃ sym, sym < nsyms ∧ s.symbolFits tb n ft p sym) → exec i s = .refused .nonconformingTable) ∧
      ((∀ sym, sym < nsyms → ¬ s.symbolFits tb n ft p sym) → exec i s = .next (faulted s 9 (encode i)))

/-! ## DECODE_UINT and DECODE_BITS (spec/44_uint_and_bits.md) -/

/-- R260, R261: DECODE_UINT of a total up to 256 completes when no lookup is pending: the result is the probe, the
state is narrowed to its slot, and every other register and both memories are unchanged. -/
def Obligations.UintDirectCompletes : Prop :=
  ∀ (s : State) (ft : BitVec 32), s.idleReady → s.Inv → 1 ≤ ft.toNat → ft.toNat ≤ 256 →
    ∃ (p k : Nat) (t : State), isLookup s.range.toNat s.position ft.toNat p k ∧ p < ft.toNat ∧
      exec (.decodeUint ft) s = .next t ∧
      narrowed s (scaledBound s.range.toNat ft.toNat k p) (scaledBound s.range.toNat ft.toNat k (p + 1)) t ∧
      t = { s with
        value := t.value, range := t.range, count := t.count, fwdOffset := t.fwdOffset, totalBits := t.totalBits
        responses := s.responses ++ [{ status := .ok, result := BitVec.ofNat 32 p }] } ∧
      sameMemory s t

/-- R260, R262: DECODE_UINT of a total above 256 completes when no lookup is pending: the high part is one uniform
symbol of total `fth`, the low `ftb` bits are the next raw bits; a value above `ft − 1` is returned as `ft − 1` with
ERROR set, and else ERROR is as before. The state after is that of the symbol and then of the raw bits: `m` holds what
the symbol leaves, and END_WINDOW, END_BITS, BWD_OFFSET and TOTAL_BITS are those of reading `ftb` bits in `m`. -/
def Obligations.UintSplitCompletes : Prop :=
  ∀ (s : State) (ft : BitVec 32), s.idleReady → s.Inv → 256 < ft.toNat →
    ∃ (ftb fth p k low : Nat) (m t : State), ftb + 8 = Nat.log 2 (ft.toNat - 1) + 1 ∧
      fth = (ft.toNat - 1) / 2 ^ ftb + 1 ∧ 1 ≤ ftb ∧ ftb ≤ 24 ∧ 129 ≤ fth ∧ fth ≤ 256 ∧
      isLookup s.range.toNat s.position fth p k ∧ p < fth ∧
      narrowed s (scaledBound s.range.toNat fth k p) (scaledBound s.range.toNat fth k (p + 1)) m ∧
      m = { s with
        value := m.value, range := m.range, count := m.count, fwdOffset := m.fwdOffset, totalBits := m.totalBits } ∧
      low < 2 ^ ftb ∧ (∀ j, j < ftb → low.testBit j = rawBit s j) ∧
      exec (.decodeUint ft) s = .next t ∧
      reservoirAfter m ftb t ∧
      (p * 2 ^ ftb + low ≤ ft.toNat - 1 → t.error = s.error ∧
        t.responses = s.responses ++ [{ status := .ok, result := BitVec.ofNat 32 (p * 2 ^ ftb + low) }]) ∧
      (ft.toNat - 1 < p * 2 ^ ftb + low → t.error = true ∧
        t.responses = s.responses ++ [{ status := .ok, result := ft - 1 }]) ∧
      t = { m with
        endWindow := t.endWindow, endBits := t.endBits, bwdOffset := t.bwdOffset
        totalBits := m.totalBits + BitVec.ofNat 32 ftb, error := t.error, responses := t.responses } ∧
      sameMemory s t

/-- R263: path, `ftb`, `fth` and raw bits of DECODE_UINT around the threshold. -/
def Obligations.UintThresholdVectors : Prop :=
  (∀ ft ∈ [1, 255, 256], ¬ (1 <<< Config.uintBits) < ft) ∧
  (∀ v ∈ [(257, 1, 129), (512, 1, 256), (513, 2, 129), (1000, 2, 250), (65536, 8, 256), (2 ^ 32 - 1, 24, 256)],
    (1 <<< Config.uintBits) < v.1 ∧ uintRawBits v.1 = v.2.1 ∧ uintHighTotal v.1 = v.2.2)

/-- R280, R282, R74: DECODE_BITS of up to 25 bits completes in either phase and returns the next `nbits` bits of the
raw-bit stream, the first in bit 0; what is left of that stream is the rest; TOTAL_BITS advances by `nbits`, the
reservoir and the back cursor are written, and every other register and both memories are unchanged. -/
def Obligations.DecodeBitsCompletes : Prop :=
  ∀ (s : State) (nbits : BitVec 16), s.fault = false → s.ready = true → s.Inv → nbits.toNat ≤ 25 →
    ∃ (t : State) (r : BitVec 32), exec (.decodeBits nbits) s = .next t ∧
      (∀ j, j < 32 → r.getLsbD j = (decide (j < nbits.toNat) && rawBit s j)) ∧
      (∀ j, rawBit t j = rawBit s (j + nbits.toNat)) ∧
      t = { s with
        endWindow := t.endWindow, endBits := t.endBits, bwdOffset := t.bwdOffset
        totalBits := s.totalBits + BitVec.ofNat 32 nbits.toNat
        responses := s.responses ++ [{ status := .ok, result := r }] } ∧
      sameMemory s t

/-- R280: the reservoir after DECODE_BITS. With enough bits held nothing is read. Else bytes are read while fewer than
25 bits are held: if the buffer has them all, the back cursor and END_BITS count them; if not, the cursor stops at the
buffer's front and END_BITS counts down from the sentinel. -/
def Obligations.DecodeBitsReservoir : Prop :=
  ∀ (s t : State) (nbits : BitVec 16), s.fault = false → s.ready = true → s.Inv → nbits.toNat ≤ 25 →
    exec (.decodeBits nbits) s = .next t → reservoirAfter s nbits.toNat t

/-! ## Memory (spec/20_memory.md) -/

/-- R79: no command changes either memory, whatever it answers. -/
def Obligations.CommandsWriteNoMemory : Prop :=
  ∀ (s t : State) (w : CmdWord), runWord w s = .next t → sameMemory s t

/-- R76: a 16-bit table entry is little-endian, at any address and whatever memory holds. -/
def Obligations.TableEntriesLittleEndian : Prop :=
  ∀ (s : State) (u : EntryUse) (a : Nat), s.tableRead u a 2 = s.tableRead u a 1 ||| (s.tableRead u (a + 1) 1 <<< 8) ∧
    s.tableRead u a 2 = s.tableRead u a 1 + 256 * s.tableRead u (a + 1) 1 ∧ s.tableRead u a 2 < 65536

/-- R71, R82, U12: what the host's writes do. A byte written to a memory is the byte it holds there, and every other byte
of it is as before. A bound buffer replaces the stream memory (log entry 4) and reads as its bytes; nothing is said of
the indices past them. Every register is as before. A byte that differs from what the memory held counts as changed
from then on if READY = 1 (the model's own marks, log entries 5 and 6), and no other mark changes. -/
def Obligations.HostWritesMarkChanges : Prop :=
  (∀ (s : State) (rest : List HostEvent) (i : BitVec 32) (b : Byte), s.memoriesOk → s.input = .writeStream i b :: rest →
    ∃ t, step s = .next t ∧ t.stream.read i.toNat = b ∧ (∀ a, a ≠ i.toNat → t.stream.read a = s.stream.read a) ∧
      (∀ a, a ∈ t.streamChanged ↔ a ∈ s.streamChanged ∨ (s.ready = true ∧ a = i.toNat ∧ s.stream.read a ≠ b)) ∧
      t = { s with stream := t.stream, streamChanged := t.streamChanged, input := rest }) ∧
  (∀ (s : State) (rest : List HostEvent) (i : BitVec 32) (b : Byte), s.memoriesOk → s.input = .writeTable i b :: rest →
    ∃ t, step s = .next t ∧ t.table.read i.toNat = b ∧ (∀ a, a ≠ i.toNat → t.table.read a = s.table.read a) ∧
      (∀ a, a ∈ t.tableChanged ↔ a ∈ s.tableChanged ∨ (s.ready = true ∧ a = i.toNat ∧ s.table.read a ≠ b)) ∧
      t = { s with table := t.table, tableChanged := t.tableChanged, input := rest }) ∧
  (∀ (s : State) (rest : List HostEvent) (bytes : List Byte), s.input = .bindStream bytes :: rest →
    ∃ t, step s = .next t ∧ (∀ i (h : i < bytes.length), t.stream.read i = bytes[i]) ∧
      (∀ a, a ∈ t.streamChanged ↔ a ∈ s.streamChanged ∨ (s.ready = true ∧ t.stream.read a ≠ s.stream.read a)) ∧
      t = { s with stream := t.stream, streamChanged := t.streamChanged, input := rest })

/-- R72, R75, R82, U12: a read of a byte of either memory that has not changed while READY = 1 is what the memory holds;
one of a byte that has is a draw, by command, by cursor or use, and by address (free values, log entries 5 and 6). -/
def Obligations.ChangedBytesReadAsDraws : Prop :=
  ∀ (s : State) (a : Nat),
    (a ∉ s.streamChanged → ∀ c, s.streamRead c a = s.stream.read a) ∧
    (a ∈ s.streamChanged → ∀ c, s.streamRead c a = Config.changedStreamByte s.draws c a) ∧
    (a ∉ s.tableChanged → ∀ u, s.tableByte u a = s.table.read a) ∧
    (a ∈ s.tableChanged → ∀ u, s.tableByte u a = Config.changedTableByte s.draws u a)

/-- R82: a byte counts as changed until the next INIT or reset, whatever the host writes there, and after INIT and reset
none does. (The marks are the model's own, log entries 5 and 6.) -/
def Obligations.ChangesLastUntilInitOrReset : Prop :=
  (∀ s t : State, step s = .next t → (∀ rest, s.input ≠ .reset :: rest) →
    (∀ w rest storage, s.input = .command w :: rest → decode w ≠ .ok (.init storage)) →
    (∀ a, a ∈ s.streamChanged → a ∈ t.streamChanged) ∧ ∀ a, a ∈ s.tableChanged → a ∈ t.tableChanged) ∧
  (∀ (s : State) (rest : List HostEvent), s.input = .reset :: rest →
    ∃ t, step s = .next t ∧ t.streamChanged = [] ∧ t.tableChanged = []) ∧
  (∀ (s : State) (storage : BitVec 32), s.fault = false →
    ∃ t, exec (.init storage) s = .next t ∧ t.streamChanged = [] ∧ t.tableChanged = [])

/-- Both memories stay in their canonical form, and the marks of changed bytes in order, at every step. -/
def Obligations.StepKeepsMemoriesCanonical : Prop :=
  ∀ s t : State, s.memoriesOk → step s = .next t → t.memoriesOk

/-- R39, R37, R38: while power lasts only INIT and reset write STORAGE; between them the two cursors never move back and
never pass STORAGE. -/
def Obligations.CursorsOnlyAdvance : Prop :=
  ∀ s t : State, s.Inv → s.ready = true → step s = .next t → s.resetDue = false →
    (∀ rest, s.input ≠ .powerLoss :: rest) → (∀ rest, s.input ≠ .reset :: rest) →
    (∀ w rest storage, s.input = .command w :: rest → decode w ≠ .ok (.init storage)) →
    t.storage = s.storage ∧ s.fwdOffset.toNat ≤ t.fwdOffset.toNat ∧ t.fwdOffset.toNat ≤ t.storage.toNat ∧
      s.bwdOffset.toNat ≤ t.bwdOffset.toNat ∧ t.bwdOffset.toNat ≤ t.storage.toNat

/-! ## The register port (spec/10_state.md) -/

/-- R50 to R53: what the register port reads at every address: the map, with the low two address bits ignored, STATUS
bit by bit, the constant PARAMS, and 0 where the map has no register. -/
def Obligations.RegisterPortMap : Prop :=
  ∀ (s : State) (addr : BitVec 8),
    (addr.toNat / 4 = 0 → csrRead s addr = s.value) ∧
    (addr.toNat / 4 = 1 → (csrRead s addr).toNat = s.range.toNat) ∧
    (addr.toNat / 4 = 2 → (csrRead s addr).toInt = s.count.toInt) ∧
    (addr.toNat / 4 = 3 → csrRead s addr = s.totalBits) ∧
    (addr.toNat / 4 = 4 → csrRead s addr = s.fwdOffset) ∧
    (addr.toNat / 4 = 5 → csrRead s addr = s.bwdOffset) ∧
    (addr.toNat / 4 = 6 → csrRead s addr = s.storage) ∧
    (addr.toNat / 4 = 7 → csrRead s addr = s.endWindow) ∧
    (addr.toNat / 4 = 8 → (csrRead s addr).toNat = s.endBits.toNat) ∧
    (addr.toNat / 4 = 9 → (csrRead s addr).getLsbD 0 = s.ready ∧ (csrRead s addr).getLsbD 1 = s.pending ∧
      (csrRead s addr).getLsbD 2 = s.error ∧ (csrRead s addr).getLsbD 3 = s.fault ∧
      (csrRead s addr).toNat / 16 % 16 = s.ext.toNat ∧ (csrRead s addr).toNat / 256 = s.cause.toNat) ∧
    (addr.toNat / 4 = 10 → (csrRead s addr).toNat = s.lookupFt.toNat) ∧
    (addr.toNat / 4 = 11 → (csrRead s addr).toNat = s.faultCmd.toNat % 2 ^ 32) ∧
    (addr.toNat / 4 = 12 → (csrRead s addr).toNat = s.faultCmd.toNat / 2 ^ 32) ∧
    (addr.toNat / 4 = 13 → csrRead s addr = 0x40000820) ∧
    (14 ≤ addr.toNat / 4 → csrRead s addr = 0)

/-! ## Whole-machine statements -/

/-- The state after reset meets the invariant, has canonical memories and an empty fault record. -/
def Obligations.ResetMeetsInvariants : Prop :=
  State.reset.Inv ∧ State.reset.memoriesOk ∧ State.reset.faultRecordOk

/-- R49, R35, R41, R43: the invariants of the decoder registers hold after every step from a state in which they hold:
the range is normal and contains the position, the cursors are within the buffer, the bits below the loaded ones are
zero in both windows, the counters are between their legal values, and a pending lookup's scaled total is the largest
that fits the range. (Between a loss of power and reset no register is known, R315.) -/
def Obligations.StepKeepsInvariants : Prop :=
  ∀ s t : State, (s.resetDue = false → s.Inv) → step s = .next t → t.resetDue = false → t.Inv

/-- R150, first half: no response of a command sequence that reads no raw bits can tell a buffer from the same buffer
followed by zero bytes. Both runs start with INIT on their own buffer, from states equal but for the stream. -/
def Obligations.ZeroPaddingInvisible : Prop :=
  ∀ (s s' t : State) (storage padded : BitVec 32) (is : List Instr), s.fault = false →
    s' = { s with stream := s'.stream } → storage.toNat ≤ padded.toNat →
    (∀ i, i < storage.toNat → s'.stream.read i = s.stream.read i) →
    (∀ i, storage.toNat ≤ i → i < padded.toNat → s'.stream.read i = 0) →
    (∀ i ∈ is, i.readsRawBits = false ∧ ∀ n, i ≠ .init n) →
    runInstrs (.init storage :: is) s = some t →
    ∃ t' : State, runInstrs (.init padded :: is) s' = some t' ∧ t'.responses = t.responses

/-- R150, second half: no response of a sequence of DECODE_BITS can tell a buffer from the same buffer preceded by
zero bytes. -/
def Obligations.ZeroPrefixInvisible : Prop :=
  ∀ (s s' t : State) (storage padded : BitVec 32) (widths : List (BitVec 16)), s.fault = false →
    s' = { s with stream := s'.stream } → storage.toNat ≤ padded.toNat →
    (∀ i, i < storage.toNat → s'.stream.read (padded.toNat - storage.toNat + i) = s.stream.read i) →
    (∀ i, i < padded.toNat - storage.toNat → s'.stream.read i = 0) →
    runInstrs (.init storage :: widths.map Instr.decodeBits) s = some t →
    ∃ t' : State, runInstrs (.init padded :: widths.map Instr.decodeBits) s' = some t' ∧
      t'.responses = t.responses

/-- R315: no register survives the removal of power: each holds a free value (log entry 17), a response not accepted is
lost, what is the host's stays, and the block must be reset. Until it is, a word gets one response and every register a
free value again; reset gives the state it always gives. -/
def Obligations.PowerLossForgetsTheRegisters : Prop :=
  (∀ (s : State) (rest : List HostEvent), s.input = .powerLoss :: rest → ∃ t, step s = .next t ∧ t.registersUnknown ∧
    hostPart t = { hostPart s with draws := s.draws + 1, resetDue := true, responses := [], input := rest }) ∧
  (∀ (s : State) (w : CmdWord), s.resetDue = true → ∃ (t : State) (r : Response), runWord w s = .next t ∧
    t.registersUnknown ∧ hostPart t = { hostPart s with draws := s.draws + 1, responses := s.responses ++ [r] }) ∧
  (∀ (s : State) (rest : List HostEvent), s.input = .reset :: rest → ∃ t, step s = .next t ∧ t.resetDue = false ∧
    t = { State.reset with
      stream := s.stream, table := s.table, draws := s.draws, delivered := s.delivered, input := rest })

/-- spec/93 U13, U14, U7: the step stops, under its own name, on the event that the host answers no more, and on no
other event; the model refuses, by name, a table command that could run on a table outside R230 (b), (c) (R239, log
entry 7) and nothing else; a command to which the spec gives a meaning never stops the machine. -/
def Obligations.OnlyAnUnansweringHostStops : Prop :=
  ∀ s : State, (∀ rest, s.input = .neverAnswers :: rest → step s = .fault .hostNeverAnswers) ∧
    ((∀ rest, s.input ≠ .neverAnswers :: rest) → (∃ t, step s = .next t) ∨
      (step s = .refused .nonconformingTable ∧
        ∃ w rest i, s.input = .command w :: rest ∧ decode w = .ok i ∧ s.idleReady ∧ i.operandsInRange ∧
          ¬ s.givesMeaning i)) ∧
    ∀ i : Instr, s.givesMeaning i → ∃ t, exec i s = .next t

/-! ## A table with changed bytes (spec/20_memory.md R82) -/

/-- R82 for a table with changed bytes, each read of which is a draw (the symbol is a free value, log entry 6): a table
command on a table whose last entry reads as 0, and whose unchanged entries neither rise nor lie above the total, either
faults with cause 9 or completes with some symbol below NSYMS whose bounds, as read, pass the check of R233; it is
narrowed to them, and every other register and both memories are unchanged. -/
def Obligations.ChangedTableOutcome : Prop :=
  ∀ (i : Instr) (s : State) (tb n nsyms ft : Nat), i.icdfTable = some (tb, n, nsyms, ft) → i.wellFormed = true →
    s.idleReady → s.Inv → i.operandsInRange → (n = 2 → tb % 2 = 0) → tb + n * nsyms - 1 ≤ 2 ^ 32 - 1 →
    tableEntry (s.tableByte .terminator) tb n (nsyms - 1) = 0 → s.tableInContract tb n nsyms ft →
    exec i s = .next (faulted s 9 (encode i)) ∨
    ∃ (p k sym fl fh : Nat) (t : State), isLookup s.range.toNat s.position ft p k ∧ sym < nsyms ∧
      (sym = 0 ∨ tableEntry (s.tableByte .lowBound) tb n (sym - 1) ≤ ft) ∧
      fl = symbolLow (tableEntry (s.tableByte .lowBound) tb n) ft sym ∧
      fh = ft - tableEntry (s.tableByte .highBound) tb n sym ∧ fl ≤ p ∧ p < fh ∧
      exec i s = .next t ∧
      narrowed s (scaledBound s.range.toNat ft k fl) (scaledBound s.range.toNat ft k fh) t ∧
      t = { s with
        value := t.value, range := t.range, count := t.count, fwdOffset := t.fwdOffset, totalBits := t.totalBits
        responses := s.responses ++ [{ status := .ok, result := BitVec.ofNat 32 sym }] } ∧
      sameMemory s t

end
end

