-- ==== Sys2Proof/Laws/State.lean ====
section
/-! SUPPORT. For each named update of the state, what it makes of each field; all true by definition. -/

namespace Sys2Proof.Machine

/-! ## `State.respond` -/

@[simp] theorem State.respond_value (s : State) (c : StatusCode) (r : BitVec 32) :
    (s.respond c r).value = s.value := rfl
@[simp] theorem State.respond_range (s : State) (c : StatusCode) (r : BitVec 32) :
    (s.respond c r).range = s.range := rfl
@[simp] theorem State.respond_count (s : State) (c : StatusCode) (r : BitVec 32) :
    (s.respond c r).count = s.count := rfl
@[simp] theorem State.respond_totalBits (s : State) (c : StatusCode) (r : BitVec 32) :
    (s.respond c r).totalBits = s.totalBits := rfl
@[simp] theorem State.respond_fwdOffset (s : State) (c : StatusCode) (r : BitVec 32) :
    (s.respond c r).fwdOffset = s.fwdOffset := rfl
@[simp] theorem State.respond_bwdOffset (s : State) (c : StatusCode) (r : BitVec 32) :
    (s.respond c r).bwdOffset = s.bwdOffset := rfl
@[simp] theorem State.respond_storage (s : State) (c : StatusCode) (r : BitVec 32) :
    (s.respond c r).storage = s.storage := rfl
@[simp] theorem State.respond_endWindow (s : State) (c : StatusCode) (r : BitVec 32) :
    (s.respond c r).endWindow = s.endWindow := rfl
@[simp] theorem State.respond_endBits (s : State) (c : StatusCode) (r : BitVec 32) :
    (s.respond c r).endBits = s.endBits := rfl
@[simp] theorem State.respond_ext (s : State) (c : StatusCode) (r : BitVec 32) : (s.respond c r).ext = s.ext := rfl
@[simp] theorem State.respond_lookupFt (s : State) (c : StatusCode) (r : BitVec 32) :
    (s.respond c r).lookupFt = s.lookupFt := rfl
@[simp] theorem State.respond_pending (s : State) (c : StatusCode) (r : BitVec 32) :
    (s.respond c r).pending = s.pending := rfl
@[simp] theorem State.respond_ready (s : State) (c : StatusCode) (r : BitVec 32) :
    (s.respond c r).ready = s.ready := rfl
@[simp] theorem State.respond_error (s : State) (c : StatusCode) (r : BitVec 32) :
    (s.respond c r).error = s.error := rfl
@[simp] theorem State.respond_fault (s : State) (c : StatusCode) (r : BitVec 32) :
    (s.respond c r).fault = s.fault := rfl
@[simp] theorem State.respond_cause (s : State) (c : StatusCode) (r : BitVec 32) :
    (s.respond c r).cause = s.cause := rfl
@[simp] theorem State.respond_faultCmd (s : State) (c : StatusCode) (r : BitVec 32) :
    (s.respond c r).faultCmd = s.faultCmd := rfl
@[simp] theorem State.respond_stream (s : State) (c : StatusCode) (r : BitVec 32) :
    (s.respond c r).stream = s.stream := rfl
@[simp] theorem State.respond_streamChanged (s : State) (c : StatusCode) (r : BitVec 32) :
    (s.respond c r).streamChanged = s.streamChanged := rfl
@[simp] theorem State.respond_table (s : State) (c : StatusCode) (r : BitVec 32) :
    (s.respond c r).table = s.table := rfl
@[simp] theorem State.respond_tableChanged (s : State) (c : StatusCode) (r : BitVec 32) :
    (s.respond c r).tableChanged = s.tableChanged := rfl
@[simp] theorem State.respond_draws (s : State) (c : StatusCode) (r : BitVec 32) :
    (s.respond c r).draws = s.draws := rfl
@[simp] theorem State.respond_resetDue (s : State) (c : StatusCode) (r : BitVec 32) :
    (s.respond c r).resetDue = s.resetDue := rfl
@[simp] theorem State.respond_responses (s : State) (c : StatusCode) (r : BitVec 32) :
    (s.respond c r).responses = s.responses ++ [{ status := c, result := r }] := rfl
@[simp] theorem State.respond_delivered (s : State) (c : StatusCode) (r : BitVec 32) :
    (s.respond c r).delivered = s.delivered := rfl
@[simp] theorem State.respond_input (s : State) (c : StatusCode) (r : BitVec 32) :
    (s.respond c r).input = s.input := rfl

/-! ## `State.refuseWord` -/

@[simp] theorem State.refuseWord_value (s : State) : (s.refuseWord).value = s.value := rfl
@[simp] theorem State.refuseWord_range (s : State) : (s.refuseWord).range = s.range := rfl
@[simp] theorem State.refuseWord_count (s : State) : (s.refuseWord).count = s.count := rfl
@[simp] theorem State.refuseWord_totalBits (s : State) : (s.refuseWord).totalBits = s.totalBits := rfl
@[simp] theorem State.refuseWord_fwdOffset (s : State) : (s.refuseWord).fwdOffset = s.fwdOffset := rfl
@[simp] theorem State.refuseWord_bwdOffset (s : State) : (s.refuseWord).bwdOffset = s.bwdOffset := rfl
@[simp] theorem State.refuseWord_storage (s : State) : (s.refuseWord).storage = s.storage := rfl
@[simp] theorem State.refuseWord_endWindow (s : State) : (s.refuseWord).endWindow = s.endWindow := rfl
@[simp] theorem State.refuseWord_endBits (s : State) : (s.refuseWord).endBits = s.endBits := rfl
@[simp] theorem State.refuseWord_ext (s : State) : (s.refuseWord).ext = s.ext := rfl
@[simp] theorem State.refuseWord_lookupFt (s : State) : (s.refuseWord).lookupFt = s.lookupFt := rfl
@[simp] theorem State.refuseWord_pending (s : State) : (s.refuseWord).pending = s.pending := rfl
@[simp] theorem State.refuseWord_ready (s : State) : (s.refuseWord).ready = s.ready := rfl
@[simp] theorem State.refuseWord_error (s : State) : (s.refuseWord).error = s.error := rfl
@[simp] theorem State.refuseWord_fault (s : State) : (s.refuseWord).fault = s.fault := rfl
@[simp] theorem State.refuseWord_cause (s : State) : (s.refuseWord).cause = s.cause := rfl
@[simp] theorem State.refuseWord_faultCmd (s : State) : (s.refuseWord).faultCmd = s.faultCmd := rfl
@[simp] theorem State.refuseWord_stream (s : State) : (s.refuseWord).stream = s.stream := rfl
@[simp] theorem State.refuseWord_streamChanged (s : State) : (s.refuseWord).streamChanged = s.streamChanged := rfl
@[simp] theorem State.refuseWord_table (s : State) : (s.refuseWord).table = s.table := rfl
@[simp] theorem State.refuseWord_tableChanged (s : State) : (s.refuseWord).tableChanged = s.tableChanged := rfl
@[simp] theorem State.refuseWord_draws (s : State) : (s.refuseWord).draws = s.draws := rfl
@[simp] theorem State.refuseWord_resetDue (s : State) : (s.refuseWord).resetDue = s.resetDue := rfl
@[simp] theorem State.refuseWord_responses (s : State) :
    (s.refuseWord).responses = s.responses ++ [{ status := .refused, result := 0 }] := rfl
@[simp] theorem State.refuseWord_delivered (s : State) : (s.refuseWord).delivered = s.delivered := rfl
@[simp] theorem State.refuseWord_input (s : State) : (s.refuseWord).input = s.input := rfl

/-! ## `State.enterFault` -/

@[simp] theorem State.enterFault_value (s : State) (c : Cause) (w : CmdWord) :
    (s.enterFault c w).value = s.value := rfl
@[simp] theorem State.enterFault_range (s : State) (c : Cause) (w : CmdWord) :
    (s.enterFault c w).range = s.range := rfl
@[simp] theorem State.enterFault_count (s : State) (c : Cause) (w : CmdWord) :
    (s.enterFault c w).count = s.count := rfl
@[simp] theorem State.enterFault_totalBits (s : State) (c : Cause) (w : CmdWord) :
    (s.enterFault c w).totalBits = s.totalBits := rfl
@[simp] theorem State.enterFault_fwdOffset (s : State) (c : Cause) (w : CmdWord) :
    (s.enterFault c w).fwdOffset = s.fwdOffset := rfl
@[simp] theorem State.enterFault_bwdOffset (s : State) (c : Cause) (w : CmdWord) :
    (s.enterFault c w).bwdOffset = s.bwdOffset := rfl
@[simp] theorem State.enterFault_storage (s : State) (c : Cause) (w : CmdWord) :
    (s.enterFault c w).storage = s.storage := rfl
@[simp] theorem State.enterFault_endWindow (s : State) (c : Cause) (w : CmdWord) :
    (s.enterFault c w).endWindow = s.endWindow := rfl
@[simp] theorem State.enterFault_endBits (s : State) (c : Cause) (w : CmdWord) :
    (s.enterFault c w).endBits = s.endBits := rfl
@[simp] theorem State.enterFault_ext (s : State) (c : Cause) (w : CmdWord) : (s.enterFault c w).ext = s.ext := rfl
@[simp] theorem State.enterFault_lookupFt (s : State) (c : Cause) (w : CmdWord) :
    (s.enterFault c w).lookupFt = s.lookupFt := rfl
@[simp] theorem State.enterFault_pending (s : State) (c : Cause) (w : CmdWord) :
    (s.enterFault c w).pending = s.pending := rfl
@[simp] theorem State.enterFault_ready (s : State) (c : Cause) (w : CmdWord) :
    (s.enterFault c w).ready = s.ready := rfl
@[simp] theorem State.enterFault_error (s : State) (c : Cause) (w : CmdWord) :
    (s.enterFault c w).error = s.error := rfl
@[simp] theorem State.enterFault_fault (s : State) (c : Cause) (w : CmdWord) : (s.enterFault c w).fault = true := rfl
@[simp] theorem State.enterFault_cause (s : State) (c : Cause) (w : CmdWord) :
    (s.enterFault c w).cause = causeCode c := rfl
@[simp] theorem State.enterFault_faultCmd (s : State) (c : Cause) (w : CmdWord) :
    (s.enterFault c w).faultCmd = w := rfl
@[simp] theorem State.enterFault_stream (s : State) (c : Cause) (w : CmdWord) :
    (s.enterFault c w).stream = s.stream := rfl
@[simp] theorem State.enterFault_streamChanged (s : State) (c : Cause) (w : CmdWord) :
    (s.enterFault c w).streamChanged = s.streamChanged := rfl
@[simp] theorem State.enterFault_table (s : State) (c : Cause) (w : CmdWord) :
    (s.enterFault c w).table = s.table := rfl
@[simp] theorem State.enterFault_tableChanged (s : State) (c : Cause) (w : CmdWord) :
    (s.enterFault c w).tableChanged = s.tableChanged := rfl
@[simp] theorem State.enterFault_draws (s : State) (c : Cause) (w : CmdWord) :
    (s.enterFault c w).draws = s.draws := rfl
@[simp] theorem State.enterFault_resetDue (s : State) (c : Cause) (w : CmdWord) :
    (s.enterFault c w).resetDue = s.resetDue := rfl
@[simp] theorem State.enterFault_responses (s : State) (c : Cause) (w : CmdWord) :
    (s.enterFault c w).responses = s.responses ++ [{ status := .fault, result := 0 }] := rfl
@[simp] theorem State.enterFault_delivered (s : State) (c : Cause) (w : CmdWord) :
    (s.enterFault c w).delivered = s.delivered := rfl
@[simp] theorem State.enterFault_input (s : State) (c : Cause) (w : CmdWord) :
    (s.enterFault c w).input = s.input := rfl

/-! ## `State.setWindow` -/

@[simp] theorem State.setWindow_value (s : State) (w : Nat × Int × Nat) :
    (s.setWindow w).value = BitVec.ofNat 32 w.1 := rfl
@[simp] theorem State.setWindow_range (s : State) (w : Nat × Int × Nat) : (s.setWindow w).range = s.range := rfl
@[simp] theorem State.setWindow_count (s : State) (w : Nat × Int × Nat) :
    (s.setWindow w).count = BitVec.ofInt 16 w.2.1 := rfl
@[simp] theorem State.setWindow_totalBits (s : State) (w : Nat × Int × Nat) :
    (s.setWindow w).totalBits = s.totalBits := rfl
@[simp] theorem State.setWindow_fwdOffset (s : State) (w : Nat × Int × Nat) :
    (s.setWindow w).fwdOffset = BitVec.ofNat 32 w.2.2 := rfl
@[simp] theorem State.setWindow_bwdOffset (s : State) (w : Nat × Int × Nat) :
    (s.setWindow w).bwdOffset = s.bwdOffset := rfl
@[simp] theorem State.setWindow_storage (s : State) (w : Nat × Int × Nat) : (s.setWindow w).storage = s.storage := rfl
@[simp] theorem State.setWindow_endWindow (s : State) (w : Nat × Int × Nat) :
    (s.setWindow w).endWindow = s.endWindow := rfl
@[simp] theorem State.setWindow_endBits (s : State) (w : Nat × Int × Nat) : (s.setWindow w).endBits = s.endBits := rfl
@[simp] theorem State.setWindow_ext (s : State) (w : Nat × Int × Nat) : (s.setWindow w).ext = s.ext := rfl
@[simp] theorem State.setWindow_lookupFt (s : State) (w : Nat × Int × Nat) :
    (s.setWindow w).lookupFt = s.lookupFt := rfl
@[simp] theorem State.setWindow_pending (s : State) (w : Nat × Int × Nat) : (s.setWindow w).pending = s.pending := rfl
@[simp] theorem State.setWindow_ready (s : State) (w : Nat × Int × Nat) : (s.setWindow w).ready = s.ready := rfl
@[simp] theorem State.setWindow_error (s : State) (w : Nat × Int × Nat) : (s.setWindow w).error = s.error := rfl
@[simp] theorem State.setWindow_fault (s : State) (w : Nat × Int × Nat) : (s.setWindow w).fault = s.fault := rfl
@[simp] theorem State.setWindow_cause (s : State) (w : Nat × Int × Nat) : (s.setWindow w).cause = s.cause := rfl
@[simp] theorem State.setWindow_faultCmd (s : State) (w : Nat × Int × Nat) :
    (s.setWindow w).faultCmd = s.faultCmd := rfl
@[simp] theorem State.setWindow_stream (s : State) (w : Nat × Int × Nat) : (s.setWindow w).stream = s.stream := rfl
@[simp] theorem State.setWindow_streamChanged (s : State) (w : Nat × Int × Nat) :
    (s.setWindow w).streamChanged = s.streamChanged := rfl
@[simp] theorem State.setWindow_table (s : State) (w : Nat × Int × Nat) : (s.setWindow w).table = s.table := rfl
@[simp] theorem State.setWindow_tableChanged (s : State) (w : Nat × Int × Nat) :
    (s.setWindow w).tableChanged = s.tableChanged := rfl
@[simp] theorem State.setWindow_draws (s : State) (w : Nat × Int × Nat) : (s.setWindow w).draws = s.draws := rfl
@[simp] theorem State.setWindow_resetDue (s : State) (w : Nat × Int × Nat) :
    (s.setWindow w).resetDue = s.resetDue := rfl
@[simp] theorem State.setWindow_responses (s : State) (w : Nat × Int × Nat) :
    (s.setWindow w).responses = s.responses := rfl
@[simp] theorem State.setWindow_delivered (s : State) (w : Nat × Int × Nat) :
    (s.setWindow w).delivered = s.delivered := rfl
@[simp] theorem State.setWindow_input (s : State) (w : Nat × Int × Nat) : (s.setWindow w).input = s.input := rfl

/-! ## `State.setRange` -/

@[simp] theorem State.setRange_value (s : State) (rng d : Nat) : (s.setRange rng d).value = s.value := rfl
@[simp] theorem State.setRange_range (s : State) (rng d : Nat) : (s.setRange rng d).range = BitVec.ofNat 16 rng := rfl
@[simp] theorem State.setRange_count (s : State) (rng d : Nat) : (s.setRange rng d).count = s.count := rfl
@[simp] theorem State.setRange_totalBits (s : State) (rng d : Nat) :
    (s.setRange rng d).totalBits = s.totalBits + BitVec.ofNat 32 d := rfl
@[simp] theorem State.setRange_fwdOffset (s : State) (rng d : Nat) : (s.setRange rng d).fwdOffset = s.fwdOffset := rfl
@[simp] theorem State.setRange_bwdOffset (s : State) (rng d : Nat) : (s.setRange rng d).bwdOffset = s.bwdOffset := rfl
@[simp] theorem State.setRange_storage (s : State) (rng d : Nat) : (s.setRange rng d).storage = s.storage := rfl
@[simp] theorem State.setRange_endWindow (s : State) (rng d : Nat) : (s.setRange rng d).endWindow = s.endWindow := rfl
@[simp] theorem State.setRange_endBits (s : State) (rng d : Nat) : (s.setRange rng d).endBits = s.endBits := rfl
@[simp] theorem State.setRange_ext (s : State) (rng d : Nat) : (s.setRange rng d).ext = s.ext := rfl
@[simp] theorem State.setRange_lookupFt (s : State) (rng d : Nat) : (s.setRange rng d).lookupFt = s.lookupFt := rfl
@[simp] theorem State.setRange_pending (s : State) (rng d : Nat) : (s.setRange rng d).pending = s.pending := rfl
@[simp] theorem State.setRange_ready (s : State) (rng d : Nat) : (s.setRange rng d).ready = s.ready := rfl
@[simp] theorem State.setRange_error (s : State) (rng d : Nat) : (s.setRange rng d).error = s.error := rfl
@[simp] theorem State.setRange_fault (s : State) (rng d : Nat) : (s.setRange rng d).fault = s.fault := rfl
@[simp] theorem State.setRange_cause (s : State) (rng d : Nat) : (s.setRange rng d).cause = s.cause := rfl
@[simp] theorem State.setRange_faultCmd (s : State) (rng d : Nat) : (s.setRange rng d).faultCmd = s.faultCmd := rfl
@[simp] theorem State.setRange_stream (s : State) (rng d : Nat) : (s.setRange rng d).stream = s.stream := rfl
@[simp] theorem State.setRange_streamChanged (s : State) (rng d : Nat) :
    (s.setRange rng d).streamChanged = s.streamChanged := rfl
@[simp] theorem State.setRange_table (s : State) (rng d : Nat) : (s.setRange rng d).table = s.table := rfl
@[simp] theorem State.setRange_tableChanged (s : State) (rng d : Nat) :
    (s.setRange rng d).tableChanged = s.tableChanged := rfl
@[simp] theorem State.setRange_draws (s : State) (rng d : Nat) : (s.setRange rng d).draws = s.draws := rfl
@[simp] theorem State.setRange_resetDue (s : State) (rng d : Nat) : (s.setRange rng d).resetDue = s.resetDue := rfl
@[simp] theorem State.setRange_responses (s : State) (rng d : Nat) : (s.setRange rng d).responses = s.responses := rfl
@[simp] theorem State.setRange_delivered (s : State) (rng d : Nat) : (s.setRange rng d).delivered = s.delivered := rfl
@[simp] theorem State.setRange_input (s : State) (rng d : Nat) : (s.setRange rng d).input = s.input := rfl

/-! ## `State.renormalize` -/

@[simp] theorem State.renormalize_range (s : State) (val rng : Nat) :
    (s.renormalize val rng).range = BitVec.ofNat 16 (rng <<< renormShift rng) := rfl
@[simp] theorem State.renormalize_totalBits (s : State) (val rng : Nat) :
    (s.renormalize val rng).totalBits = s.totalBits + BitVec.ofNat 32 (renormShift rng) := rfl
@[simp] theorem State.renormalize_bwdOffset (s : State) (val rng : Nat) :
    (s.renormalize val rng).bwdOffset = s.bwdOffset := rfl
@[simp] theorem State.renormalize_storage (s : State) (val rng : Nat) :
    (s.renormalize val rng).storage = s.storage := rfl
@[simp] theorem State.renormalize_endWindow (s : State) (val rng : Nat) :
    (s.renormalize val rng).endWindow = s.endWindow := rfl
@[simp] theorem State.renormalize_endBits (s : State) (val rng : Nat) :
    (s.renormalize val rng).endBits = s.endBits := rfl
@[simp] theorem State.renormalize_ext (s : State) (val rng : Nat) : (s.renormalize val rng).ext = s.ext := rfl
@[simp] theorem State.renormalize_lookupFt (s : State) (val rng : Nat) :
    (s.renormalize val rng).lookupFt = s.lookupFt := rfl
@[simp] theorem State.renormalize_pending (s : State) (val rng : Nat) :
    (s.renormalize val rng).pending = s.pending := rfl
@[simp] theorem State.renormalize_ready (s : State) (val rng : Nat) : (s.renormalize val rng).ready = s.ready := rfl
@[simp] theorem State.renormalize_error (s : State) (val rng : Nat) : (s.renormalize val rng).error = s.error := rfl
@[simp] theorem State.renormalize_fault (s : State) (val rng : Nat) : (s.renormalize val rng).fault = s.fault := rfl
@[simp] theorem State.renormalize_cause (s : State) (val rng : Nat) : (s.renormalize val rng).cause = s.cause := rfl
@[simp] theorem State.renormalize_faultCmd (s : State) (val rng : Nat) :
    (s.renormalize val rng).faultCmd = s.faultCmd := rfl
@[simp] theorem State.renormalize_stream (s : State) (val rng : Nat) :
    (s.renormalize val rng).stream = s.stream := rfl
@[simp] theorem State.renormalize_streamChanged (s : State) (val rng : Nat) :
    (s.renormalize val rng).streamChanged = s.streamChanged := rfl
@[simp] theorem State.renormalize_table (s : State) (val rng : Nat) : (s.renormalize val rng).table = s.table := rfl
@[simp] theorem State.renormalize_tableChanged (s : State) (val rng : Nat) :
    (s.renormalize val rng).tableChanged = s.tableChanged := rfl
@[simp] theorem State.renormalize_draws (s : State) (val rng : Nat) : (s.renormalize val rng).draws = s.draws := rfl
@[simp] theorem State.renormalize_resetDue (s : State) (val rng : Nat) :
    (s.renormalize val rng).resetDue = s.resetDue := rfl
@[simp] theorem State.renormalize_responses (s : State) (val rng : Nat) :
    (s.renormalize val rng).responses = s.responses := rfl
@[simp] theorem State.renormalize_delivered (s : State) (val rng : Nat) :
    (s.renormalize val rng).delivered = s.delivered := rfl
@[simp] theorem State.renormalize_input (s : State) (val rng : Nat) : (s.renormalize val rng).input = s.input := rfl

/-! ## `State.narrowTo` -/

@[simp] theorem State.narrowTo_range (s : State) (uv : Nat × Nat) :
    (s.narrowTo uv).range = BitVec.ofNat 16 ((uv.2 - uv.1) <<< renormShift (uv.2 - uv.1)) := rfl
@[simp] theorem State.narrowTo_totalBits (s : State) (uv : Nat × Nat) :
    (s.narrowTo uv).totalBits = s.totalBits + BitVec.ofNat 32 (renormShift (uv.2 - uv.1)) := rfl
@[simp] theorem State.narrowTo_bwdOffset (s : State) (uv : Nat × Nat) : (s.narrowTo uv).bwdOffset = s.bwdOffset := rfl
@[simp] theorem State.narrowTo_storage (s : State) (uv : Nat × Nat) : (s.narrowTo uv).storage = s.storage := rfl
@[simp] theorem State.narrowTo_endWindow (s : State) (uv : Nat × Nat) : (s.narrowTo uv).endWindow = s.endWindow := rfl
@[simp] theorem State.narrowTo_endBits (s : State) (uv : Nat × Nat) : (s.narrowTo uv).endBits = s.endBits := rfl
@[simp] theorem State.narrowTo_ext (s : State) (uv : Nat × Nat) : (s.narrowTo uv).ext = s.ext := rfl
@[simp] theorem State.narrowTo_lookupFt (s : State) (uv : Nat × Nat) : (s.narrowTo uv).lookupFt = s.lookupFt := rfl
@[simp] theorem State.narrowTo_pending (s : State) (uv : Nat × Nat) : (s.narrowTo uv).pending = s.pending := rfl
@[simp] theorem State.narrowTo_ready (s : State) (uv : Nat × Nat) : (s.narrowTo uv).ready = s.ready := rfl
@[simp] theorem State.narrowTo_error (s : State) (uv : Nat × Nat) : (s.narrowTo uv).error = s.error := rfl
@[simp] theorem State.narrowTo_fault (s : State) (uv : Nat × Nat) : (s.narrowTo uv).fault = s.fault := rfl
@[simp] theorem State.narrowTo_cause (s : State) (uv : Nat × Nat) : (s.narrowTo uv).cause = s.cause := rfl
@[simp] theorem State.narrowTo_faultCmd (s : State) (uv : Nat × Nat) : (s.narrowTo uv).faultCmd = s.faultCmd := rfl
@[simp] theorem State.narrowTo_stream (s : State) (uv : Nat × Nat) : (s.narrowTo uv).stream = s.stream := rfl
@[simp] theorem State.narrowTo_streamChanged (s : State) (uv : Nat × Nat) :
    (s.narrowTo uv).streamChanged = s.streamChanged := rfl
@[simp] theorem State.narrowTo_table (s : State) (uv : Nat × Nat) : (s.narrowTo uv).table = s.table := rfl
@[simp] theorem State.narrowTo_tableChanged (s : State) (uv : Nat × Nat) :
    (s.narrowTo uv).tableChanged = s.tableChanged := rfl
@[simp] theorem State.narrowTo_draws (s : State) (uv : Nat × Nat) : (s.narrowTo uv).draws = s.draws := rfl
@[simp] theorem State.narrowTo_resetDue (s : State) (uv : Nat × Nat) : (s.narrowTo uv).resetDue = s.resetDue := rfl
@[simp] theorem State.narrowTo_responses (s : State) (uv : Nat × Nat) : (s.narrowTo uv).responses = s.responses := rfl
@[simp] theorem State.narrowTo_delivered (s : State) (uv : Nat × Nat) : (s.narrowTo uv).delivered = s.delivered := rfl
@[simp] theorem State.narrowTo_input (s : State) (uv : Nat × Nat) : (s.narrowTo uv).input = s.input := rfl

/-! ## `State.takeRawBits` -/

@[simp] theorem State.takeRawBits_value (s : State) (n : Nat) (r : Nat × Nat × Nat) :
    (s.takeRawBits n r).value = s.value := rfl
@[simp] theorem State.takeRawBits_range (s : State) (n : Nat) (r : Nat × Nat × Nat) :
    (s.takeRawBits n r).range = s.range := rfl
@[simp] theorem State.takeRawBits_count (s : State) (n : Nat) (r : Nat × Nat × Nat) :
    (s.takeRawBits n r).count = s.count := rfl
@[simp] theorem State.takeRawBits_totalBits (s : State) (n : Nat) (r : Nat × Nat × Nat) :
    (s.takeRawBits n r).totalBits = s.totalBits + BitVec.ofNat 32 n := rfl
@[simp] theorem State.takeRawBits_fwdOffset (s : State) (n : Nat) (r : Nat × Nat × Nat) :
    (s.takeRawBits n r).fwdOffset = s.fwdOffset := rfl
@[simp] theorem State.takeRawBits_bwdOffset (s : State) (n : Nat) (r : Nat × Nat × Nat) :
    (s.takeRawBits n r).bwdOffset = BitVec.ofNat 32 r.2.2 := rfl
@[simp] theorem State.takeRawBits_storage (s : State) (n : Nat) (r : Nat × Nat × Nat) :
    (s.takeRawBits n r).storage = s.storage := rfl
@[simp] theorem State.takeRawBits_endWindow (s : State) (n : Nat) (r : Nat × Nat × Nat) :
    (s.takeRawBits n r).endWindow = BitVec.ofNat 32 (r.1 >>> n) := rfl
@[simp] theorem State.takeRawBits_endBits (s : State) (n : Nat) (r : Nat × Nat × Nat) :
    (s.takeRawBits n r).endBits = BitVec.ofNat 16 (r.2.1 - n) := rfl
@[simp] theorem State.takeRawBits_ext (s : State) (n : Nat) (r : Nat × Nat × Nat) :
    (s.takeRawBits n r).ext = s.ext := rfl
@[simp] theorem State.takeRawBits_lookupFt (s : State) (n : Nat) (r : Nat × Nat × Nat) :
    (s.takeRawBits n r).lookupFt = s.lookupFt := rfl
@[simp] theorem State.takeRawBits_pending (s : State) (n : Nat) (r : Nat × Nat × Nat) :
    (s.takeRawBits n r).pending = s.pending := rfl
@[simp] theorem State.takeRawBits_ready (s : State) (n : Nat) (r : Nat × Nat × Nat) :
    (s.takeRawBits n r).ready = s.ready := rfl
@[simp] theorem State.takeRawBits_error (s : State) (n : Nat) (r : Nat × Nat × Nat) :
    (s.takeRawBits n r).error = s.error := rfl
@[simp] theorem State.takeRawBits_fault (s : State) (n : Nat) (r : Nat × Nat × Nat) :
    (s.takeRawBits n r).fault = s.fault := rfl
@[simp] theorem State.takeRawBits_cause (s : State) (n : Nat) (r : Nat × Nat × Nat) :
    (s.takeRawBits n r).cause = s.cause := rfl
@[simp] theorem State.takeRawBits_faultCmd (s : State) (n : Nat) (r : Nat × Nat × Nat) :
    (s.takeRawBits n r).faultCmd = s.faultCmd := rfl
@[simp] theorem State.takeRawBits_stream (s : State) (n : Nat) (r : Nat × Nat × Nat) :
    (s.takeRawBits n r).stream = s.stream := rfl
@[simp] theorem State.takeRawBits_streamChanged (s : State) (n : Nat) (r : Nat × Nat × Nat) :
    (s.takeRawBits n r).streamChanged = s.streamChanged := rfl
@[simp] theorem State.takeRawBits_table (s : State) (n : Nat) (r : Nat × Nat × Nat) :
    (s.takeRawBits n r).table = s.table := rfl
@[simp] theorem State.takeRawBits_tableChanged (s : State) (n : Nat) (r : Nat × Nat × Nat) :
    (s.takeRawBits n r).tableChanged = s.tableChanged := rfl
@[simp] theorem State.takeRawBits_draws (s : State) (n : Nat) (r : Nat × Nat × Nat) :
    (s.takeRawBits n r).draws = s.draws := rfl
@[simp] theorem State.takeRawBits_resetDue (s : State) (n : Nat) (r : Nat × Nat × Nat) :
    (s.takeRawBits n r).resetDue = s.resetDue := rfl
@[simp] theorem State.takeRawBits_responses (s : State) (n : Nat) (r : Nat × Nat × Nat) :
    (s.takeRawBits n r).responses = s.responses := rfl
@[simp] theorem State.takeRawBits_delivered (s : State) (n : Nat) (r : Nat × Nat × Nat) :
    (s.takeRawBits n r).delivered = s.delivered := rfl
@[simp] theorem State.takeRawBits_input (s : State) (n : Nat) (r : Nat × Nat × Nat) :
    (s.takeRawBits n r).input = s.input := rfl

/-! ## `State.latchLookup` -/

@[simp] theorem State.latchLookup_value (s : State) (k ft : Nat) : (s.latchLookup k ft).value = s.value := rfl
@[simp] theorem State.latchLookup_range (s : State) (k ft : Nat) : (s.latchLookup k ft).range = s.range := rfl
@[simp] theorem State.latchLookup_count (s : State) (k ft : Nat) : (s.latchLookup k ft).count = s.count := rfl
@[simp] theorem State.latchLookup_totalBits (s : State) (k ft : Nat) :
    (s.latchLookup k ft).totalBits = s.totalBits := rfl
@[simp] theorem State.latchLookup_fwdOffset (s : State) (k ft : Nat) :
    (s.latchLookup k ft).fwdOffset = s.fwdOffset := rfl
@[simp] theorem State.latchLookup_bwdOffset (s : State) (k ft : Nat) :
    (s.latchLookup k ft).bwdOffset = s.bwdOffset := rfl
@[simp] theorem State.latchLookup_storage (s : State) (k ft : Nat) : (s.latchLookup k ft).storage = s.storage := rfl
@[simp] theorem State.latchLookup_endWindow (s : State) (k ft : Nat) :
    (s.latchLookup k ft).endWindow = s.endWindow := rfl
@[simp] theorem State.latchLookup_endBits (s : State) (k ft : Nat) : (s.latchLookup k ft).endBits = s.endBits := rfl
@[simp] theorem State.latchLookup_ext (s : State) (k ft : Nat) : (s.latchLookup k ft).ext = BitVec.ofNat 4 k := rfl
@[simp] theorem State.latchLookup_lookupFt (s : State) (k ft : Nat) :
    (s.latchLookup k ft).lookupFt = BitVec.ofNat 16 ft := rfl
@[simp] theorem State.latchLookup_pending (s : State) (k ft : Nat) : (s.latchLookup k ft).pending = true := rfl
@[simp] theorem State.latchLookup_ready (s : State) (k ft : Nat) : (s.latchLookup k ft).ready = s.ready := rfl
@[simp] theorem State.latchLookup_error (s : State) (k ft : Nat) : (s.latchLookup k ft).error = s.error := rfl
@[simp] theorem State.latchLookup_fault (s : State) (k ft : Nat) : (s.latchLookup k ft).fault = s.fault := rfl
@[simp] theorem State.latchLookup_cause (s : State) (k ft : Nat) : (s.latchLookup k ft).cause = s.cause := rfl
@[simp] theorem State.latchLookup_faultCmd (s : State) (k ft : Nat) :
    (s.latchLookup k ft).faultCmd = s.faultCmd := rfl
@[simp] theorem State.latchLookup_stream (s : State) (k ft : Nat) : (s.latchLookup k ft).stream = s.stream := rfl
@[simp] theorem State.latchLookup_streamChanged (s : State) (k ft : Nat) :
    (s.latchLookup k ft).streamChanged = s.streamChanged := rfl
@[simp] theorem State.latchLookup_table (s : State) (k ft : Nat) : (s.latchLookup k ft).table = s.table := rfl
@[simp] theorem State.latchLookup_tableChanged (s : State) (k ft : Nat) :
    (s.latchLookup k ft).tableChanged = s.tableChanged := rfl
@[simp] theorem State.latchLookup_draws (s : State) (k ft : Nat) : (s.latchLookup k ft).draws = s.draws := rfl
@[simp] theorem State.latchLookup_resetDue (s : State) (k ft : Nat) :
    (s.latchLookup k ft).resetDue = s.resetDue := rfl
@[simp] theorem State.latchLookup_responses (s : State) (k ft : Nat) :
    (s.latchLookup k ft).responses = s.responses := rfl
@[simp] theorem State.latchLookup_delivered (s : State) (k ft : Nat) :
    (s.latchLookup k ft).delivered = s.delivered := rfl
@[simp] theorem State.latchLookup_input (s : State) (k ft : Nat) : (s.latchLookup k ft).input = s.input := rfl

/-! ## `State.clearPending` -/

@[simp] theorem State.clearPending_value (s : State) : (s.clearPending).value = s.value := rfl
@[simp] theorem State.clearPending_range (s : State) : (s.clearPending).range = s.range := rfl
@[simp] theorem State.clearPending_count (s : State) : (s.clearPending).count = s.count := rfl
@[simp] theorem State.clearPending_totalBits (s : State) : (s.clearPending).totalBits = s.totalBits := rfl
@[simp] theorem State.clearPending_fwdOffset (s : State) : (s.clearPending).fwdOffset = s.fwdOffset := rfl
@[simp] theorem State.clearPending_bwdOffset (s : State) : (s.clearPending).bwdOffset = s.bwdOffset := rfl
@[simp] theorem State.clearPending_storage (s : State) : (s.clearPending).storage = s.storage := rfl
@[simp] theorem State.clearPending_endWindow (s : State) : (s.clearPending).endWindow = s.endWindow := rfl
@[simp] theorem State.clearPending_endBits (s : State) : (s.clearPending).endBits = s.endBits := rfl
@[simp] theorem State.clearPending_ext (s : State) : (s.clearPending).ext = s.ext := rfl
@[simp] theorem State.clearPending_lookupFt (s : State) : (s.clearPending).lookupFt = s.lookupFt := rfl
@[simp] theorem State.clearPending_pending (s : State) : (s.clearPending).pending = false := rfl
@[simp] theorem State.clearPending_ready (s : State) : (s.clearPending).ready = s.ready := rfl
@[simp] theorem State.clearPending_error (s : State) : (s.clearPending).error = s.error := rfl
@[simp] theorem State.clearPending_fault (s : State) : (s.clearPending).fault = s.fault := rfl
@[simp] theorem State.clearPending_cause (s : State) : (s.clearPending).cause = s.cause := rfl
@[simp] theorem State.clearPending_faultCmd (s : State) : (s.clearPending).faultCmd = s.faultCmd := rfl
@[simp] theorem State.clearPending_stream (s : State) : (s.clearPending).stream = s.stream := rfl
@[simp] theorem State.clearPending_streamChanged (s : State) : (s.clearPending).streamChanged = s.streamChanged := rfl
@[simp] theorem State.clearPending_table (s : State) : (s.clearPending).table = s.table := rfl
@[simp] theorem State.clearPending_tableChanged (s : State) : (s.clearPending).tableChanged = s.tableChanged := rfl
@[simp] theorem State.clearPending_draws (s : State) : (s.clearPending).draws = s.draws := rfl
@[simp] theorem State.clearPending_resetDue (s : State) : (s.clearPending).resetDue = s.resetDue := rfl
@[simp] theorem State.clearPending_responses (s : State) : (s.clearPending).responses = s.responses := rfl
@[simp] theorem State.clearPending_delivered (s : State) : (s.clearPending).delivered = s.delivered := rfl
@[simp] theorem State.clearPending_input (s : State) : (s.clearPending).input = s.input := rfl

/-! ## `State.setError` -/

@[simp] theorem State.setError_value (s : State) : (s.setError).value = s.value := rfl
@[simp] theorem State.setError_range (s : State) : (s.setError).range = s.range := rfl
@[simp] theorem State.setError_count (s : State) : (s.setError).count = s.count := rfl
@[simp] theorem State.setError_totalBits (s : State) : (s.setError).totalBits = s.totalBits := rfl
@[simp] theorem State.setError_fwdOffset (s : State) : (s.setError).fwdOffset = s.fwdOffset := rfl
@[simp] theorem State.setError_bwdOffset (s : State) : (s.setError).bwdOffset = s.bwdOffset := rfl
@[simp] theorem State.setError_storage (s : State) : (s.setError).storage = s.storage := rfl
@[simp] theorem State.setError_endWindow (s : State) : (s.setError).endWindow = s.endWindow := rfl
@[simp] theorem State.setError_endBits (s : State) : (s.setError).endBits = s.endBits := rfl
@[simp] theorem State.setError_ext (s : State) : (s.setError).ext = s.ext := rfl
@[simp] theorem State.setError_lookupFt (s : State) : (s.setError).lookupFt = s.lookupFt := rfl
@[simp] theorem State.setError_pending (s : State) : (s.setError).pending = s.pending := rfl
@[simp] theorem State.setError_ready (s : State) : (s.setError).ready = s.ready := rfl
@[simp] theorem State.setError_error (s : State) : (s.setError).error = true := rfl
@[simp] theorem State.setError_fault (s : State) : (s.setError).fault = s.fault := rfl
@[simp] theorem State.setError_cause (s : State) : (s.setError).cause = s.cause := rfl
@[simp] theorem State.setError_faultCmd (s : State) : (s.setError).faultCmd = s.faultCmd := rfl
@[simp] theorem State.setError_stream (s : State) : (s.setError).stream = s.stream := rfl
@[simp] theorem State.setError_streamChanged (s : State) : (s.setError).streamChanged = s.streamChanged := rfl
@[simp] theorem State.setError_table (s : State) : (s.setError).table = s.table := rfl
@[simp] theorem State.setError_tableChanged (s : State) : (s.setError).tableChanged = s.tableChanged := rfl
@[simp] theorem State.setError_draws (s : State) : (s.setError).draws = s.draws := rfl
@[simp] theorem State.setError_resetDue (s : State) : (s.setError).resetDue = s.resetDue := rfl
@[simp] theorem State.setError_responses (s : State) : (s.setError).responses = s.responses := rfl
@[simp] theorem State.setError_delivered (s : State) : (s.setError).delivered = s.delivered := rfl
@[simp] theorem State.setError_input (s : State) : (s.setError).input = s.input := rfl

/-! ## `State.startStream` -/

@[simp] theorem State.startStream_value (s : State) (n : BitVec 32) : (s.startStream n).value = s.value := rfl
@[simp] theorem State.startStream_range (s : State) (n : BitVec 32) : (s.startStream n).range = 0x8000 := rfl
@[simp] theorem State.startStream_count (s : State) (n : BitVec 32) : (s.startStream n).count = s.count := rfl
@[simp] theorem State.startStream_totalBits (s : State) (n : BitVec 32) : (s.startStream n).totalBits = 1 := rfl
@[simp] theorem State.startStream_fwdOffset (s : State) (n : BitVec 32) :
    (s.startStream n).fwdOffset = s.fwdOffset := rfl
@[simp] theorem State.startStream_bwdOffset (s : State) (n : BitVec 32) : (s.startStream n).bwdOffset = 0 := rfl
@[simp] theorem State.startStream_storage (s : State) (n : BitVec 32) : (s.startStream n).storage = n := rfl
@[simp] theorem State.startStream_endWindow (s : State) (n : BitVec 32) : (s.startStream n).endWindow = 0 := rfl
@[simp] theorem State.startStream_endBits (s : State) (n : BitVec 32) : (s.startStream n).endBits = 0 := rfl
@[simp] theorem State.startStream_ext (s : State) (n : BitVec 32) : (s.startStream n).ext = 0 := rfl
@[simp] theorem State.startStream_lookupFt (s : State) (n : BitVec 32) : (s.startStream n).lookupFt = 0 := rfl
@[simp] theorem State.startStream_pending (s : State) (n : BitVec 32) : (s.startStream n).pending = false := rfl
@[simp] theorem State.startStream_ready (s : State) (n : BitVec 32) : (s.startStream n).ready = true := rfl
@[simp] theorem State.startStream_error (s : State) (n : BitVec 32) : (s.startStream n).error = false := rfl
@[simp] theorem State.startStream_fault (s : State) (n : BitVec 32) : (s.startStream n).fault = s.fault := rfl
@[simp] theorem State.startStream_cause (s : State) (n : BitVec 32) : (s.startStream n).cause = s.cause := rfl
@[simp] theorem State.startStream_faultCmd (s : State) (n : BitVec 32) :
    (s.startStream n).faultCmd = s.faultCmd := rfl
@[simp] theorem State.startStream_stream (s : State) (n : BitVec 32) : (s.startStream n).stream = s.stream := rfl
@[simp] theorem State.startStream_streamChanged (s : State) (n : BitVec 32) :
    (s.startStream n).streamChanged = [] := rfl
@[simp] theorem State.startStream_table (s : State) (n : BitVec 32) : (s.startStream n).table = s.table := rfl
@[simp] theorem State.startStream_tableChanged (s : State) (n : BitVec 32) :
    (s.startStream n).tableChanged = [] := rfl
@[simp] theorem State.startStream_draws (s : State) (n : BitVec 32) : (s.startStream n).draws = s.draws := rfl
@[simp] theorem State.startStream_resetDue (s : State) (n : BitVec 32) :
    (s.startStream n).resetDue = s.resetDue := rfl
@[simp] theorem State.startStream_responses (s : State) (n : BitVec 32) :
    (s.startStream n).responses = s.responses := rfl
@[simp] theorem State.startStream_delivered (s : State) (n : BitVec 32) :
    (s.startStream n).delivered = s.delivered := rfl
@[simp] theorem State.startStream_input (s : State) (n : BitVec 32) : (s.startStream n).input = s.input := rfl

/-! ## `State.setInput` -/

@[simp] theorem State.setInput_value (s : State) (rest : List HostEvent) : (s.setInput rest).value = s.value := rfl
@[simp] theorem State.setInput_range (s : State) (rest : List HostEvent) : (s.setInput rest).range = s.range := rfl
@[simp] theorem State.setInput_count (s : State) (rest : List HostEvent) : (s.setInput rest).count = s.count := rfl
@[simp] theorem State.setInput_totalBits (s : State) (rest : List HostEvent) :
    (s.setInput rest).totalBits = s.totalBits := rfl
@[simp] theorem State.setInput_fwdOffset (s : State) (rest : List HostEvent) :
    (s.setInput rest).fwdOffset = s.fwdOffset := rfl
@[simp] theorem State.setInput_bwdOffset (s : State) (rest : List HostEvent) :
    (s.setInput rest).bwdOffset = s.bwdOffset := rfl
@[simp] theorem State.setInput_storage (s : State) (rest : List HostEvent) :
    (s.setInput rest).storage = s.storage := rfl
@[simp] theorem State.setInput_endWindow (s : State) (rest : List HostEvent) :
    (s.setInput rest).endWindow = s.endWindow := rfl
@[simp] theorem State.setInput_endBits (s : State) (rest : List HostEvent) :
    (s.setInput rest).endBits = s.endBits := rfl
@[simp] theorem State.setInput_ext (s : State) (rest : List HostEvent) : (s.setInput rest).ext = s.ext := rfl
@[simp] theorem State.setInput_lookupFt (s : State) (rest : List HostEvent) :
    (s.setInput rest).lookupFt = s.lookupFt := rfl
@[simp] theorem State.setInput_pending (s : State) (rest : List HostEvent) :
    (s.setInput rest).pending = s.pending := rfl
@[simp] theorem State.setInput_ready (s : State) (rest : List HostEvent) : (s.setInput rest).ready = s.ready := rfl
@[simp] theorem State.setInput_error (s : State) (rest : List HostEvent) : (s.setInput rest).error = s.error := rfl
@[simp] theorem State.setInput_fault (s : State) (rest : List HostEvent) : (s.setInput rest).fault = s.fault := rfl
@[simp] theorem State.setInput_cause (s : State) (rest : List HostEvent) : (s.setInput rest).cause = s.cause := rfl
@[simp] theorem State.setInput_faultCmd (s : State) (rest : List HostEvent) :
    (s.setInput rest).faultCmd = s.faultCmd := rfl
@[simp] theorem State.setInput_stream (s : State) (rest : List HostEvent) : (s.setInput rest).stream = s.stream := rfl
@[simp] theorem State.setInput_streamChanged (s : State) (rest : List HostEvent) :
    (s.setInput rest).streamChanged = s.streamChanged := rfl
@[simp] theorem State.setInput_table (s : State) (rest : List HostEvent) : (s.setInput rest).table = s.table := rfl
@[simp] theorem State.setInput_tableChanged (s : State) (rest : List HostEvent) :
    (s.setInput rest).tableChanged = s.tableChanged := rfl
@[simp] theorem State.setInput_draws (s : State) (rest : List HostEvent) : (s.setInput rest).draws = s.draws := rfl
@[simp] theorem State.setInput_resetDue (s : State) (rest : List HostEvent) :
    (s.setInput rest).resetDue = s.resetDue := rfl
@[simp] theorem State.setInput_responses (s : State) (rest : List HostEvent) :
    (s.setInput rest).responses = s.responses := rfl
@[simp] theorem State.setInput_delivered (s : State) (rest : List HostEvent) :
    (s.setInput rest).delivered = s.delivered := rfl
@[simp] theorem State.setInput_input (s : State) (rest : List HostEvent) : (s.setInput rest).input = rest := rfl

/-! ## `State.bindStream` -/

@[simp] theorem State.bindStream_value (s : State) (bytes : List Byte) : (s.bindStream bytes).value = s.value := rfl
@[simp] theorem State.bindStream_range (s : State) (bytes : List Byte) : (s.bindStream bytes).range = s.range := rfl
@[simp] theorem State.bindStream_count (s : State) (bytes : List Byte) : (s.bindStream bytes).count = s.count := rfl
@[simp] theorem State.bindStream_totalBits (s : State) (bytes : List Byte) :
    (s.bindStream bytes).totalBits = s.totalBits := rfl
@[simp] theorem State.bindStream_fwdOffset (s : State) (bytes : List Byte) :
    (s.bindStream bytes).fwdOffset = s.fwdOffset := rfl
@[simp] theorem State.bindStream_bwdOffset (s : State) (bytes : List Byte) :
    (s.bindStream bytes).bwdOffset = s.bwdOffset := rfl
@[simp] theorem State.bindStream_storage (s : State) (bytes : List Byte) :
    (s.bindStream bytes).storage = s.storage := rfl
@[simp] theorem State.bindStream_endWindow (s : State) (bytes : List Byte) :
    (s.bindStream bytes).endWindow = s.endWindow := rfl
@[simp] theorem State.bindStream_endBits (s : State) (bytes : List Byte) :
    (s.bindStream bytes).endBits = s.endBits := rfl
@[simp] theorem State.bindStream_ext (s : State) (bytes : List Byte) : (s.bindStream bytes).ext = s.ext := rfl
@[simp] theorem State.bindStream_lookupFt (s : State) (bytes : List Byte) :
    (s.bindStream bytes).lookupFt = s.lookupFt := rfl
@[simp] theorem State.bindStream_pending (s : State) (bytes : List Byte) :
    (s.bindStream bytes).pending = s.pending := rfl
@[simp] theorem State.bindStream_ready (s : State) (bytes : List Byte) : (s.bindStream bytes).ready = s.ready := rfl
@[simp] theorem State.bindStream_error (s : State) (bytes : List Byte) : (s.bindStream bytes).error = s.error := rfl
@[simp] theorem State.bindStream_fault (s : State) (bytes : List Byte) : (s.bindStream bytes).fault = s.fault := rfl
@[simp] theorem State.bindStream_cause (s : State) (bytes : List Byte) : (s.bindStream bytes).cause = s.cause := rfl
@[simp] theorem State.bindStream_faultCmd (s : State) (bytes : List Byte) :
    (s.bindStream bytes).faultCmd = s.faultCmd := rfl
@[simp] theorem State.bindStream_stream (s : State) (bytes : List Byte) :
    (s.bindStream bytes).stream = Memory.ofBytes 0 bytes := rfl
@[simp] theorem State.bindStream_streamChanged (s : State) (bytes : List Byte) :
    (s.bindStream bytes).streamChanged = markChanges s.ready s.stream (Memory.ofBytes 0 bytes) s.streamChanged := rfl
@[simp] theorem State.bindStream_table (s : State) (bytes : List Byte) : (s.bindStream bytes).table = s.table := rfl
@[simp] theorem State.bindStream_tableChanged (s : State) (bytes : List Byte) :
    (s.bindStream bytes).tableChanged = s.tableChanged := rfl
@[simp] theorem State.bindStream_draws (s : State) (bytes : List Byte) : (s.bindStream bytes).draws = s.draws := rfl
@[simp] theorem State.bindStream_resetDue (s : State) (bytes : List Byte) :
    (s.bindStream bytes).resetDue = s.resetDue := rfl
@[simp] theorem State.bindStream_responses (s : State) (bytes : List Byte) :
    (s.bindStream bytes).responses = s.responses := rfl
@[simp] theorem State.bindStream_delivered (s : State) (bytes : List Byte) :
    (s.bindStream bytes).delivered = s.delivered := rfl
@[simp] theorem State.bindStream_input (s : State) (bytes : List Byte) : (s.bindStream bytes).input = s.input := rfl

/-! ## `State.writeStream` -/

@[simp] theorem State.writeStream_value (s : State) (a : BitVec 32) (b : Byte) :
    (s.writeStream a b).value = s.value := rfl
@[simp] theorem State.writeStream_range (s : State) (a : BitVec 32) (b : Byte) :
    (s.writeStream a b).range = s.range := rfl
@[simp] theorem State.writeStream_count (s : State) (a : BitVec 32) (b : Byte) :
    (s.writeStream a b).count = s.count := rfl
@[simp] theorem State.writeStream_totalBits (s : State) (a : BitVec 32) (b : Byte) :
    (s.writeStream a b).totalBits = s.totalBits := rfl
@[simp] theorem State.writeStream_fwdOffset (s : State) (a : BitVec 32) (b : Byte) :
    (s.writeStream a b).fwdOffset = s.fwdOffset := rfl
@[simp] theorem State.writeStream_bwdOffset (s : State) (a : BitVec 32) (b : Byte) :
    (s.writeStream a b).bwdOffset = s.bwdOffset := rfl
@[simp] theorem State.writeStream_storage (s : State) (a : BitVec 32) (b : Byte) :
    (s.writeStream a b).storage = s.storage := rfl
@[simp] theorem State.writeStream_endWindow (s : State) (a : BitVec 32) (b : Byte) :
    (s.writeStream a b).endWindow = s.endWindow := rfl
@[simp] theorem State.writeStream_endBits (s : State) (a : BitVec 32) (b : Byte) :
    (s.writeStream a b).endBits = s.endBits := rfl
@[simp] theorem State.writeStream_ext (s : State) (a : BitVec 32) (b : Byte) : (s.writeStream a b).ext = s.ext := rfl
@[simp] theorem State.writeStream_lookupFt (s : State) (a : BitVec 32) (b : Byte) :
    (s.writeStream a b).lookupFt = s.lookupFt := rfl
@[simp] theorem State.writeStream_pending (s : State) (a : BitVec 32) (b : Byte) :
    (s.writeStream a b).pending = s.pending := rfl
@[simp] theorem State.writeStream_ready (s : State) (a : BitVec 32) (b : Byte) :
    (s.writeStream a b).ready = s.ready := rfl
@[simp] theorem State.writeStream_error (s : State) (a : BitVec 32) (b : Byte) :
    (s.writeStream a b).error = s.error := rfl
@[simp] theorem State.writeStream_fault (s : State) (a : BitVec 32) (b : Byte) :
    (s.writeStream a b).fault = s.fault := rfl
@[simp] theorem State.writeStream_cause (s : State) (a : BitVec 32) (b : Byte) :
    (s.writeStream a b).cause = s.cause := rfl
@[simp] theorem State.writeStream_faultCmd (s : State) (a : BitVec 32) (b : Byte) :
    (s.writeStream a b).faultCmd = s.faultCmd := rfl
@[simp] theorem State.writeStream_stream (s : State) (a : BitVec 32) (b : Byte) :
    (s.writeStream a b).stream = s.stream.write a.toNat b := rfl
@[simp] theorem State.writeStream_streamChanged (s : State) (a : BitVec 32) (b : Byte) :
    (s.writeStream a b).streamChanged = markChanges s.ready s.stream (s.stream.write a.toNat b) s.streamChanged := rfl
@[simp] theorem State.writeStream_table (s : State) (a : BitVec 32) (b : Byte) :
    (s.writeStream a b).table = s.table := rfl
@[simp] theorem State.writeStream_tableChanged (s : State) (a : BitVec 32) (b : Byte) :
    (s.writeStream a b).tableChanged = s.tableChanged := rfl
@[simp] theorem State.writeStream_draws (s : State) (a : BitVec 32) (b : Byte) :
    (s.writeStream a b).draws = s.draws := rfl
@[simp] theorem State.writeStream_resetDue (s : State) (a : BitVec 32) (b : Byte) :
    (s.writeStream a b).resetDue = s.resetDue := rfl
@[simp] theorem State.writeStream_responses (s : State) (a : BitVec 32) (b : Byte) :
    (s.writeStream a b).responses = s.responses := rfl
@[simp] theorem State.writeStream_delivered (s : State) (a : BitVec 32) (b : Byte) :
    (s.writeStream a b).delivered = s.delivered := rfl
@[simp] theorem State.writeStream_input (s : State) (a : BitVec 32) (b : Byte) :
    (s.writeStream a b).input = s.input := rfl

/-! ## `State.writeTable` -/

@[simp] theorem State.writeTable_value (s : State) (a : BitVec 32) (b : Byte) :
    (s.writeTable a b).value = s.value := rfl
@[simp] theorem State.writeTable_range (s : State) (a : BitVec 32) (b : Byte) :
    (s.writeTable a b).range = s.range := rfl
@[simp] theorem State.writeTable_count (s : State) (a : BitVec 32) (b : Byte) :
    (s.writeTable a b).count = s.count := rfl
@[simp] theorem State.writeTable_totalBits (s : State) (a : BitVec 32) (b : Byte) :
    (s.writeTable a b).totalBits = s.totalBits := rfl
@[simp] theorem State.writeTable_fwdOffset (s : State) (a : BitVec 32) (b : Byte) :
    (s.writeTable a b).fwdOffset = s.fwdOffset := rfl
@[simp] theorem State.writeTable_bwdOffset (s : State) (a : BitVec 32) (b : Byte) :
    (s.writeTable a b).bwdOffset = s.bwdOffset := rfl
@[simp] theorem State.writeTable_storage (s : State) (a : BitVec 32) (b : Byte) :
    (s.writeTable a b).storage = s.storage := rfl
@[simp] theorem State.writeTable_endWindow (s : State) (a : BitVec 32) (b : Byte) :
    (s.writeTable a b).endWindow = s.endWindow := rfl
@[simp] theorem State.writeTable_endBits (s : State) (a : BitVec 32) (b : Byte) :
    (s.writeTable a b).endBits = s.endBits := rfl
@[simp] theorem State.writeTable_ext (s : State) (a : BitVec 32) (b : Byte) : (s.writeTable a b).ext = s.ext := rfl
@[simp] theorem State.writeTable_lookupFt (s : State) (a : BitVec 32) (b : Byte) :
    (s.writeTable a b).lookupFt = s.lookupFt := rfl
@[simp] theorem State.writeTable_pending (s : State) (a : BitVec 32) (b : Byte) :
    (s.writeTable a b).pending = s.pending := rfl
@[simp] theorem State.writeTable_ready (s : State) (a : BitVec 32) (b : Byte) :
    (s.writeTable a b).ready = s.ready := rfl
@[simp] theorem State.writeTable_error (s : State) (a : BitVec 32) (b : Byte) :
    (s.writeTable a b).error = s.error := rfl
@[simp] theorem State.writeTable_fault (s : State) (a : BitVec 32) (b : Byte) :
    (s.writeTable a b).fault = s.fault := rfl
@[simp] theorem State.writeTable_cause (s : State) (a : BitVec 32) (b : Byte) :
    (s.writeTable a b).cause = s.cause := rfl
@[simp] theorem State.writeTable_faultCmd (s : State) (a : BitVec 32) (b : Byte) :
    (s.writeTable a b).faultCmd = s.faultCmd := rfl
@[simp] theorem State.writeTable_stream (s : State) (a : BitVec 32) (b : Byte) :
    (s.writeTable a b).stream = s.stream := rfl
@[simp] theorem State.writeTable_streamChanged (s : State) (a : BitVec 32) (b : Byte) :
    (s.writeTable a b).streamChanged = s.streamChanged := rfl
@[simp] theorem State.writeTable_table (s : State) (a : BitVec 32) (b : Byte) :
    (s.writeTable a b).table = s.table.write a.toNat b := rfl
@[simp] theorem State.writeTable_tableChanged (s : State) (a : BitVec 32) (b : Byte) :
    (s.writeTable a b).tableChanged = markChanges s.ready s.table (s.table.write a.toNat b) s.tableChanged := rfl
@[simp] theorem State.writeTable_draws (s : State) (a : BitVec 32) (b : Byte) :
    (s.writeTable a b).draws = s.draws := rfl
@[simp] theorem State.writeTable_resetDue (s : State) (a : BitVec 32) (b : Byte) :
    (s.writeTable a b).resetDue = s.resetDue := rfl
@[simp] theorem State.writeTable_responses (s : State) (a : BitVec 32) (b : Byte) :
    (s.writeTable a b).responses = s.responses := rfl
@[simp] theorem State.writeTable_delivered (s : State) (a : BitVec 32) (b : Byte) :
    (s.writeTable a b).delivered = s.delivered := rfl
@[simp] theorem State.writeTable_input (s : State) (a : BitVec 32) (b : Byte) :
    (s.writeTable a b).input = s.input := rfl

/-! ## `State.resetBlock` -/

@[simp] theorem State.resetBlock_value (s : State) : (s.resetBlock).value = 0 := rfl
@[simp] theorem State.resetBlock_range (s : State) : (s.resetBlock).range = 0 := rfl
@[simp] theorem State.resetBlock_count (s : State) : (s.resetBlock).count = 0 := rfl
@[simp] theorem State.resetBlock_totalBits (s : State) : (s.resetBlock).totalBits = 0 := rfl
@[simp] theorem State.resetBlock_fwdOffset (s : State) : (s.resetBlock).fwdOffset = 0 := rfl
@[simp] theorem State.resetBlock_bwdOffset (s : State) : (s.resetBlock).bwdOffset = 0 := rfl
@[simp] theorem State.resetBlock_storage (s : State) : (s.resetBlock).storage = 0 := rfl
@[simp] theorem State.resetBlock_endWindow (s : State) : (s.resetBlock).endWindow = 0 := rfl
@[simp] theorem State.resetBlock_endBits (s : State) : (s.resetBlock).endBits = 0 := rfl
@[simp] theorem State.resetBlock_ext (s : State) : (s.resetBlock).ext = 0 := rfl
@[simp] theorem State.resetBlock_lookupFt (s : State) : (s.resetBlock).lookupFt = 0 := rfl
@[simp] theorem State.resetBlock_pending (s : State) : (s.resetBlock).pending = false := rfl
@[simp] theorem State.resetBlock_ready (s : State) : (s.resetBlock).ready = false := rfl
@[simp] theorem State.resetBlock_error (s : State) : (s.resetBlock).error = false := rfl
@[simp] theorem State.resetBlock_fault (s : State) : (s.resetBlock).fault = false := rfl
@[simp] theorem State.resetBlock_cause (s : State) : (s.resetBlock).cause = 0 := rfl
@[simp] theorem State.resetBlock_faultCmd (s : State) : (s.resetBlock).faultCmd = 0 := rfl
@[simp] theorem State.resetBlock_stream (s : State) : (s.resetBlock).stream = s.stream := rfl
@[simp] theorem State.resetBlock_streamChanged (s : State) : (s.resetBlock).streamChanged = [] := rfl
@[simp] theorem State.resetBlock_table (s : State) : (s.resetBlock).table = s.table := rfl
@[simp] theorem State.resetBlock_tableChanged (s : State) : (s.resetBlock).tableChanged = [] := rfl
@[simp] theorem State.resetBlock_draws (s : State) : (s.resetBlock).draws = s.draws := rfl
@[simp] theorem State.resetBlock_resetDue (s : State) : (s.resetBlock).resetDue = false := rfl
@[simp] theorem State.resetBlock_responses (s : State) : (s.resetBlock).responses = [] := rfl
@[simp] theorem State.resetBlock_delivered (s : State) : (s.resetBlock).delivered = s.delivered := rfl
@[simp] theorem State.resetBlock_input (s : State) : (s.resetBlock).input = s.input := rfl

/-! ## `State.nextDraw` -/

@[simp] theorem State.nextDraw_value (s : State) : (s.nextDraw).value = s.value := rfl
@[simp] theorem State.nextDraw_range (s : State) : (s.nextDraw).range = s.range := rfl
@[simp] theorem State.nextDraw_count (s : State) : (s.nextDraw).count = s.count := rfl
@[simp] theorem State.nextDraw_totalBits (s : State) : (s.nextDraw).totalBits = s.totalBits := rfl
@[simp] theorem State.nextDraw_fwdOffset (s : State) : (s.nextDraw).fwdOffset = s.fwdOffset := rfl
@[simp] theorem State.nextDraw_bwdOffset (s : State) : (s.nextDraw).bwdOffset = s.bwdOffset := rfl
@[simp] theorem State.nextDraw_storage (s : State) : (s.nextDraw).storage = s.storage := rfl
@[simp] theorem State.nextDraw_endWindow (s : State) : (s.nextDraw).endWindow = s.endWindow := rfl
@[simp] theorem State.nextDraw_endBits (s : State) : (s.nextDraw).endBits = s.endBits := rfl
@[simp] theorem State.nextDraw_ext (s : State) : (s.nextDraw).ext = s.ext := rfl
@[simp] theorem State.nextDraw_lookupFt (s : State) : (s.nextDraw).lookupFt = s.lookupFt := rfl
@[simp] theorem State.nextDraw_pending (s : State) : (s.nextDraw).pending = s.pending := rfl
@[simp] theorem State.nextDraw_ready (s : State) : (s.nextDraw).ready = s.ready := rfl
@[simp] theorem State.nextDraw_error (s : State) : (s.nextDraw).error = s.error := rfl
@[simp] theorem State.nextDraw_fault (s : State) : (s.nextDraw).fault = s.fault := rfl
@[simp] theorem State.nextDraw_cause (s : State) : (s.nextDraw).cause = s.cause := rfl
@[simp] theorem State.nextDraw_faultCmd (s : State) : (s.nextDraw).faultCmd = s.faultCmd := rfl
@[simp] theorem State.nextDraw_stream (s : State) : (s.nextDraw).stream = s.stream := rfl
@[simp] theorem State.nextDraw_streamChanged (s : State) : (s.nextDraw).streamChanged = s.streamChanged := rfl
@[simp] theorem State.nextDraw_table (s : State) : (s.nextDraw).table = s.table := rfl
@[simp] theorem State.nextDraw_tableChanged (s : State) : (s.nextDraw).tableChanged = s.tableChanged := rfl
@[simp] theorem State.nextDraw_draws (s : State) : (s.nextDraw).draws = s.draws + 1 := rfl
@[simp] theorem State.nextDraw_resetDue (s : State) : (s.nextDraw).resetDue = s.resetDue := rfl
@[simp] theorem State.nextDraw_responses (s : State) : (s.nextDraw).responses = s.responses := rfl
@[simp] theorem State.nextDraw_delivered (s : State) : (s.nextDraw).delivered = s.delivered := rfl
@[simp] theorem State.nextDraw_input (s : State) : (s.nextDraw).input = s.input := rfl

/-! ## `State.changeStream` -/

@[simp] theorem State.changeStream_value (s : State) (m : Memory) : (s.changeStream m).value = s.value := rfl
@[simp] theorem State.changeStream_range (s : State) (m : Memory) : (s.changeStream m).range = s.range := rfl
@[simp] theorem State.changeStream_count (s : State) (m : Memory) : (s.changeStream m).count = s.count := rfl
@[simp] theorem State.changeStream_totalBits (s : State) (m : Memory) :
    (s.changeStream m).totalBits = s.totalBits := rfl
@[simp] theorem State.changeStream_fwdOffset (s : State) (m : Memory) :
    (s.changeStream m).fwdOffset = s.fwdOffset := rfl
@[simp] theorem State.changeStream_bwdOffset (s : State) (m : Memory) :
    (s.changeStream m).bwdOffset = s.bwdOffset := rfl
@[simp] theorem State.changeStream_storage (s : State) (m : Memory) : (s.changeStream m).storage = s.storage := rfl
@[simp] theorem State.changeStream_endWindow (s : State) (m : Memory) :
    (s.changeStream m).endWindow = s.endWindow := rfl
@[simp] theorem State.changeStream_endBits (s : State) (m : Memory) : (s.changeStream m).endBits = s.endBits := rfl
@[simp] theorem State.changeStream_ext (s : State) (m : Memory) : (s.changeStream m).ext = s.ext := rfl
@[simp] theorem State.changeStream_lookupFt (s : State) (m : Memory) : (s.changeStream m).lookupFt = s.lookupFt := rfl
@[simp] theorem State.changeStream_pending (s : State) (m : Memory) : (s.changeStream m).pending = s.pending := rfl
@[simp] theorem State.changeStream_ready (s : State) (m : Memory) : (s.changeStream m).ready = s.ready := rfl
@[simp] theorem State.changeStream_error (s : State) (m : Memory) : (s.changeStream m).error = s.error := rfl
@[simp] theorem State.changeStream_fault (s : State) (m : Memory) : (s.changeStream m).fault = s.fault := rfl
@[simp] theorem State.changeStream_cause (s : State) (m : Memory) : (s.changeStream m).cause = s.cause := rfl
@[simp] theorem State.changeStream_faultCmd (s : State) (m : Memory) : (s.changeStream m).faultCmd = s.faultCmd := rfl
@[simp] theorem State.changeStream_stream (s : State) (m : Memory) : (s.changeStream m).stream = m := rfl
@[simp] theorem State.changeStream_streamChanged (s : State) (m : Memory) :
    (s.changeStream m).streamChanged = markChanges s.ready s.stream m s.streamChanged := rfl
@[simp] theorem State.changeStream_table (s : State) (m : Memory) : (s.changeStream m).table = s.table := rfl
@[simp] theorem State.changeStream_tableChanged (s : State) (m : Memory) :
    (s.changeStream m).tableChanged = s.tableChanged := rfl
@[simp] theorem State.changeStream_draws (s : State) (m : Memory) : (s.changeStream m).draws = s.draws := rfl
@[simp] theorem State.changeStream_resetDue (s : State) (m : Memory) : (s.changeStream m).resetDue = s.resetDue := rfl
@[simp] theorem State.changeStream_responses (s : State) (m : Memory) :
    (s.changeStream m).responses = s.responses := rfl
@[simp] theorem State.changeStream_delivered (s : State) (m : Memory) :
    (s.changeStream m).delivered = s.delivered := rfl
@[simp] theorem State.changeStream_input (s : State) (m : Memory) : (s.changeStream m).input = s.input := rfl

/-! ## `State.changeTable` -/

@[simp] theorem State.changeTable_value (s : State) (m : Memory) : (s.changeTable m).value = s.value := rfl
@[simp] theorem State.changeTable_range (s : State) (m : Memory) : (s.changeTable m).range = s.range := rfl
@[simp] theorem State.changeTable_count (s : State) (m : Memory) : (s.changeTable m).count = s.count := rfl
@[simp] theorem State.changeTable_totalBits (s : State) (m : Memory) :
    (s.changeTable m).totalBits = s.totalBits := rfl
@[simp] theorem State.changeTable_fwdOffset (s : State) (m : Memory) :
    (s.changeTable m).fwdOffset = s.fwdOffset := rfl
@[simp] theorem State.changeTable_bwdOffset (s : State) (m : Memory) :
    (s.changeTable m).bwdOffset = s.bwdOffset := rfl
@[simp] theorem State.changeTable_storage (s : State) (m : Memory) : (s.changeTable m).storage = s.storage := rfl
@[simp] theorem State.changeTable_endWindow (s : State) (m : Memory) :
    (s.changeTable m).endWindow = s.endWindow := rfl
@[simp] theorem State.changeTable_endBits (s : State) (m : Memory) : (s.changeTable m).endBits = s.endBits := rfl
@[simp] theorem State.changeTable_ext (s : State) (m : Memory) : (s.changeTable m).ext = s.ext := rfl
@[simp] theorem State.changeTable_lookupFt (s : State) (m : Memory) : (s.changeTable m).lookupFt = s.lookupFt := rfl
@[simp] theorem State.changeTable_pending (s : State) (m : Memory) : (s.changeTable m).pending = s.pending := rfl
@[simp] theorem State.changeTable_ready (s : State) (m : Memory) : (s.changeTable m).ready = s.ready := rfl
@[simp] theorem State.changeTable_error (s : State) (m : Memory) : (s.changeTable m).error = s.error := rfl
@[simp] theorem State.changeTable_fault (s : State) (m : Memory) : (s.changeTable m).fault = s.fault := rfl
@[simp] theorem State.changeTable_cause (s : State) (m : Memory) : (s.changeTable m).cause = s.cause := rfl
@[simp] theorem State.changeTable_faultCmd (s : State) (m : Memory) : (s.changeTable m).faultCmd = s.faultCmd := rfl
@[simp] theorem State.changeTable_stream (s : State) (m : Memory) : (s.changeTable m).stream = s.stream := rfl
@[simp] theorem State.changeTable_streamChanged (s : State) (m : Memory) :
    (s.changeTable m).streamChanged = s.streamChanged := rfl
@[simp] theorem State.changeTable_table (s : State) (m : Memory) : (s.changeTable m).table = m := rfl
@[simp] theorem State.changeTable_tableChanged (s : State) (m : Memory) :
    (s.changeTable m).tableChanged = markChanges s.ready s.table m s.tableChanged := rfl
@[simp] theorem State.changeTable_draws (s : State) (m : Memory) : (s.changeTable m).draws = s.draws := rfl
@[simp] theorem State.changeTable_resetDue (s : State) (m : Memory) : (s.changeTable m).resetDue = s.resetDue := rfl
@[simp] theorem State.changeTable_responses (s : State) (m : Memory) :
    (s.changeTable m).responses = s.responses := rfl
@[simp] theorem State.changeTable_delivered (s : State) (m : Memory) :
    (s.changeTable m).delivered = s.delivered := rfl
@[simp] theorem State.changeTable_input (s : State) (m : Memory) : (s.changeTable m).input = s.input := rfl

/-! ## `State.loseRegisters` -/

@[simp] theorem State.loseRegisters_value (s : State) :
    (s.loseRegisters).value = (Config.lostRegister s.draws .value).setWidth 32 := rfl
@[simp] theorem State.loseRegisters_range (s : State) :
    (s.loseRegisters).range = (Config.lostRegister s.draws .range).setWidth 16 := rfl
@[simp] theorem State.loseRegisters_count (s : State) :
    (s.loseRegisters).count = (Config.lostRegister s.draws .count).setWidth 16 := rfl
@[simp] theorem State.loseRegisters_totalBits (s : State) :
    (s.loseRegisters).totalBits = (Config.lostRegister s.draws .totalBits).setWidth 32 := rfl
@[simp] theorem State.loseRegisters_fwdOffset (s : State) :
    (s.loseRegisters).fwdOffset = (Config.lostRegister s.draws .fwdOffset).setWidth 32 := rfl
@[simp] theorem State.loseRegisters_bwdOffset (s : State) :
    (s.loseRegisters).bwdOffset = (Config.lostRegister s.draws .bwdOffset).setWidth 32 := rfl
@[simp] theorem State.loseRegisters_storage (s : State) :
    (s.loseRegisters).storage = (Config.lostRegister s.draws .storage).setWidth 32 := rfl
@[simp] theorem State.loseRegisters_endWindow (s : State) :
    (s.loseRegisters).endWindow = (Config.lostRegister s.draws .endWindow).setWidth 32 := rfl
@[simp] theorem State.loseRegisters_endBits (s : State) :
    (s.loseRegisters).endBits = (Config.lostRegister s.draws .endBits).setWidth 16 := rfl
@[simp] theorem State.loseRegisters_ext (s : State) :
    (s.loseRegisters).ext = (Config.lostRegister s.draws .ext).setWidth 4 := rfl
@[simp] theorem State.loseRegisters_lookupFt (s : State) :
    (s.loseRegisters).lookupFt = (Config.lostRegister s.draws .lookupFt).setWidth 16 := rfl
@[simp] theorem State.loseRegisters_pending (s : State) :
    (s.loseRegisters).pending = (Config.lostRegister s.draws .pending).getLsbD 0 := rfl
@[simp] theorem State.loseRegisters_ready (s : State) :
    (s.loseRegisters).ready = (Config.lostRegister s.draws .ready).getLsbD 0 := rfl
@[simp] theorem State.loseRegisters_error (s : State) :
    (s.loseRegisters).error = (Config.lostRegister s.draws .error).getLsbD 0 := rfl
@[simp] theorem State.loseRegisters_fault (s : State) :
    (s.loseRegisters).fault = (Config.lostRegister s.draws .fault).getLsbD 0 := rfl
@[simp] theorem State.loseRegisters_cause (s : State) :
    (s.loseRegisters).cause = (Config.lostRegister s.draws .cause).setWidth 8 := rfl
@[simp] theorem State.loseRegisters_faultCmd (s : State) :
    (s.loseRegisters).faultCmd = Config.lostRegister s.draws .faultCmd := rfl
@[simp] theorem State.loseRegisters_stream (s : State) : (s.loseRegisters).stream = s.stream := rfl
@[simp] theorem State.loseRegisters_streamChanged (s : State) :
    (s.loseRegisters).streamChanged = s.streamChanged := rfl
@[simp] theorem State.loseRegisters_table (s : State) : (s.loseRegisters).table = s.table := rfl
@[simp] theorem State.loseRegisters_tableChanged (s : State) : (s.loseRegisters).tableChanged = s.tableChanged := rfl
@[simp] theorem State.loseRegisters_draws (s : State) : (s.loseRegisters).draws = s.draws := rfl
@[simp] theorem State.loseRegisters_resetDue (s : State) : (s.loseRegisters).resetDue = s.resetDue := rfl
@[simp] theorem State.loseRegisters_responses (s : State) : (s.loseRegisters).responses = s.responses := rfl
@[simp] theorem State.loseRegisters_delivered (s : State) : (s.loseRegisters).delivered = s.delivered := rfl
@[simp] theorem State.loseRegisters_input (s : State) : (s.loseRegisters).input = s.input := rfl

/-! ## `State.losePower` -/

@[simp] theorem State.losePower_value (s : State) :
    (s.losePower).value = (Config.lostRegister (s.draws + 1) .value).setWidth 32 := rfl
@[simp] theorem State.losePower_range (s : State) :
    (s.losePower).range = (Config.lostRegister (s.draws + 1) .range).setWidth 16 := rfl
@[simp] theorem State.losePower_count (s : State) :
    (s.losePower).count = (Config.lostRegister (s.draws + 1) .count).setWidth 16 := rfl
@[simp] theorem State.losePower_totalBits (s : State) :
    (s.losePower).totalBits = (Config.lostRegister (s.draws + 1) .totalBits).setWidth 32 := rfl
@[simp] theorem State.losePower_fwdOffset (s : State) :
    (s.losePower).fwdOffset = (Config.lostRegister (s.draws + 1) .fwdOffset).setWidth 32 := rfl
@[simp] theorem State.losePower_bwdOffset (s : State) :
    (s.losePower).bwdOffset = (Config.lostRegister (s.draws + 1) .bwdOffset).setWidth 32 := rfl
@[simp] theorem State.losePower_storage (s : State) :
    (s.losePower).storage = (Config.lostRegister (s.draws + 1) .storage).setWidth 32 := rfl
@[simp] theorem State.losePower_endWindow (s : State) :
    (s.losePower).endWindow = (Config.lostRegister (s.draws + 1) .endWindow).setWidth 32 := rfl
@[simp] theorem State.losePower_endBits (s : State) :
    (s.losePower).endBits = (Config.lostRegister (s.draws + 1) .endBits).setWidth 16 := rfl
@[simp] theorem State.losePower_ext (s : State) :
    (s.losePower).ext = (Config.lostRegister (s.draws + 1) .ext).setWidth 4 := rfl
@[simp] theorem State.losePower_lookupFt (s : State) :
    (s.losePower).lookupFt = (Config.lostRegister (s.draws + 1) .lookupFt).setWidth 16 := rfl
@[simp] theorem State.losePower_pending (s : State) :
    (s.losePower).pending = (Config.lostRegister (s.draws + 1) .pending).getLsbD 0 := rfl
@[simp] theorem State.losePower_ready (s : State) :
    (s.losePower).ready = (Config.lostRegister (s.draws + 1) .ready).getLsbD 0 := rfl
@[simp] theorem State.losePower_error (s : State) :
    (s.losePower).error = (Config.lostRegister (s.draws + 1) .error).getLsbD 0 := rfl
@[simp] theorem State.losePower_fault (s : State) :
    (s.losePower).fault = (Config.lostRegister (s.draws + 1) .fault).getLsbD 0 := rfl
@[simp] theorem State.losePower_cause (s : State) :
    (s.losePower).cause = (Config.lostRegister (s.draws + 1) .cause).setWidth 8 := rfl
@[simp] theorem State.losePower_faultCmd (s : State) :
    (s.losePower).faultCmd = Config.lostRegister (s.draws + 1) .faultCmd := rfl
@[simp] theorem State.losePower_stream (s : State) : (s.losePower).stream = s.stream := rfl
@[simp] theorem State.losePower_streamChanged (s : State) : (s.losePower).streamChanged = s.streamChanged := rfl
@[simp] theorem State.losePower_table (s : State) : (s.losePower).table = s.table := rfl
@[simp] theorem State.losePower_tableChanged (s : State) : (s.losePower).tableChanged = s.tableChanged := rfl
@[simp] theorem State.losePower_draws (s : State) : (s.losePower).draws = s.draws + 1 := rfl
@[simp] theorem State.losePower_resetDue (s : State) : (s.losePower).resetDue = true := rfl
@[simp] theorem State.losePower_responses (s : State) : (s.losePower).responses = [] := rfl
@[simp] theorem State.losePower_delivered (s : State) : (s.losePower).delivered = s.delivered := rfl
@[simp] theorem State.losePower_input (s : State) : (s.losePower).input = s.input := rfl

/-! ## `State.answerUnreset` -/

@[simp] theorem State.answerUnreset_value (s : State) :
    (s.answerUnreset).value = (Config.lostRegister s.draws .value).setWidth 32 := rfl
@[simp] theorem State.answerUnreset_range (s : State) :
    (s.answerUnreset).range = (Config.lostRegister s.draws .range).setWidth 16 := rfl
@[simp] theorem State.answerUnreset_count (s : State) :
    (s.answerUnreset).count = (Config.lostRegister s.draws .count).setWidth 16 := rfl
@[simp] theorem State.answerUnreset_totalBits (s : State) :
    (s.answerUnreset).totalBits = (Config.lostRegister s.draws .totalBits).setWidth 32 := rfl
@[simp] theorem State.answerUnreset_fwdOffset (s : State) :
    (s.answerUnreset).fwdOffset = (Config.lostRegister s.draws .fwdOffset).setWidth 32 := rfl
@[simp] theorem State.answerUnreset_bwdOffset (s : State) :
    (s.answerUnreset).bwdOffset = (Config.lostRegister s.draws .bwdOffset).setWidth 32 := rfl
@[simp] theorem State.answerUnreset_storage (s : State) :
    (s.answerUnreset).storage = (Config.lostRegister s.draws .storage).setWidth 32 := rfl
@[simp] theorem State.answerUnreset_endWindow (s : State) :
    (s.answerUnreset).endWindow = (Config.lostRegister s.draws .endWindow).setWidth 32 := rfl
@[simp] theorem State.answerUnreset_endBits (s : State) :
    (s.answerUnreset).endBits = (Config.lostRegister s.draws .endBits).setWidth 16 := rfl
@[simp] theorem State.answerUnreset_ext (s : State) :
    (s.answerUnreset).ext = (Config.lostRegister s.draws .ext).setWidth 4 := rfl
@[simp] theorem State.answerUnreset_lookupFt (s : State) :
    (s.answerUnreset).lookupFt = (Config.lostRegister s.draws .lookupFt).setWidth 16 := rfl
@[simp] theorem State.answerUnreset_pending (s : State) :
    (s.answerUnreset).pending = (Config.lostRegister s.draws .pending).getLsbD 0 := rfl
@[simp] theorem State.answerUnreset_ready (s : State) :
    (s.answerUnreset).ready = (Config.lostRegister s.draws .ready).getLsbD 0 := rfl
@[simp] theorem State.answerUnreset_error (s : State) :
    (s.answerUnreset).error = (Config.lostRegister s.draws .error).getLsbD 0 := rfl
@[simp] theorem State.answerUnreset_fault (s : State) :
    (s.answerUnreset).fault = (Config.lostRegister s.draws .fault).getLsbD 0 := rfl
@[simp] theorem State.answerUnreset_cause (s : State) :
    (s.answerUnreset).cause = (Config.lostRegister s.draws .cause).setWidth 8 := rfl
@[simp] theorem State.answerUnreset_faultCmd (s : State) :
    (s.answerUnreset).faultCmd = Config.lostRegister s.draws .faultCmd := rfl
@[simp] theorem State.answerUnreset_stream (s : State) : (s.answerUnreset).stream = s.stream := rfl
@[simp] theorem State.answerUnreset_streamChanged (s : State) :
    (s.answerUnreset).streamChanged = s.streamChanged := rfl
@[simp] theorem State.answerUnreset_table (s : State) : (s.answerUnreset).table = s.table := rfl
@[simp] theorem State.answerUnreset_tableChanged (s : State) : (s.answerUnreset).tableChanged = s.tableChanged := rfl
@[simp] theorem State.answerUnreset_draws (s : State) : (s.answerUnreset).draws = s.draws := rfl
@[simp] theorem State.answerUnreset_resetDue (s : State) : (s.answerUnreset).resetDue = s.resetDue := rfl
@[simp] theorem State.answerUnreset_responses (s : State) :
    (s.answerUnreset).responses = s.responses ++
      [{ status := statusOfDraw (Config.unresetStatus s.draws), result := Config.unresetResult s.draws }] := rfl
@[simp] theorem State.answerUnreset_delivered (s : State) : (s.answerUnreset).delivered = s.delivered := rfl
@[simp] theorem State.answerUnreset_input (s : State) : (s.answerUnreset).input = s.input := rfl

end Sys2Proof.Machine
end

