-- ==== Sys2Proof/Laws/Command.lean ====
section
/-! SUPPORT. Every command is one `command` of its checks and its effect, and what a `command` can answer
(spec/40 R140, spec/60 R302 to R305). -/

namespace Sys2Proof.Machine

/-- The checks of an instruction, in the order of spec/60_exceptions.md R304. -/
def commandChecks (i : Instr) (s : State) : List (Bool × Cause) :=
  match i with
  | .init _ => []
  | .tell => [checkReady s]
  | .decode ft => [checkReady s, checkIdle s, checkOperands (genericTotalOk ft.toNat)]
  | .decodeNorm ft => [checkReady s, checkIdle s, checkOperands (normalizedTotalOk ft.toNat)]
  | .decodeBinNorm => [checkReady s, checkIdle s]
  | .decodeBin ftb => [checkReady s, checkIdle s, checkOperands (totalBitsOperandOk ftb.toNat)]
  | .update fl fh ft =>
    [checkReady s, checkPending s, checkOperands (updateBoundsOk fl.toNat fh.toNat ft.toNat),
      (ft != s.lookupFt, .updateFtMismatch),
      (!s.positionIn (updateRange s fl.toNat fh.toNat ft.toNat), .updateInterval)]
  | .decodeBitLogp logp => [checkReady s, checkIdle s, checkOperands (logpOk logp.toNat)]
  | .decodeIcdfFt tb ft nsyms =>
    [checkReady s, checkIdle s, checkOperands (genericTotalOk ft.toNat)] ++ icdfChecks s tb.toNat 1 nsyms ft.toNat
  | .decodeIcdf16Ft tb ft nsyms =>
    [checkReady s, checkIdle s, checkOperands (genericTotalOk ft.toNat)] ++ icdfChecks s tb.toNat 2 nsyms ft.toNat
  | .decodeIcdf tb ftb nsyms =>
    [checkReady s, checkIdle s, checkOperands (totalBitsOperandOk ftb.toNat)] ++
      icdfChecks s tb.toNat 1 nsyms (1 <<< ftb.toNat)
  | .decodeIcdf16 tb ftb nsyms =>
    [checkReady s, checkIdle s, checkOperands (totalBitsOperandOk ftb.toNat)] ++
      icdfChecks s tb.toNat 2 nsyms (1 <<< ftb.toNat)
  | .decodeUint ft => [checkReady s, checkIdle s, checkOperands (uintTotalOk ft.toNat)]
  | .decodeBits nbits => [checkReady s, checkOperands (rawWidthOk nbits.toNat)]

/-- What an instruction leaves and returns when none of its checks fails. -/
def commandEffect (i : Instr) (s : State) : State × BitVec 32 :=
  match i with
  | .init storage => (s.initialise storage, 0)
  | .tell => (s, s.totalBits)
  | .decode ft => lookupEffect s ft.toNat
  | .decodeNorm ft => lookupEffect s ft.toNat
  | .decodeBinNorm => lookupEffect s 32768
  | .decodeBin ftb => lookupEffect s (1 <<< ftb.toNat)
  | .update fl fh ft => (s.clearPending.narrowTo (updateRange s fl.toNat fh.toNat ft.toNat), 0)
  | .decodeBitLogp logp => bitEffect s logp.toNat
  | .decodeIcdfFt tb ft nsyms => icdfEffect s tb.toNat 1 nsyms ft.toNat
  | .decodeIcdf16Ft tb ft nsyms => icdfEffect s tb.toNat 2 nsyms ft.toNat
  | .decodeIcdf tb ftb nsyms => icdfEffect s tb.toNat 1 nsyms (1 <<< ftb.toNat)
  | .decodeIcdf16 tb ftb nsyms => icdfEffect s tb.toNat 2 nsyms (1 <<< ftb.toNat)
  | .decodeUint ft => withResult (uintValue s ft.toNat)
  | .decodeBits nbits => withResult (rawBits s nbits.toNat)

/-- The spec gives the instruction a meaning in this state: it names no table outside R230 (b), (c) (R239). -/
def commandDefined (i : Instr) (s : State) : Bool :=
  match i with
  | .decodeIcdfFt tb ft nsyms => icdfInContract s tb.toNat 1 nsyms ft.toNat
  | .decodeIcdf16Ft tb ft nsyms => icdfInContract s tb.toNat 2 nsyms ft.toNat
  | .decodeIcdf tb ftb nsyms => icdfInContract s tb.toNat 1 nsyms (1 <<< ftb.toNat)
  | .decodeIcdf16 tb ftb nsyms => icdfInContract s tb.toNat 2 nsyms (1 <<< ftb.toNat)
  | .init _ => true
  | .tell => true
  | .decode _ => true
  | .decodeNorm _ => true
  | .decodeBinNorm => true
  | .decodeBin _ => true
  | .update _ _ _ => true
  | .decodeBitLogp _ => true
  | .decodeUint _ => true
  | .decodeBits _ => true

theorem commandIf_true (why : Refusal) (i : Instr) (checks : List (Bool × Cause)) (effect : State × BitVec 32) (s : State) :
    commandIf true why i checks effect s = command i checks effect s := by simp [commandIf]

/-- Every arm of `exec` is one `command` of its checks and its effect, where it has a meaning. -/
theorem exec_eq_command (i : Instr) (s : State) :
    exec i s = commandIf (commandDefined i s) .nonconformingTable i (commandChecks i s) (commandEffect i s) s := by
  cases i <;> first | rfl | (simp only [commandDefined, commandIf_true]; rfl)

/-- A faulted block refuses every instruction (R305). -/
theorem exec_faulted {i : Instr} {s : State} (h : s.fault = true) : exec i s = .next s.refuseWord := by
  rw [exec_eq_command, commandIf, if_neg (by simp [h]), command, if_pos h]

/-- A failing check is fault entry and nothing else (R302). -/
theorem exec_raises {i : Instr} {s : State} {c : Cause} (h : s.fault = false)
    (hc : firstFault (commandChecks i s) = some c) : exec i s = .next (s.enterFault c (encode i)) := by
  rw [exec_eq_command, commandIf, if_neg (by simp [hc]), command, if_neg (by simp [h]), hc]

/-- An instruction with a meaning, none of whose checks fails, completes with its effect. -/
theorem exec_completes {i : Instr} {s : State} (h : s.fault = false) (hd : commandDefined i s = true)
    (hc : firstFault (commandChecks i s) = none) :
    exec i s = .next ((commandEffect i s).1.respond .ok (commandEffect i s).2) := by
  rw [exec_eq_command, hd, commandIf_true, command, if_neg (by simp [h]), hc]

/-- A table command outside R230 (b), (c), none of whose checks fails, is refused by the model (R239). -/
theorem exec_undefined {i : Instr} {s : State} (h : s.fault = false) (hd : commandDefined i s = false)
    (hc : firstFault (commandChecks i s) = none) : exec i s = .refused .nonconformingTable := by
  rw [exec_eq_command, commandIf, if_pos (by simp [h, hd, hc])]

/-- Everything an instruction can answer: refused while faulted, a fault, its effect, or no meaning. -/
theorem exec_outcomes (i : Instr) (s : State) :
    (s.fault = true ∧ exec i s = .next s.refuseWord) ∨
      (s.fault = false ∧ ∃ c, firstFault (commandChecks i s) = some c ∧ exec i s = .next (s.enterFault c (encode i))) ∨
      (s.fault = false ∧ firstFault (commandChecks i s) = none ∧ commandDefined i s = true ∧
        exec i s = .next ((commandEffect i s).1.respond .ok (commandEffect i s).2)) ∨
      (s.fault = false ∧ firstFault (commandChecks i s) = none ∧ commandDefined i s = false ∧
        exec i s = .refused .nonconformingTable) := by
  rcases Bool.eq_false_or_eq_true s.fault with hf | hf
  · exact .inl ⟨hf, exec_faulted hf⟩
  · cases hc : firstFault (commandChecks i s) with
    | some c => exact .inr (.inl ⟨hf, c, rfl, exec_raises hf hc⟩)
    | none =>
      rcases Bool.eq_false_or_eq_true (commandDefined i s) with hd | hd
      · exact .inr (.inr (.inl ⟨hf, rfl, hd, exec_completes hf hd hc⟩))
      · exact .inr (.inr (.inr ⟨hf, rfl, hd, exec_undefined hf hd hc⟩))

/-- Every next state an instruction can answer with: refused, a fault, or its effect. -/
theorem exec_cases {i : Instr} {s t : State} (h : exec i s = .next t) :
    (s.fault = true ∧ t = s.refuseWord) ∨
      (s.fault = false ∧ ∃ c, firstFault (commandChecks i s) = some c ∧ t = s.enterFault c (encode i)) ∨
      (s.fault = false ∧ firstFault (commandChecks i s) = none ∧ commandDefined i s = true ∧
        t = (commandEffect i s).1.respond .ok (commandEffect i s).2) := by
  rcases exec_outcomes i s with ⟨hf, e⟩ | ⟨hf, c, hc, e⟩ | ⟨hf, hc, hd, e⟩ | ⟨_, _, _, e⟩ <;> rw [e] at h <;> cases h
  · exact .inl ⟨hf, rfl⟩
  · exact .inr (.inl ⟨hf, c, hc, rfl⟩)
  · exact .inr (.inr ⟨hf, hc, hd, rfl⟩)

/-- A faulted block refuses a word that does not decode (R305). -/
theorem rejectWord_faulted {c : Cause} {w : CmdWord} {s : State} (h : s.fault = true) :
    rejectWord c w s = .next s.refuseWord := by rw [rejectWord, if_pos h]

/-- A word that does not decode is fault entry (R106, R302). -/
theorem rejectWord_enters {c : Cause} {w : CmdWord} {s : State} (h : s.fault = false) :
    rejectWord c w s = .next (s.enterFault c w) := by rw [rejectWord, if_neg (by simp [h])]

/-! ## The first failing check -/

@[simp] theorem firstFault_nil : firstFault [] = none := rfl

@[simp] theorem firstFault_cons (b : Bool) (c : Cause) (rest : List (Bool × Cause)) :
    firstFault ((b, c) :: rest) = if b then some c else firstFault rest := rfl

/-- No check fails exactly when every condition is false. -/
theorem firstFault_eq_none {checks : List (Bool × Cause)} :
    firstFault checks = none ↔ ∀ x ∈ checks, x.1 = false := by
  induction checks with
  | nil => simp
  | cons x rest ih =>
    obtain ⟨b, c⟩ := x
    cases b <;> simp [ih]

/-- The cause reported is one of the checks', and its condition holds. -/
theorem firstFault_mem {checks : List (Bool × Cause)} {c : Cause} (h : firstFault checks = some c) :
    (true, c) ∈ checks := by
  induction checks with
  | nil => simp at h
  | cons x rest ih =>
    obtain ⟨b, d⟩ := x
    cases b
    · simp at h; exact List.mem_cons_of_mem _ (ih h)
    · simp at h; simp [h]

/-- The codes of the causes are 1 to 11 (R303). -/
theorem causeCode_range (c : Cause) : 1 ≤ (causeCode c).toNat ∧ (causeCode c).toNat ≤ 11 := by
  cases c <;> decide

/-! ## The step -/

/-- A word that decodes runs its instruction. -/
theorem runWord_ok {w : CmdWord} {i : Instr} {s : State} (hp : s.resetDue = false) (h : decode w = .ok i) :
    runWord w s = exec i s.nextDraw := by
  rw [runWord, if_neg (by simp [hp]), h]

/-- A word that does not decode is rejected by the cause decoding gives (R106). -/
theorem runWord_error {w : CmdWord} {c : Cause} {s : State} (hp : s.resetDue = false) (h : decode w = .error c) :
    runWord w s = rejectWord c w s.nextDraw := by
  rw [runWord, if_neg (by simp [hp]), h]

/-- A block that must be reset answers a word without executing it (R315). -/
theorem runWord_unreset {w : CmdWord} {s : State} (hp : s.resetDue = true) :
    runWord w s = .next s.nextDraw.answerUnreset := by rw [runWord, if_pos hp]

/-- Everything a word can answer with a next state. -/
theorem runWord_cases {w : CmdWord} {s t : State} (h : runWord w s = .next t) :
    (s.resetDue = true ∧ t = s.nextDraw.answerUnreset) ∨
      (s.resetDue = false ∧ ∃ i, decode w = .ok i ∧ exec i s.nextDraw = .next t) ∨
      (s.resetDue = false ∧ ∃ c, decode w = .error c ∧
        t = if s.fault then s.nextDraw.refuseWord else s.nextDraw.enterFault c w) := by
  cases hp : s.resetDue with
  | true =>
    rw [runWord_unreset hp] at h
    exact .inl ⟨rfl, by injection h with h; exact h.symm⟩
  | false =>
    cases hd : decode w with
    | ok i => exact .inr (.inl ⟨rfl, i, rfl, by rw [← runWord_ok hp hd]; exact h⟩)
    | error c =>
      rw [runWord_error hp hd] at h
      refine .inr (.inr ⟨rfl, c, rfl, ?_⟩)
      rcases Bool.eq_false_or_eq_true s.fault with hf | hf
      · rw [rejectWord_faulted (s := s.nextDraw) hf] at h
        rw [hf]; injection h with h; exact h.symm
      · rw [rejectWord_enters (s := s.nextDraw) hf] at h
        rw [hf]; injection h with h; exact h.symm

/-- With no host event the step holds the state (R315). -/
theorem step_idle {s : State} (h : s.input = []) : step s = .next s := by simp only [step, h]

/-- The step takes the next host event. -/
theorem step_event {s : State} {e : HostEvent} {rest : List HostEvent} (h : s.input = e :: rest) :
    step s = stepEvent e (s.setInput rest) := by simp only [step, h]

/-- Everything a step can answer with a next state. -/
theorem step_cases {s t : State} (h : step s = .next t) :
    (s.input = [] ∧ t = s) ∨
      ∃ e rest, s.input = e :: rest ∧
        ((∃ w, e = .command w ∧ runWord w (s.setInput rest) = .next t) ∨
        (e = .reset ∧ t = (s.setInput rest).resetBlock) ∨
        (e = .powerLoss ∧ t = (s.setInput rest).losePower) ∨
        (e = .acceptResponse ∧ t = (s.setInput rest).acceptResponse) ∨
        (∃ bytes, e = .bindStream bytes ∧ t = (s.setInput rest).bindStream bytes) ∨
        (∃ a b, e = .writeStream a b ∧ t = (s.setInput rest).writeStream a b) ∨
        (∃ a b, e = .writeTable a b ∧ t = (s.setInput rest).writeTable a b)) := by
  cases hi : s.input with
  | nil =>
    rw [step_idle hi] at h
    exact .inl ⟨rfl, by injection h with h; exact h.symm⟩
  | cons e rest =>
    rw [step_event hi] at h
    refine .inr ⟨e, rest, rfl, ?_⟩
    cases e with
    | command w => exact .inl ⟨w, rfl, h⟩
    | reset => injection h with h; exact .inr (.inl ⟨rfl, h.symm⟩)
    | powerLoss => injection h with h; exact .inr (.inr (.inl ⟨rfl, h.symm⟩))
    | acceptResponse => injection h with h; exact .inr (.inr (.inr (.inl ⟨rfl, h.symm⟩)))
    | bindStream bytes => injection h with h; exact .inr (.inr (.inr (.inr (.inl ⟨bytes, rfl, h.symm⟩))))
    | writeStream a b => injection h with h; exact .inr (.inr (.inr (.inr (.inr (.inl ⟨a, b, rfl, h.symm⟩)))))
    | writeTable a b => injection h with h; exact .inr (.inr (.inr (.inr (.inr (.inr ⟨a, b, rfl, h.symm⟩)))))
    | neverAnswers => simp [stepEvent] at h

end Sys2Proof.Machine
end

