-- ==== Sys2Proof/Laws/Decode.lean ====
section
/-! SUPPORT. The fields of a packed word, and the word its fields pack to (spec/30_encoding.md R100 to R102). -/

namespace Sys2Proof

/-- The number a packed word is: A, B, NS, RSV = 0 and OP at their places (R100). -/
theorem packWord_toNat (op : BitVec 5) (ns : BitVec 8) (b : BitVec 16) (a : BitVec 32) :
    (packWord op ns b a).toNat = a.toNat * 2 ^ 32 + b.toNat * 2 ^ 16 + ns.toNat * 2 ^ 8 + op.toNat := by
  have h1 := op.isLt
  have h2 := ns.isLt
  have h3 := b.isLt
  have h0 : (0 : BitVec 3).toNat = 0 := rfl
  simp only [packWord, BitVec.toNat_append, h0]
  rw [← Nat.shiftLeft_add_eq_or_of_lt h3, ← Nat.shiftLeft_add_eq_or_of_lt h2,
    ← Nat.shiftLeft_add_eq_or_of_lt (show 0 < 2 ^ 3 by decide), ← Nat.shiftLeft_add_eq_or_of_lt h1]
  simp only [Nat.shiftLeft_eq]
  omega

@[simp] theorem fieldOp_packWord (op : BitVec 5) (ns : BitVec 8) (b : BitVec 16) (a : BitVec 32) :
    fieldOp (packWord op ns b a) = op := by
  apply BitVec.eq_of_toNat_eq
  have h1 := op.isLt
  have h2 := ns.isLt
  simp only [fieldOp, BitVec.extractLsb'_toNat, packWord_toNat, Nat.shiftRight_eq_div_pow]
  omega

@[simp] theorem fieldNs_packWord (op : BitVec 5) (ns : BitVec 8) (b : BitVec 16) (a : BitVec 32) :
    fieldNs (packWord op ns b a) = ns := by
  apply BitVec.eq_of_toNat_eq
  have h1 := op.isLt
  have h2 := ns.isLt
  simp only [fieldNs, BitVec.extractLsb'_toNat, packWord_toNat, Nat.shiftRight_eq_div_pow]
  omega

@[simp] theorem fieldB_packWord (op : BitVec 5) (ns : BitVec 8) (b : BitVec 16) (a : BitVec 32) :
    fieldB (packWord op ns b a) = b := by
  apply BitVec.eq_of_toNat_eq
  have h1 := op.isLt
  have h2 := ns.isLt
  have h3 := b.isLt
  simp only [fieldB, BitVec.extractLsb'_toNat, packWord_toNat, Nat.shiftRight_eq_div_pow]
  omega

@[simp] theorem fieldA_packWord (op : BitVec 5) (ns : BitVec 8) (b : BitVec 16) (a : BitVec 32) :
    fieldA (packWord op ns b a) = a := by
  apply BitVec.eq_of_toNat_eq
  have h1 := op.isLt
  have h2 := ns.isLt
  have h3 := b.isLt
  have h4 := a.isLt
  simp only [fieldA, BitVec.extractLsb'_toNat, packWord_toNat, Nat.shiftRight_eq_div_pow]
  omega

theorem packBounds_toNat (fl fh : BitVec 16) : (packBounds fl fh).toNat = fh.toNat * 2 ^ 16 + fl.toNat := by
  have h1 := fl.isLt
  simp only [packBounds, BitVec.toNat_append]
  rw [← Nat.shiftLeft_add_eq_or_of_lt h1]
  simp only [Nat.shiftLeft_eq]

@[simp] theorem fieldFl_packWord (op : BitVec 5) (ns : BitVec 8) (b fl fh : BitVec 16) :
    fieldFl (packWord op ns b (packBounds fl fh)) = fl := by
  apply BitVec.eq_of_toNat_eq
  have h1 := op.isLt
  have h2 := ns.isLt
  have h3 := b.isLt
  have h4 := fl.isLt
  simp only [fieldFl, BitVec.extractLsb'_toNat, packWord_toNat, packBounds_toNat, Nat.shiftRight_eq_div_pow]
  omega

@[simp] theorem fieldFh_packWord (op : BitVec 5) (ns : BitVec 8) (b fl fh : BitVec 16) :
    fieldFh (packWord op ns b (packBounds fl fh)) = fh := by
  apply BitVec.eq_of_toNat_eq
  have h1 := op.isLt
  have h2 := ns.isLt
  have h3 := b.isLt
  have h4 := fl.isLt
  have h5 := fh.isLt
  simp only [fieldFh, BitVec.extractLsb'_toNat, packWord_toNat, packBounds_toNat, Nat.shiftRight_eq_div_pow]
  omega

/-- `NS = NSYMS − 1` gives NSYMS back, for a number of symbols that fits (R101). -/
theorem nsyms_packNsyms {n : Nat} (h1 : 1 ≤ n) (h2 : n ≤ 256) : (packNsyms n).toNat + 1 = n := by
  simp only [packNsyms, BitVec.toNat_ofNat]
  omega

/-- The reserved field RSV, bits 7:5 (R100). -/
def fieldRsv (w : CmdWord) : BitVec 3 := w.extractLsb' 5 3

@[simp] theorem fieldRsv_packWord (op : BitVec 5) (ns : BitVec 8) (b : BitVec 16) (a : BitVec 32) :
    fieldRsv (packWord op ns b a) = 0 := by
  apply BitVec.eq_of_toNat_eq
  have h1 := op.isLt
  have h2 := ns.isLt
  have h0 : (0 : BitVec 3).toNat = 0 := rfl
  simp only [fieldRsv, BitVec.extractLsb'_toNat, packWord_toNat, Nat.shiftRight_eq_div_pow, h0]
  omega

/-- A word is the number its fields make (R100). -/
theorem word_toNat (w : CmdWord) :
    w.toNat = (fieldA w).toNat * 2 ^ 32 + (fieldB w).toNat * 2 ^ 16 + (fieldNs w).toNat * 2 ^ 8 +
      (fieldRsv w).toNat * 2 ^ 5 + (fieldOp w).toNat := by
  have h := w.isLt
  simp only [fieldA, fieldB, fieldNs, fieldRsv, fieldOp, BitVec.extractLsb'_toNat, Nat.shiftRight_eq_div_pow]
  omega

/-- A word whose reserved field is zero is packed from its fields (R100). -/
theorem packWord_fields {w : CmdWord} (h : fieldRsv w = 0) : packWord (fieldOp w) (fieldNs w) (fieldB w) (fieldA w) = w := by
  apply BitVec.eq_of_toNat_eq
  rw [packWord_toNat, word_toNat w, h]
  simp

/-- The A field of a word is its FH above its FL (R100). -/
theorem packBounds_fields (w : CmdWord) : packBounds (fieldFl w) (fieldFh w) = fieldA w := by
  apply BitVec.eq_of_toNat_eq
  have h := w.isLt
  rw [packBounds_toNat]
  simp only [fieldA, fieldFl, fieldFh, BitVec.extractLsb'_toNat, Nat.shiftRight_eq_div_pow]
  omega

/-! ## Must-be-zero masks (R106) -/

/-- A word and a mask share no bit exactly when the word's bits are 0 where the mask's are 1. -/
theorem and_eq_zero_iff (w m : CmdWord) : w &&& m = 0 ↔ ∀ i < 64, m.getLsbD i = true → w.getLsbD i = false := by
  constructor
  · intro h i _ hm
    have := congrArg (fun x => BitVec.getLsbD x i) h
    simpa [hm] using this
  · intro h
    apply BitVec.eq_of_getLsbD_eq
    intro i hi
    rw [BitVec.getLsbD_and]
    cases hm : m.getLsbD i with
    | true => simp [h i hi hm]
    | false => simp

/-- A field is zero exactly when its bits are. -/
theorem extractLsb'_eq_zero_iff (w : CmdWord) (lo n : Nat) :
    w.extractLsb' lo n = 0 ↔ ∀ i < n, w.getLsbD (lo + i) = false := by
  constructor
  · intro h i hi
    have := congrArg (fun x => BitVec.getLsbD x i) h
    simpa [hi] using this
  · intro h
    apply BitVec.eq_of_getLsbD_eq
    intro i hi
    simp [hi, h i hi]

/-- Format Z: RSV, NS, B and A are zero (R102, R106). -/
theorem zeroMask_z_iff (w : CmdWord) :
    w &&& zeroMask .z = 0 ↔ fieldRsv w = 0 ∧ fieldNs w = 0 ∧ fieldB w = 0 ∧ fieldA w = 0 := by
  have hm : ∀ i < 64, (zeroMask .z).getLsbD i = decide (5 ≤ i) := by decide
  simp only [and_eq_zero_iff, fieldRsv, fieldNs, fieldB, fieldA, extractLsb'_eq_zero_iff]
  constructor
  · intro h
    exact ⟨fun i hi => h _ (by omega) (by rw [hm _ (by omega)]; simp), fun i hi => h _ (by omega) (by rw [hm _ (by omega)]; simp; omega),
      fun i hi => h _ (by omega) (by rw [hm _ (by omega)]; simp; omega), fun i hi => h _ (by omega) (by rw [hm _ (by omega)]; simp; omega)⟩
  · rintro ⟨h1, h2, h3, h4⟩ i hi hmi
    rw [hm i hi, decide_eq_true_eq] at hmi
    rcases Nat.lt_or_ge i 8 with h | h
    · simpa [Nat.add_sub_cancel' hmi] using h1 (i - 5) (by omega)
    rcases Nat.lt_or_ge i 16 with h' | h'
    · simpa [Nat.add_sub_cancel' h] using h2 (i - 8) (by omega)
    rcases Nat.lt_or_ge i 32 with h'' | h''
    · simpa [Nat.add_sub_cancel' h'] using h3 (i - 16) (by omega)
    · simpa [Nat.add_sub_cancel' h''] using h4 (i - 32) (by omega)

/-- Format B: RSV, NS and A are zero (R102, R106). -/
theorem zeroMask_b_iff (w : CmdWord) :
    w &&& zeroMask .b = 0 ↔ fieldRsv w = 0 ∧ fieldNs w = 0 ∧ fieldA w = 0 := by
  have hm : ∀ i < 64, (zeroMask .b).getLsbD i = (decide (5 ≤ i) && (decide (i < 16) || decide (32 ≤ i))) := by decide
  simp only [and_eq_zero_iff, fieldRsv, fieldNs, fieldA, extractLsb'_eq_zero_iff]
  constructor
  · intro h
    exact ⟨fun i hi => h _ (by omega) (by rw [hm _ (by omega)]; simp; omega), fun i hi => h _ (by omega) (by rw [hm _ (by omega)]; simp; omega),
      fun i hi => h _ (by omega) (by rw [hm _ (by omega)]; simp; omega)⟩
  · rintro ⟨h1, h2, h3⟩ i hi hmi
    rw [hm i hi] at hmi
    simp only [Bool.and_eq_true, Bool.or_eq_true, decide_eq_true_eq] at hmi
    rcases Nat.lt_or_ge i 8 with h | h
    · simpa [Nat.add_sub_cancel' hmi.1] using h1 (i - 5) (by omega)
    rcases Nat.lt_or_ge i 16 with h' | h'
    · simpa [Nat.add_sub_cancel' h] using h2 (i - 8) (by omega)
    · have h32 : 32 ≤ i := by omega
      simpa [Nat.add_sub_cancel' h32] using h3 (i - 32) (by omega)

/-- Format A: RSV, NS and B are zero (R102, R106). -/
theorem zeroMask_a_iff (w : CmdWord) :
    w &&& zeroMask .a = 0 ↔ fieldRsv w = 0 ∧ fieldNs w = 0 ∧ fieldB w = 0 := by
  have hm : ∀ i < 64, (zeroMask .a).getLsbD i = (decide (5 ≤ i) && decide (i < 32)) := by decide
  simp only [and_eq_zero_iff, fieldRsv, fieldNs, fieldB, extractLsb'_eq_zero_iff]
  constructor
  · intro h
    exact ⟨fun i hi => h _ (by omega) (by rw [hm _ (by omega)]; simp; omega), fun i hi => h _ (by omega) (by rw [hm _ (by omega)]; simp; omega),
      fun i hi => h _ (by omega) (by rw [hm _ (by omega)]; simp; omega)⟩
  · rintro ⟨h1, h2, h3⟩ i hi hmi
    rw [hm i hi] at hmi
    simp only [Bool.and_eq_true, decide_eq_true_eq] at hmi
    rcases Nat.lt_or_ge i 8 with h | h
    · simpa [Nat.add_sub_cancel' hmi.1] using h1 (i - 5) (by omega)
    rcases Nat.lt_or_ge i 16 with h' | h'
    · simpa [Nat.add_sub_cancel' h] using h2 (i - 8) (by omega)
    · simpa [Nat.add_sub_cancel' h'] using h3 (i - 16) (by omega)

/-- Format U: RSV and NS are zero (R102, R106). -/
theorem zeroMask_u_iff (w : CmdWord) : w &&& zeroMask .u = 0 ↔ fieldRsv w = 0 ∧ fieldNs w = 0 := by
  have hm : ∀ i < 64, (zeroMask .u).getLsbD i = (decide (5 ≤ i) && decide (i < 16)) := by decide
  simp only [and_eq_zero_iff, fieldRsv, fieldNs, extractLsb'_eq_zero_iff]
  constructor
  · intro h
    exact ⟨fun i hi => h _ (by omega) (by rw [hm _ (by omega)]; simp; omega), fun i hi => h _ (by omega) (by rw [hm _ (by omega)]; simp; omega)⟩
  · rintro ⟨h1, h2⟩ i hi hmi
    rw [hm i hi] at hmi
    simp only [Bool.and_eq_true, decide_eq_true_eq] at hmi
    rcases Nat.lt_or_ge i 8 with h | h
    · simpa [Nat.add_sub_cancel' hmi.1] using h1 (i - 5) (by omega)
    · simpa [Nat.add_sub_cancel' h] using h2 (i - 8) (by omega)

/-- Format T: RSV is zero (R102, R106). -/
theorem zeroMask_t_iff (w : CmdWord) : w &&& zeroMask .t = 0 ↔ fieldRsv w = 0 := by
  have hm : ∀ i < 64, (zeroMask .t).getLsbD i = (decide (5 ≤ i) && decide (i < 8)) := by decide
  simp only [and_eq_zero_iff, fieldRsv, extractLsb'_eq_zero_iff]
  constructor
  · intro h i hi
    exact h _ (by omega) (by rw [hm _ (by omega)]; simp; omega)
  · intro h1 i hi hmi
    rw [hm i hi] at hmi
    simp only [Bool.and_eq_true, decide_eq_true_eq] at hmi
    simpa [Nat.add_sub_cancel' hmi.1] using h1 (i - 5) (by omega)

/-! ## The decoding procedure (R106) -/

/-- A word of a defined opcode with its format's other bits zero decodes to the opcode's instruction. -/
theorem decode_eq_ok {w : CmdWord} {f : Format} {i : Instr} (hf : formatOf (fieldOp w).toNat = some f)
    (hi : instrOf (fieldOp w).toNat w = some i) (hz : w &&& zeroMask f = 0) : decode w = .ok i := by
  simp only [decode, hf, hi, if_pos hz]

/-- A word of a defined opcode with another bit set is RESERVED_FIELD_NONZERO. -/
theorem decode_eq_reserved {w : CmdWord} {f : Format} {i : Instr} (hf : formatOf (fieldOp w).toNat = some f)
    (hi : instrOf (fieldOp w).toNat w = some i) (hz : w &&& zeroMask f ≠ 0) :
    decode w = .error .reservedFieldNonzero := by
  simp only [decode, hf, hi, if_neg hz]

/-- A word of a reserved opcode is ILLEGAL_OPCODE. -/
theorem decode_eq_illegal {w : CmdWord} (hf : formatOf (fieldOp w).toNat = none) : decode w = .error .illegalOpcode := by
  simp only [decode, hf]

/-- The opcode of a word as a number. -/
theorem fieldOp_toNat (w : CmdWord) : (fieldOp w).toNat = w.toNat % 32 := by
  simp [fieldOp]

end Sys2Proof
end

