-- ==== Sys2Proof/Laws/Range.lean ====
section
/-! SUPPORT. The arithmetic of the range decoder: `ilog` and the renormalization shift, the lookup shift, the
map `spread` of scaled frequencies into the range, and the lookup as its inverse (spec/40 R145, spec/41 R171,
spec/42 R201). -/

namespace Sys2Proof.Machine

/-! ## `ilog` and the renormalization shift -/

/-- A nonzero number lies between the powers of two its bit length names. -/
theorem ilog_bounds {x : Nat} (h : 1 ≤ x) : 1 ≤ ilog x ∧ 2 ^ (ilog x - 1) ≤ x ∧ x < 2 ^ ilog x := by
  have h0 : x ≠ 0 := by omega
  simp only [ilog, if_neg h0, Nat.add_sub_cancel]
  exact ⟨by omega, Nat.log2_self_le h0, Nat.lt_log2_self⟩

/-- A number below `2^n` has at most `n` bits. -/
theorem ilog_le {x n : Nat} (h : x < 2 ^ n) : ilog x ≤ n := by
  by_cases h0 : x = 0
  · simp [ilog, h0]
  · have := (Nat.log2_lt h0).mpr h
    simp only [ilog, if_neg h0]
    omega

/-- A number from `2^n` on has more than `n` bits. -/
theorem lt_ilog {x n : Nat} (h : 2 ^ n ≤ x) : n < ilog x := by
  have hx : 1 ≤ x := Nat.le_trans Nat.one_le_two_pow h
  by_contra hc
  have := (ilog_bounds hx).2.2
  have h2 : 2 ^ ilog x ≤ 2 ^ n := Nat.pow_le_pow_right (by omega) (by omega)
  omega

/-- The renormalization shift brings a range into `[32768, 65536)` (R145). -/
theorem renormShift_spec {rng : Nat} (h1 : 1 ≤ rng) (h2 : rng ≤ 65535) :
    renormShift rng ≤ 15 ∧ 32768 ≤ rng <<< renormShift rng ∧ rng <<< renormShift rng < 65536 := by
  obtain ⟨ha, hb, hc⟩ := ilog_bounds h1
  have hn : ilog rng ≤ 16 := ilog_le (by omega)
  have e1 : (2 : Nat) ^ (ilog rng - 1) * 2 ^ (16 - ilog rng) = 2 ^ 15 := by
    rw [← Nat.pow_add]; congr 1; omega
  have e2 : (2 : Nat) ^ ilog rng * 2 ^ (16 - ilog rng) = 2 ^ 16 := by
    rw [← Nat.pow_add]; congr 1; omega
  have p : 0 < 2 ^ (16 - ilog rng) := Nat.two_pow_pos _
  refine ⟨by simp only [renormShift]; omega, ?_, ?_⟩
  · have := Nat.mul_le_mul_right (2 ^ (16 - ilog rng)) hb
    rw [renormShift, Nat.shiftLeft_eq]; omega
  · have := (Nat.mul_lt_mul_right p).mpr hc
    rw [renormShift, Nat.shiftLeft_eq]; omega

/-- A range that is already normal is not shifted (R145). -/
theorem renormShift_normal {rng : Nat} (h1 : 32768 ≤ rng) : renormShift rng = 0 := by
  have := lt_ilog (x := rng) (n := 15) (by omega)
  simp only [renormShift]; omega

/-- Only one shift brings a range into `[32768, 65536)`. -/
theorem renormShift_unique {rng d : Nat} (h1 : 32768 ≤ rng <<< d) (h2 : rng <<< d < 65536) : renormShift rng = d := by
  rw [Nat.shiftLeft_eq] at h1 h2
  have hr : 1 ≤ rng := by
    rcases Nat.eq_zero_or_pos rng with h | h
    · subst h; omega
    · exact h
  have hd : d ≤ 15 := by
    by_contra hc
    have : 2 ^ 16 ≤ 2 ^ d := Nat.pow_le_pow_right (by omega) (by omega)
    nlinarith
  have e : (2 : Nat) ^ (15 - d) * 2 ^ d = 2 ^ 15 := by rw [← Nat.pow_add]; congr 1; omega
  have e' : (2 : Nat) ^ (16 - d) * 2 ^ d = 2 ^ 16 := by rw [← Nat.pow_add]; congr 1; omega
  have p : 0 < 2 ^ d := Nat.two_pow_pos _
  have a : 2 ^ (15 - d) ≤ rng := by
    by_contra hc
    have := (Nat.mul_lt_mul_right p).mpr (Nat.lt_of_not_le hc)
    omega
  have b : rng < 2 ^ (16 - d) := by
    by_contra hc
    have := Nat.mul_le_mul_right (2 ^ d) (Nat.le_of_not_lt hc)
    omega
  have := lt_ilog a
  have := ilog_le b
  simp only [renormShift]; omega

/-! ## The lookup shift -/

/-- The lookup shift is the largest that keeps the scaled total within the range (R170, R171). -/
theorem lookupShift_spec {r ft : Nat} (h1 : 1 ≤ ft) (h2 : ft ≤ r) (h3 : r < 65536) :
    lookupShift r ft ≤ 15 ∧ ft <<< lookupShift r ft ≤ r ∧ r < 2 * (ft <<< lookupShift r ft) := by
  have hq : r / ft ≠ 0 := by have := Nat.div_pos h2 h1; omega
  have hle : r / ft < 2 ^ 16 := Nat.lt_of_le_of_lt (Nat.div_le_self r ft) h3
  have a := Nat.log2_self_le hq
  have b := Nat.lt_log2_self (n := r / ft)
  rw [lookupShift]
  refine ⟨Nat.le_of_lt_succ ((Nat.log2_lt hq).mpr hle), ?_, ?_⟩
  · rw [Nat.shiftLeft_eq, Nat.mul_comm]
    exact (Nat.le_div_iff_mul_le h1).mp a
  · have := (Nat.div_lt_iff_lt_mul h1).mp b
    rw [Nat.shiftLeft_eq]
    rw [Nat.pow_succ] at this
    linarith

/-- Only one shift has the scaled total between half the range and the range. -/
theorem lookupShift_unique {r ft k : Nat} (h3 : r < 65536) (hk : ft <<< k ≤ r) (hk2 : r < 2 * (ft <<< k)) :
    lookupShift r ft = k := by
  have p : 0 < 2 ^ k := Nat.two_pow_pos k
  have hf : 1 ≤ ft := by
    rcases Nat.eq_zero_or_pos ft with h | h
    · subst h; simp at hk2
    · exact h
  have hfr : ft ≤ r := by rw [Nat.shiftLeft_eq] at hk; nlinarith
  obtain ⟨_, a, b⟩ := lookupShift_spec hf hfr h3
  have key : ∀ i j : Nat, ft <<< i ≤ r → r < 2 * (ft <<< j) → i ≤ j := by
    intro i j hi hj
    by_contra hc
    have h2 : 2 ^ (j + 1) ≤ 2 ^ i := Nat.pow_le_pow_right (by omega) (by omega)
    rw [Nat.shiftLeft_eq] at hi hj
    rw [Nat.pow_succ] at h2
    have := Nat.mul_le_mul_left ft h2
    nlinarith
  exact Nat.le_antisymm (key _ _ a hk2) (key _ _ hk b)

/-! ## The map `spread` -/

@[simp] theorem spread_zero (d : Nat) : spread d 0 = 0 := by simp [spread]

/-- `g` is strictly increasing (R201). -/
theorem spread_lt_spread {d x y : Nat} (h : x < y) : spread d x < spread d y := by
  simp only [spread]; omega

/-- `g` reflects order. -/
theorem spread_le_spread {d x y : Nat} : spread d x ≤ spread d y ↔ x ≤ y := by
  simp only [spread]; omega

/-- `g(ft') = r` (R201). -/
theorem spread_total {r ftp : Nat} (h1 : ftp ≤ r) (h2 : r < 2 * ftp) : spread (r - ftp) ftp = r := by
  simp only [spread]; omega

/-- The quotient of a lookup is the place of the position under `g`: `g(q) ≤ c < g(q + 1)` (R171). -/
theorem spread_quotient (c d : Nat) : spread d (lookupQuotient c d) ≤ c ∧ c < spread d (lookupQuotient c d + 1) := by
  simp only [spread, lookupQuotient, Nat.shiftRight_eq_div_pow]
  split <;> omega

/-- `g(x) ≤ c` exactly when `x` is at most the quotient. -/
theorem spread_le_iff {c d x : Nat} : spread d x ≤ c ↔ x ≤ lookupQuotient c d := by
  obtain ⟨h1, h2⟩ := spread_quotient c d
  constructor
  · intro h
    by_contra hc
    have : spread d (lookupQuotient c d + 1) ≤ spread d x := spread_le_spread.mpr (by omega)
    omega
  · intro h
    have := (spread_le_spread (d := d)).mpr h
    omega

/-- The quotient of a position in the range is below the scaled total (R171). -/
theorem lookupQuotient_lt {r c ftp : Nat} (h1 : ftp ≤ r) (h2 : r < 2 * ftp) (hc : c < r) :
    lookupQuotient c (r - ftp) < ftp := by
  by_contra h
  have := (spread_le_iff (c := c) (d := r - ftp) (x := ftp)).mpr (Nat.le_of_not_lt h)
  rw [spread_total h1 h2] at this
  omega

/-! ## Lookup and Narrow -/

/-- The shift a lookup gives. -/
theorem lookup_shift (r c ft : Nat) : (lookup r c ft).2 = lookupShift r ft := rfl

/-- What `Lookup(ft)` gives (R170, R171). -/
theorem lookup_spec {r c ft : Nat} (h1 : 1 ≤ ft) (h2 : ft ≤ r) (h3 : r < 65536) (hc : c < r) :
    (lookup r c ft).2 ≤ 15 ∧ ft <<< (lookup r c ft).2 ≤ r ∧ r < 2 * (ft <<< (lookup r c ft).2) ∧
      (lookup r c ft).1 < ft := by
  obtain ⟨a, b, d⟩ := lookupShift_spec h1 h2 h3
  have hq := lookupQuotient_lt b d hc
  simp only [lookup]
  refine ⟨a, b, d, ?_⟩
  generalize lookupQuotient c (r - ft <<< lookupShift r ft) = q at hq ⊢
  generalize lookupShift r ft = k at hq ⊢
  rw [Nat.shiftRight_eq_div_pow]
  rw [Nat.shiftLeft_eq] at hq
  exact (Nat.div_lt_iff_lt_mul (Nat.two_pow_pos k)).mpr hq

/-- The sub-range of `[fl, fh)` contains the position exactly when `[fl, fh)` contains the probe (R202). -/
theorem narrow_contains_iff {r c ft fl fh : Nat} :
    ((narrow r fl fh ft (lookup r c ft).2).1 ≤ c ∧ c < (narrow r fl fh ft (lookup r c ft).2).2) ↔
      (fl ≤ (lookup r c ft).1 ∧ (lookup r c ft).1 < fh) := by
  simp only [narrow, lookup]
  rw [spread_le_iff, Nat.shiftRight_eq_div_pow, Nat.shiftLeft_eq, Nat.shiftLeft_eq fh]
  have p : 0 < 2 ^ lookupShift r ft := Nat.two_pow_pos _
  rw [← Nat.not_le, spread_le_iff, Nat.not_le, Nat.le_div_iff_mul_le p, Nat.div_lt_iff_lt_mul p]

/-- The sub-range of a nonempty interval of frequencies is nonempty and lies in the range (R201). -/
theorem narrow_bounds {r ft fl fh k : Nat} (h1 : fl < fh) (h2 : fh ≤ ft) (hk : ft <<< k ≤ r) (hk2 : r < 2 * (ft <<< k)) :
    (narrow r fl fh ft k).1 < (narrow r fl fh ft k).2 ∧ (narrow r fl fh ft k).2 ≤ r := by
  simp only [narrow]
  have p : 0 < 2 ^ k := Nat.two_pow_pos k
  refine ⟨spread_lt_spread ?_, ?_⟩
  · rw [Nat.shiftLeft_eq, Nat.shiftLeft_eq]; exact (Nat.mul_lt_mul_right p).mpr h1
  · have : spread (r - ft <<< k) (fh <<< k) ≤ spread (r - ft <<< k) (ft <<< k) := by
      rw [spread_le_spread, Nat.shiftLeft_eq, Nat.shiftLeft_eq]; exact Nat.mul_le_mul_right _ h2
    rwa [spread_total hk hk2] at this

end Sys2Proof.Machine
end

