-- ==== Sys2Proof/Laws/Refill.lean ====
section
/-! SUPPORT. What `Refill` and `Renormalize` do (spec/40_init_and_renormalization.md R143 to R147). -/

namespace Sys2Proof.Machine

/-! ## One byte placed below the loaded bits -/

theorem byte_shift_lt (b : Byte) (n : Nat) : b.toNat <<< n < 2 ^ (n + 8) := by
  have := b.isLt
  rw [Nat.shiftLeft_eq, Nat.pow_add, Nat.mul_comm]
  exact (Nat.mul_lt_mul_left (Nat.two_pow_pos n)).mpr (by omega)

/-- A byte placed on bits that are zero adds (R144). -/
theorem or_byte_eq_add {val n : Nat} (b : Byte) (h : 2 ^ (n + 8) ∣ val) : val ||| (b.toNat <<< n) = val + b.toNat <<< n := by
  obtain ⟨a, rfl⟩ := h
  exact (Nat.two_pow_add_eq_or_of_lt (byte_shift_lt b n) a).symm

/-! ## The loop -/

/-- The loop moves the front cursor by one and the count by eight for each byte, and never past the buffer
(R143, R144). -/
theorem refillLoop_cursor (s : State) (n val : Nat) (cnt : Int) (fwd : Nat) :
    fwd ≤ (refillLoop s n val cnt fwd).2.2 ∧
      (refillLoop s n val cnt fwd).2.1 = cnt + 8 * (((refillLoop s n val cnt fwd).2.2 : Int) - fwd) ∧
      (refillLoop s n val cnt fwd).2.2 ≤ max fwd s.storage.toNat := by
  induction n generalizing val cnt fwd with
  | zero => simp [refillLoop]
  | succ n ih =>
    simp only [refillLoop]
    split
    · next h =>
      obtain ⟨a, b, c⟩ := ih (val ||| ((s.streamRead .forward fwd).toNat <<< (8 - cnt).toNat)) (cnt + 8) (fwd + 1)
      refine ⟨by omega, by rw [b]; push_cast; ring, by omega⟩
    · simp

/-- The loop stops with the window full or the buffer exhausted (R143). -/
theorem refillLoop_stops (s : State) (n val : Nat) (cnt : Int) (fwd : Nat) (hn : refillPasses cnt ≤ n) :
    8 < (refillLoop s n val cnt fwd).2.1 ∨ s.storage.toNat ≤ (refillLoop s n val cnt fwd).2.2 := by
  induction n generalizing val cnt fwd with
  | zero => simp only [refillPasses] at hn; simp only [refillLoop]; omega
  | succ n ih =>
    simp only [refillLoop]
    split
    · exact ih _ _ _ (by simp only [refillPasses] at hn ⊢; omega)
    · next h => simp only; omega

/-- The loop places no byte above count 16 (R143). -/
theorem refillLoop_count_le (s : State) (n val : Nat) (cnt : Int) (fwd : Nat) (hc : cnt ≤ 16) :
    (refillLoop s n val cnt fwd).2.1 ≤ 16 := by
  induction n generalizing val cnt fwd with
  | zero => simpa [refillLoop] using hc
  | succ n ih =>
    simp only [refillLoop]
    split
    · exact ih _ _ _ (by omega)
    · simpa using hc

/-- The loop only fills bits that were zero, and leaves the bits below the loaded ones zero (R144). -/
theorem refillLoop_value (s : State) (n val : Nat) (cnt : Int) (fwd : Nat) (hc : cnt ≤ 16)
    (hz : 2 ^ (16 - cnt).toNat ∣ val) :
    val ≤ (refillLoop s n val cnt fwd).1 ∧ (refillLoop s n val cnt fwd).1 < val + 2 ^ (16 - cnt).toNat ∧
      2 ^ (16 - (refillLoop s n val cnt fwd).2.1).toNat ∣ (refillLoop s n val cnt fwd).1 := by
  induction n generalizing val cnt fwd with
  | zero => exact ⟨Nat.le_refl _, Nat.lt_add_of_pos_right (Nat.two_pow_pos _), hz⟩
  | succ n ih =>
    simp only [refillLoop]
    split
    · next h =>
      have e : (16 - cnt).toNat = (8 - cnt).toNat + 8 := by omega
      have e2 : (16 - (cnt + 8)).toNat = (8 - cnt).toNat := by omega
      rw [e] at hz ⊢
      rw [or_byte_eq_add _ hz]
      have hb := byte_shift_lt (s.streamRead .forward fwd) (8 - cnt).toNat
      have hz' : 2 ^ (16 - (cnt + 8)).toNat ∣ val + (s.streamRead .forward fwd).toNat <<< (8 - cnt).toNat := by
        rw [e2]
        refine Nat.dvd_add (Nat.dvd_trans (Nat.pow_dvd_pow 2 (by omega)) hz) ?_
        rw [Nat.shiftLeft_eq]; exact Nat.dvd_mul_left _ _
      obtain ⟨a, b, c⟩ := ih _ (cnt + 8) (fwd + 1) (by omega) hz'
      refine ⟨Nat.le_trans (Nat.le_add_right _ _) a, ?_, c⟩
      rw [e2] at b
      have hbyte := (s.streamRead .forward fwd).isLt
      have : (s.streamRead .forward fwd).toNat <<< (8 - cnt).toNat + 2 ^ (8 - cnt).toNat ≤ 2 ^ ((8 - cnt).toNat + 8) := by
        rw [Nat.shiftLeft_eq, Nat.pow_add]
        nlinarith [Nat.two_pow_pos (8 - cnt).toNat]
      generalize (s.streamRead .forward fwd).toNat <<< (8 - cnt).toNat = x at *
      omega
    · exact ⟨Nat.le_refl _, Nat.lt_add_of_pos_right (Nat.two_pow_pos _), hz⟩

/-- The value the loop leaves: each byte read is added at its place (R143). -/
theorem refillLoop_sum (s : State) (n val : Nat) (cnt : Int) (fwd : Nat) (hc : cnt ≤ 16)
    (hz : 2 ^ (16 - cnt).toNat ∣ val) :
    (refillLoop s n val cnt fwd).1 =
      val + ∑ j ∈ Finset.range ((refillLoop s n val cnt fwd).2.2 - fwd),
        (s.streamRead .forward (fwd + j)).toNat * 2 ^ (8 - cnt - 8 * j).toNat := by
  induction n generalizing val cnt fwd with
  | zero => simp [refillLoop]
  | succ n ih =>
    simp only [refillLoop]
    split
    · next h =>
      have e : (16 - cnt).toNat = (8 - cnt).toNat + 8 := by omega
      have e2 : (16 - (cnt + 8)).toNat = (8 - cnt).toNat := by omega
      rw [e] at hz
      rw [or_byte_eq_add _ hz]
      have hz' : 2 ^ (16 - (cnt + 8)).toNat ∣ val + (s.streamRead .forward fwd).toNat <<< (8 - cnt).toNat := by
        rw [e2]
        refine Nat.dvd_add (Nat.dvd_trans (Nat.pow_dvd_pow 2 (by omega)) hz) ?_
        rw [Nat.shiftLeft_eq]; exact Nat.dvd_mul_left _ _
      have hcur := (refillLoop_cursor s n (val + (s.streamRead .forward fwd).toNat <<< (8 - cnt).toNat) (cnt + 8) (fwd + 1)).1
      rw [ih _ (cnt + 8) (fwd + 1) (by omega) hz']
      generalize (refillLoop s n (val + (s.streamRead .forward fwd).toNat <<< (8 - cnt).toNat) (cnt + 8) (fwd + 1)).2.2 = f at hcur ⊢
      obtain ⟨m, rfl⟩ : ∃ m, f = fwd + 1 + m := ⟨f - (fwd + 1), by omega⟩
      have : fwd + 1 + m - fwd = m + 1 := by omega
      rw [this, Finset.sum_range_succ', Nat.add_sub_cancel_left, Nat.shiftLeft_eq]
      simp only [Nat.add_zero, Nat.cast_zero, mul_zero, sub_zero]
      rw [Nat.add_assoc, Nat.add_comm ((s.streamRead .forward fwd).toNat * _)]
      congr 2
      refine Finset.sum_congr rfl fun j _ => ?_
      have i1 : fwd + 1 + j = fwd + (j + 1) := by omega
      have i2 : (8 - (cnt + 8) - 8 * (j : Int)).toNat = (8 - cnt - 8 * ((j + 1 : Nat) : Int)).toNat := by
        push_cast; omega
      rw [i1, i2]
    · simp

/-! ## Refill -/

theorem refill_eq (s : State) (val : Nat) (cnt : Int) (fwd : Nat) :
    refill s val cnt fwd =
      ((refillLoop s (refillPasses cnt) val cnt fwd).1,
        if s.storage.toNat ≤ (refillLoop s (refillPasses cnt) val cnt fwd).2.2 then (Config.lotsOfBits : Int)
        else (refillLoop s (refillPasses cnt) val cnt fwd).2.1,
        (refillLoop s (refillPasses cnt) val cnt fwd).2.2) := rfl

/-- `Refill` moves the front cursor forward and never past the buffer (R143, R144). -/
theorem refill_cursor (s : State) (val : Nat) (cnt : Int) (fwd : Nat) :
    fwd ≤ (refill s val cnt fwd).2.2 ∧ (refill s val cnt fwd).2.2 ≤ max fwd s.storage.toNat :=
  ⟨(refillLoop_cursor s _ val cnt fwd).1, (refillLoop_cursor s _ val cnt fwd).2.2⟩

/-- The count `Refill` leaves: the sentinel when the buffer is exhausted, else between 9 and 16 (R143). -/
theorem refill_count (s : State) (val : Nat) (cnt : Int) (fwd : Nat) (hc : cnt ≤ 16) :
    (s.storage.toNat ≤ (refill s val cnt fwd).2.2 ∧ (refill s val cnt fwd).2.1 = Config.lotsOfBits) ∨
      ((refill s val cnt fwd).2.2 < s.storage.toNat ∧ 9 ≤ (refill s val cnt fwd).2.1 ∧
        (refill s val cnt fwd).2.1 ≤ 16 ∧
        (refill s val cnt fwd).2.1 = cnt + 8 * (((refill s val cnt fwd).2.2 : Int) - fwd)) := by
  have h1 := refillLoop_stops s (refillPasses cnt) val cnt fwd (Nat.le_refl _)
  have h2 := refillLoop_count_le s (refillPasses cnt) val cnt fwd hc
  have h3 := (refillLoop_cursor s (refillPasses cnt) val cnt fwd).2.1
  rw [refill_eq]
  simp only
  split <;> omega

/-- `Refill` only fills bits that were zero, and leaves the bits below the loaded ones zero (R144). -/
theorem refill_value (s : State) (val : Nat) (cnt : Int) (fwd : Nat) (hc : cnt ≤ 16) (hz : 2 ^ (16 - cnt).toNat ∣ val) :
    val ≤ (refill s val cnt fwd).1 ∧ (refill s val cnt fwd).1 < val + 2 ^ (16 - cnt).toNat ∧
      ((refill s val cnt fwd).2.1 ≤ 16 →
        2 ^ (16 - (refill s val cnt fwd).2.1).toNat ∣ (refill s val cnt fwd).1) := by
  obtain ⟨a, b, c⟩ := refillLoop_value s (refillPasses cnt) val cnt fwd hc hz
  refine ⟨a, b, ?_⟩
  rw [refill_eq]
  simp only
  split
  · intro h; simp [Config.lotsOfBits] at h
  · intro _; exact c

/-- The loop depends on the buffer's length and bytes alone. -/
theorem refillLoop_congr {s t : State} (hs : s.storage = t.storage) (hr : ∀ i, s.streamRead .forward i = t.streamRead .forward i)
    (n val : Nat) (cnt : Int) (fwd : Nat) : refillLoop s n val cnt fwd = refillLoop t n val cnt fwd := by
  induction n generalizing val cnt fwd with
  | zero => rfl
  | succ n ih => simp only [refillLoop, hs, hr, ih]

/-- `Refill` depends on the buffer's length and bytes alone (R143). -/
theorem refillIfShort_congr {s t : State} (hs : s.storage = t.storage) (hr : ∀ i, s.streamRead .forward i = t.streamRead .forward i)
    (val : Nat) (cnt : Int) (fwd : Nat) : refillIfShort s val cnt fwd = refillIfShort t val cnt fwd := by
  simp only [refillIfShort, refill_eq, refillLoop_congr hs hr, hs]

/-! ## Renormalize -/

/-- As many low bits of a window are zero as its count says are not loaded: the invariant of R49 with the
countdown from the sentinel. -/
def lowClear (val : Nat) (cnt : Int) : Prop :=
  (cnt ≤ 16 → 2 ^ (16 - cnt).toNat ∣ val) ∧ (16 < cnt → 2 ^ (min 16 (Config.lotsOfBits - cnt).toNat) ∣ val)

/-- The registers that the windowed state has to satisfy. -/
structure WindowOk (s : State) (val : Nat) (cnt : Int) (fwd rng : Nat) : Prop where
  rangeLow : 32768 ≤ rng
  rangeHigh : rng < 65536
  position : val < rng * 2 ^ 16
  countLow : 0 ≤ cnt
  countHigh : cnt ≤ Config.lotsOfBits
  clear : lowClear val cnt
  cursor : fwd ≤ s.storage.toNat

/-- After the shift and the refill of `Renormalize`, the window, the count and the cursor are legal (R147). -/
theorem refillIfShort_ok {s : State} {val rng fwd : Nat} {cnt : Int} (h1 : 1 ≤ rng) (h2 : rng ≤ 65535)
    (hpos : val < rng * 2 ^ 16) (hc0 : 0 ≤ cnt) (hc1 : cnt ≤ Config.lotsOfBits) (hz : lowClear val cnt)
    (hf : fwd ≤ s.storage.toNat) :
    WindowOk s (refillIfShort s (val <<< renormShift rng) (cnt - renormShift rng) fwd).1
      (refillIfShort s (val <<< renormShift rng) (cnt - renormShift rng) fwd).2.1
      (refillIfShort s (val <<< renormShift rng) (cnt - renormShift rng) fwd).2.2 (rng <<< renormShift rng) := by
  obtain ⟨hd, hl, hh⟩ := renormShift_spec h1 h2
  generalize renormShift rng = d at *
  have hp : 0 < 2 ^ d := Nat.two_pow_pos d
  have hpos' : val * 2 ^ d < rng * 2 ^ d * 2 ^ 16 := by
    have := (Nat.mul_lt_mul_right hp).mpr hpos
    nlinarith
  simp only [refillIfShort]
  rw [Nat.shiftLeft_eq] at hl hh ⊢
  rw [Nat.shiftLeft_eq]
  split
  · next hneg =>
    have hle : cnt ≤ 16 := by omega
    have hdv := hz.1 hle
    have e : (16 - (cnt - d)).toNat = (16 - cnt).toNat + d := by omega
    have hz' : 2 ^ (16 - (cnt - d)).toNat ∣ val * 2 ^ d := by
      rw [e, Nat.pow_add]; exact Nat.mul_dvd_mul_right hdv _
    obtain ⟨_, hv, hcl⟩ := refill_value s (val * 2 ^ d) (cnt - d) fwd (by omega) hz'
    obtain ⟨_, hcur⟩ := refill_cursor s (val * 2 ^ d) (cnt - d) fwd
    have hL : (Config.lotsOfBits : Int) = 16384 := rfl
    have hcount := refill_count s (val * 2 ^ d) (cnt - d) fwd (by omega)
    have hroom : val + 2 ^ (16 - cnt).toNat ≤ rng * 2 ^ 16 := by
      obtain ⟨a, rfl⟩ := hdv
      have e16 : (2 : Nat) ^ 16 = 2 ^ (16 - cnt).toNat * 2 ^ cnt.toNat := by
        rw [← Nat.pow_add]; congr 1; omega
      rw [e16] at hpos ⊢
      have : rng * (2 ^ (16 - cnt).toNat * 2 ^ cnt.toNat) = 2 ^ (16 - cnt).toNat * (rng * 2 ^ cnt.toNat) := by ring
      rw [this] at hpos ⊢
      have := Nat.lt_of_mul_lt_mul_left hpos
      calc 2 ^ (16 - cnt).toNat * a + 2 ^ (16 - cnt).toNat = 2 ^ (16 - cnt).toNat * (a + 1) := by ring
        _ ≤ _ := Nat.mul_le_mul_left _ this
    refine ⟨hl, hh, ?_, ?_, ?_, ?_, by omega⟩
    · rw [e, Nat.pow_add] at hv
      have := Nat.mul_le_mul_right (2 ^ d) hroom
      nlinarith
    · rcases hcount with ⟨_, h⟩ | ⟨_, h, _⟩ <;> omega
    · rcases hcount with ⟨_, h⟩ | ⟨_, _, h, _⟩ <;> omega
    · refine ⟨hcl, fun h16 => ?_⟩
      rcases hcount with ⟨_, h⟩ | ⟨_, _, h, _⟩
      · rw [h]; simp
      · omega
  · next hnn =>
    refine ⟨hl, hh, hpos', by dsimp only; omega, by dsimp only; omega, ⟨fun h16 => ?_, fun h16 => ?_⟩, hf⟩
    · dsimp only at h16 ⊢
      by_cases hle : cnt ≤ 16
      · have e : (16 - (cnt - d)).toNat = (16 - cnt).toNat + d := by omega
        rw [e, Nat.pow_add]; exact Nat.mul_dvd_mul_right (hz.1 hle) _
      · have h := hz.2 (by omega)
        have e : min 16 ((Config.lotsOfBits : Int) - cnt).toNat = 16 := by simp only [Config.lotsOfBits]; omega
        rw [e] at h
        exact Nat.dvd_trans (Nat.pow_dvd_pow 2 (by omega)) (Nat.dvd_mul_right_of_dvd h _)
    · dsimp only at h16 ⊢
      have h := hz.2 (by omega)
      have := Nat.mul_dvd_mul_right h (2 ^ d)
      rw [← Nat.pow_add] at this
      exact Nat.dvd_trans (Nat.pow_dvd_pow 2 (by omega)) this

/-- INIT's refill leaves a legal window (R141, R142). -/
theorem refill_init_ok (s : State) :
    WindowOk s (refill s 0 (-15) 0).1 (refill s 0 (-15) 0).2.1 (refill s 0 (-15) 0).2.2 32768 := by
  obtain ⟨_, hv, hcl⟩ := refill_value s 0 (-15) 0 (by omega) (Nat.dvd_zero _)
  obtain ⟨_, hcur⟩ := refill_cursor s 0 (-15) 0
  have hL : (Config.lotsOfBits : Int) = 16384 := rfl
  have hcount := refill_count s 0 (-15) 0 (by omega)
  refine ⟨by omega, by omega, by simpa using hv, ?_, ?_, ⟨hcl, fun h16 => ?_⟩, by omega⟩
  · rcases hcount with ⟨_, h⟩ | ⟨_, h, _⟩ <;> omega
  · rcases hcount with ⟨_, h⟩ | ⟨_, _, h, _⟩ <;> omega
  · rcases hcount with ⟨_, h⟩ | ⟨_, _, h, _⟩
    · rw [h]; simp
    · omega

end Sys2Proof.Machine
end

