-- ==== Sys2Proof/Laws/Effects.lean ====
section
/-! SUPPORT. What each effect of a command leaves unchanged, as one equation of states per effect. -/

namespace Sys2Proof.Machine

/-- Narrowing writes VALUE, RANGE, COUNT, FWD_OFFSET and TOTAL_BITS alone (R202). -/
theorem narrowTo_frame (s : State) (uv : Nat × Nat) :
    s.narrowTo uv = { s with
      value := (s.narrowTo uv).value, range := (s.narrowTo uv).range, count := (s.narrowTo uv).count
      fwdOffset := (s.narrowTo uv).fwdOffset, totalBits := (s.narrowTo uv).totalBits } := rfl

/-- Clearing PENDING first is clearing it last (R202). -/
theorem narrowTo_clearPending (s : State) (uv : Nat × Nat) : s.clearPending.narrowTo uv = (s.narrowTo uv).clearPending := by
  have h : ∀ val cnt fwd, refillIfShort s.clearPending val cnt fwd = refillIfShort s val cnt fwd := by
    intro val cnt fwd; apply refillIfShort_congr; rfl; intro _; rfl
  simp only [State.narrowTo, State.renormalize, h]
  rfl

/-- A lookup writes EXT, LOOKUP_FT and PENDING alone (R172). -/
theorem lookupEffect_frame (s : State) (ft : Nat) :
    (lookupEffect s ft).1 = { s with
      ext := BitVec.ofNat 4 (lookup s.range.toNat s.position ft).2, lookupFt := BitVec.ofNat 16 ft, pending := true } := rfl

/-- The two sides a bit narrows to, and the bit (R203). -/
theorem bitEffect_cases (s : State) (logp : Nat) :
    (bitSplit s logp ≤ s.position ∧ bitEffect s logp = (s.narrowTo (bitSplit s logp, s.range.toNat), 1)) ∨
      (s.position < bitSplit s logp ∧ bitEffect s logp = (s.narrowTo (0, bitSplit s logp), 0)) := by
  simp only [bitEffect]
  split
  · next h => exact .inl ⟨h, rfl⟩
  · next h => exact .inr ⟨Nat.lt_of_not_le h, rfl⟩

/-- A uniform symbol writes VALUE, RANGE, COUNT, FWD_OFFSET and TOTAL_BITS alone (R260). -/
theorem uniformSymbol_frame (s : State) (ft : Nat) :
    (uniformSymbol s ft).1 = { s with
      value := (uniformSymbol s ft).1.value, range := (uniformSymbol s ft).1.range
      count := (uniformSymbol s ft).1.count, fwdOffset := (uniformSymbol s ft).1.fwdOffset
      totalBits := (uniformSymbol s ft).1.totalBits } := rfl

/-- `RawBits(n)` writes the reservoir, BWD_OFFSET and TOTAL_BITS alone (R280). -/
theorem rawBits_frame (s : State) (n : Nat) :
    (rawBits s n).1 = { s with
      endWindow := (rawBits s n).1.endWindow, endBits := (rawBits s n).1.endBits
      bwdOffset := (rawBits s n).1.bwdOffset, totalBits := s.totalBits + BitVec.ofNat 32 n } := rfl

/-- The three ways DECODE_UINT ends: direct, split in range, split and clamped (R260, R262). -/
theorem uintValue_cases (s : State) (ft : Nat) :
    (ft ≤ 256 ∧ uintValue s ft = uniformSymbol s ft) ∨
      (256 < ft ∧ (uintJoin s ft).2 ≤ ft - 1 ∧ uintValue s ft = uintJoin s ft) ∨
      (256 < ft ∧ ft - 1 < (uintJoin s ft).2 ∧ uintValue s ft = ((uintJoin s ft).1.setError, ft - 1)) := by
  have e : (1 <<< Config.uintBits) = 256 := rfl
  simp only [uintValue, e]
  split
  · next h =>
    simp only [uintClamp]
    split
    · next h2 => exact .inr (.inl ⟨h, h2, rfl⟩)
    · next h2 => exact .inr (.inr ⟨h, Nat.lt_of_not_le h2, rfl⟩)
  · next h => exact .inl ⟨Nat.le_of_not_lt h, rfl⟩

/-- A completed command changes neither the fault record, the memories, the model's draw counter nor the ports. -/
theorem commandEffect_frame (i : Instr) (s : State) :
    ∃ t : State, (commandEffect i s).1 = { s with
      value := t.value, range := t.range, count := t.count, totalBits := t.totalBits, fwdOffset := t.fwdOffset
      bwdOffset := t.bwdOffset, storage := t.storage, endWindow := t.endWindow, endBits := t.endBits
      ext := t.ext, lookupFt := t.lookupFt, pending := t.pending, ready := t.ready, error := t.error
      streamChanged := t.streamChanged, tableChanged := t.tableChanged } := by
  refine ⟨(commandEffect i s).1, ?_⟩
  cases i with
  | decodeBitLogp logp =>
    rcases bitEffect_cases s logp.toNat with ⟨_, h⟩ | ⟨_, h⟩ <;> simp only [commandEffect, h] <;> rfl
  | decodeUint ft =>
    rcases uintValue_cases s ft.toNat with ⟨_, h⟩ | ⟨_, _, h⟩ | ⟨_, _, h⟩ <;>
      simp only [commandEffect, withResult, h] <;> rfl
  | _ => rfl

/-- Only INIT writes STORAGE (R39). -/
theorem commandEffect_storage {i : Instr} (s : State) (hi : ∀ n, i ≠ .init n) : (commandEffect i s).1.storage = s.storage := by
  cases i with
  | init n => exact absurd rfl (hi n)
  | decodeBitLogp logp =>
    rcases bitEffect_cases s logp.toNat with ⟨_, h⟩ | ⟨_, h⟩ <;> simp only [commandEffect, h] <;> rfl
  | decodeUint ft =>
    rcases uintValue_cases s ft.toNat with ⟨_, h⟩ | ⟨_, _, h⟩ | ⟨_, _, h⟩ <;>
      simp only [commandEffect, withResult, h] <;> rfl
  | _ => rfl

/-- Only INIT and DECODE_UINT write ERROR (R46). -/
theorem commandEffect_error {i : Instr} (s : State) (hi : ∀ n, i ≠ .init n) (hu : ∀ ft, i ≠ .decodeUint ft) : (commandEffect i s).1.error = s.error := by
  cases i with
  | init n => exact absurd rfl (hi n)
  | decodeBitLogp logp =>
    rcases bitEffect_cases s logp.toNat with ⟨_, h⟩ | ⟨_, h⟩ <;> simp only [commandEffect, h] <;> rfl
  | decodeUint ft => exact absurd rfl (hu ft)
  | _ => rfl

/-- Only INIT writes READY (R45). -/
theorem commandEffect_ready {i : Instr} (s : State) (hi : ∀ n, i ≠ .init n) : (commandEffect i s).1.ready = s.ready := by
  cases i with
  | init n => exact absurd rfl (hi n)
  | decodeBitLogp logp =>
    rcases bitEffect_cases s logp.toNat with ⟨_, h⟩ | ⟨_, h⟩ <;> simp only [commandEffect, h] <;> rfl
  | decodeUint ft =>
    rcases uintValue_cases s ft.toNat with ⟨_, h⟩ | ⟨_, _, h⟩ | ⟨_, _, h⟩ <;>
      simp only [commandEffect, withResult, h] <;> rfl
  | _ => rfl

/-- Only INIT clears the marks of changed bytes (R82). -/
theorem commandEffect_marks {i : Instr} (s : State) (hi : ∀ n, i ≠ .init n) :
    (commandEffect i s).1.streamChanged = s.streamChanged ∧ (commandEffect i s).1.tableChanged = s.tableChanged := by
  cases i with
  | init n => exact absurd rfl (hi n)
  | decodeBitLogp logp =>
    rcases bitEffect_cases s logp.toNat with ⟨_, h⟩ | ⟨_, h⟩ <;> simp only [commandEffect, h] <;> exact ⟨rfl, rfl⟩
  | decodeUint ft =>
    rcases uintValue_cases s ft.toNat with ⟨_, h⟩ | ⟨_, _, h⟩ | ⟨_, _, h⟩ <;>
      simp only [commandEffect, withResult, h] <;> exact ⟨rfl, rfl⟩
  | _ => exact ⟨rfl, rfl⟩

end Sys2Proof.Machine
end

