-- ==== Sys2Proof/Laws/RawBits.lean ====
section
/-! SUPPORT. What `RawBits` does: its reservoir is a stream of bits, of which it takes the first `n`
(spec/44_uint_and_bits.md R280, R282). -/

namespace Sys2Proof.Machine

/-- What a reservoir satisfies after a refill: enough bits held, a window of as many bits, a legal cursor. -/
structure ReservoirOk (s : State) (r : Nat × Nat × Nat) : Prop where
  held : 25 ≤ r.2.1
  window : r.1 < 2 ^ min 32 r.2.1
  kind : r.2.1 ≤ 32 ∨ (r.2.1 = Config.lotsOfBits ∧ s.storage.toNat ≤ r.2.2)

/-- The refill loop leaves a full or saturated reservoir (R280). -/
theorem rawRefill_ok (s : State) (n win avail bwd : Nat) (hn : 25 ≤ avail + 8 * n) (ha : avail ≤ 24)
    (hw : win < 2 ^ avail) : ReservoirOk s (rawRefill s n win avail bwd) := by
  induction n generalizing win avail bwd with
  | zero => omega
  | succ n ih =>
    simp only [rawRefill]
    split
    · next h =>
      refine ⟨by simp [Config.lotsOfBits], ?_, .inr ⟨rfl, h⟩⟩
      refine Nat.lt_of_lt_of_le hw (Nat.pow_le_pow_right (by omega) ?_)
      simp only [Config.lotsOfBits]; omega
    · have hw' : win ||| ((s.streamRead .backward (s.storage.toNat - 1 - bwd)).toNat <<< avail) < 2 ^ (avail + 8) :=
        Nat.or_lt_two_pow (Nat.lt_of_lt_of_le hw (Nat.pow_le_pow_right (by omega) (by omega))) (byte_shift_lt _ _)
      have hWB : Config.windowBits = 32 := rfl
      split
      · next h =>
        refine ⟨by dsimp only; omega, ?_, .inl (by dsimp only; omega)⟩
        have : min 32 (avail + 8) = avail + 8 := by omega
        simpa only [this] using hw'
      · next h => exact ih _ _ _ (by omega) (by omega) hw'

/-- The refill loop never moves the back cursor past the buffer, nor backwards (R280, R81). -/
theorem rawRefill_cursor (s : State) (n win avail bwd : Nat) :
    bwd ≤ (rawRefill s n win avail bwd).2.2 ∧ (rawRefill s n win avail bwd).2.2 ≤ max bwd s.storage.toNat := by
  induction n generalizing win avail bwd with
  | zero => simp [rawRefill]
  | succ n ih =>
    simp only [rawRefill]
    split
    · simp
    · split
      · dsimp only; omega
      · obtain ⟨a, b⟩ := ih (win ||| ((s.streamRead .backward (s.storage.toNat - 1 - bwd)).toNat <<< avail)) (avail + 8) (bwd + 1)
        omega

/-- Loading one byte does not change the stream of raw bits (R282). -/
theorem reservoirBit_load {s : State} {win avail bwd : Nat} (hw : win < 2 ^ avail) (hb : bwd < s.storage.toNat) (j : Nat) :
    reservoirBit s (win ||| ((s.streamRead .backward (s.storage.toNat - 1 - bwd)).toNat <<< avail), avail + 8, bwd + 1) j =
      reservoirBit s (win, avail, bwd) j := by
  simp only [reservoirBit]
  by_cases h1 : j < avail
  · have : ¬ avail ≤ j := by omega
    simp [h1, Nat.lt_add_right 8 h1, Nat.testBit_or, Nat.testBit_shiftLeft, this]
  · have hwin : win.testBit j = false :=
      Nat.testBit_lt_two_pow (Nat.lt_of_lt_of_le hw (Nat.pow_le_pow_right (by omega) (by omega)))
    rw [if_neg h1]
    by_cases h2 : j < avail + 8
    · have e1 : (j - avail) / 8 = 0 := by omega
      have e2 : (j - avail) % 8 = j - avail := by omega
      have e3 : avail ≤ j := by omega
      rw [if_pos h2, e1, e2, Nat.add_zero, if_pos hb, Nat.testBit_or, hwin, Nat.testBit_shiftLeft]
      simp [e3, BitVec.testBit_toNat]
    · have e1 : bwd + 1 + (j - (avail + 8)) / 8 = bwd + (j - avail) / 8 := by omega
      have e2 : (j - (avail + 8)) % 8 = (j - avail) % 8 := by omega
      rw [if_neg h2, e1, e2]

/-- Saturating an exhausted reservoir does not change the stream of raw bits: they are all 0 (R282). -/
theorem reservoirBit_saturate {s : State} {win avail bwd : Nat} (hw : win < 2 ^ avail) (ha : avail ≤ 24)
    (hb : s.storage.toNat ≤ bwd) (j : Nat) :
    reservoirBit s (win, Config.lotsOfBits, bwd) j = reservoirBit s (win, avail, bwd) j := by
  have hz : ∀ k, avail ≤ k → win.testBit k = false := fun k hk =>
    Nat.testBit_lt_two_pow (Nat.lt_of_lt_of_le hw (Nat.pow_le_pow_right (by omega) hk))
  have hn : ∀ x, ¬ bwd + x < s.storage.toNat := fun x => by omega
  simp only [reservoirBit, hn, if_false]
  by_cases h1 : j < avail
  · rw [if_pos h1]
    split
    · rfl
    · next h => simp only [Config.lotsOfBits] at h; omega
  · rw [if_neg h1, hz j (by omega), ite_self]

/-- The refill loop does not change the stream of raw bits (R282). -/
theorem reservoirBit_rawRefill (s : State) (n win avail bwd : Nat) (hw : win < 2 ^ avail) (ha : avail ≤ 24) (j : Nat) :
    reservoirBit s (rawRefill s n win avail bwd) j = reservoirBit s (win, avail, bwd) j := by
  induction n generalizing win avail bwd with
  | zero => rfl
  | succ n ih =>
    simp only [rawRefill]
    split
    · next h => exact reservoirBit_saturate hw ha h j
    · next hb =>
      have hw' : win ||| ((s.streamRead .backward (s.storage.toNat - 1 - bwd)).toNat <<< avail) < 2 ^ (avail + 8) :=
        Nat.or_lt_two_pow (Nat.lt_of_lt_of_le hw (Nat.pow_le_pow_right (by omega) (by omega))) (byte_shift_lt _ _)
      split
      · exact reservoirBit_load hw (by omega) j
      · next h =>
        have hWB : Config.windowBits = 32 := rfl
        rw [ih _ _ _ hw' (by omega)]
        exact reservoirBit_load hw (by omega) j

/-! ## The reservoir before bits are taken -/

/-- With fewer bits held than wanted, the window holds no more than its bits (R49). -/
theorem endWindow_lt {s : State} (h : s.reservoirClear) (hb : s.endBits.toNat < 32) :
    s.endWindow.toNat < 2 ^ s.endBits.toNat := by
  have := h hb
  rw [Nat.shiftRight_eq_div_pow] at this
  exact (Nat.div_eq_zero_iff_lt (Nat.two_pow_pos _)).mp this

/-- The reservoir holds the bits wanted, in a 32-bit window, with a legal cursor (R280, R81). -/
theorem rawReservoir_ok {s : State} {n : Nat} (hn : n ≤ 25) (h : s.reservoirClear) :
    n ≤ (rawReservoir s n).2.1 ∧ (rawReservoir s n).1 < 2 ^ 32 ∧
      (rawReservoir s n).2.1 ≤ max s.endBits.toNat Config.lotsOfBits ∧
      s.bwdOffset.toNat ≤ (rawReservoir s n).2.2 ∧
      (rawReservoir s n).2.2 ≤ max s.bwdOffset.toNat s.storage.toNat := by
  have hL : Config.lotsOfBits = 16384 := rfl
  simp only [rawReservoir]
  split
  · next hlt =>
    have hok := rawRefill_ok s 4 s.endWindow.toNat s.endBits.toNat s.bwdOffset.toNat (by omega) (by omega)
      (endWindow_lt h (by omega))
    obtain ⟨c1, c2⟩ := rawRefill_cursor s 4 s.endWindow.toNat s.endBits.toNat s.bwdOffset.toNat
    refine ⟨Nat.le_trans hn hok.held, Nat.lt_of_lt_of_le hok.window (Nat.pow_le_pow_right (by omega) (by omega)), ?_, c1, c2⟩
    rcases hok.kind with h | h <;> omega
  · exact ⟨by dsimp only; omega, s.endWindow.isLt, by dsimp only; omega, Nat.le_refl _, by dsimp only; omega⟩

/-- The refill, where there is one, does not change the stream of raw bits (R282). -/
theorem reservoirBit_rawReservoir {s : State} {n : Nat} (hn : n ≤ 25) (h : s.reservoirClear) (j : Nat) :
    reservoirBit s (rawReservoir s n) j = rawBit s j := by
  simp only [rawReservoir, rawBit]
  split
  · next hlt => exact reservoirBit_rawRefill s 4 _ _ _ (endWindow_lt h (by omega)) (by omega) j
  · rfl

/-! ## Taking bits -/

/-- Bit `j` of the result is raw bit `j`, for the `n` bits wanted (R280, R282). -/
theorem rawBits_result {s : State} {n : Nat} (hn : n ≤ 25) (h : s.reservoirClear) (j : Nat) :
    (rawBits s n).2.testBit j = (decide (j < n) && rawBit s j) := by
  obtain ⟨h1, _⟩ := rawReservoir_ok hn h
  rw [← reservoirBit_rawReservoir hn h j]
  simp only [rawBits, Nat.one_shiftLeft, Nat.and_two_pow_sub_one_eq_mod, Nat.testBit_mod_two_pow]
  by_cases hj : j < n
  · have : j < (rawReservoir s n).2.1 := by omega
    simp [hj, reservoirBit, this]
  · simp [hj]

/-- The result fits the bits wanted (R108). -/
theorem rawBits_lt (s : State) (n : Nat) : (rawBits s n).2 < 2 ^ n := by
  simp only [rawBits, Nat.one_shiftLeft, Nat.and_two_pow_sub_one_eq_mod]
  exact Nat.mod_lt _ (Nat.two_pow_pos n)

/-- What is left is the stream of raw bits from bit `n` on (R282). -/
theorem rawBits_rest {s : State} {n : Nat} (hn : n ≤ 25) (h : s.reservoirClear) (hc : s.bwdOffset.toNat ≤ s.storage.toNat)
    (j : Nat) : rawBit (rawBits s n).1 j = rawBit s (j + n) := by
  have hL : Config.lotsOfBits = 16384 := rfl
  obtain ⟨h1, h2, h3, h4, h5⟩ := rawReservoir_ok hn h
  have hE := s.endBits.isLt
  have hS := s.storage.isLt
  rw [← reservoirBit_rawReservoir hn h (j + n)]
  have hread : ∀ i, (rawBits s n).1.streamRead i = s.streamRead i := fun _ => rfl
  simp only [rawBit, reservoirBit, hread]
  simp only [rawBits, State.takeRawBits_endWindow, State.takeRawBits_endBits, State.takeRawBits_bwdOffset,
    State.takeRawBits_storage, BitVec.toNat_ofNat]
  have e1 : (rawReservoir s n).1 >>> n % 2 ^ 32 = (rawReservoir s n).1 >>> n :=
    Nat.mod_eq_of_lt (Nat.lt_of_le_of_lt (Nat.shiftRight_le _ _) h2)
  have e2 : ((rawReservoir s n).2.1 - n) % 2 ^ 16 = (rawReservoir s n).2.1 - n := Nat.mod_eq_of_lt (by omega)
  have e3 : (rawReservoir s n).2.2 % 2 ^ 32 = (rawReservoir s n).2.2 := Nat.mod_eq_of_lt (by omega)
  rw [e1, e2, e3]
  have e4 : j - ((rawReservoir s n).2.1 - n) = j + n - (rawReservoir s n).2.1 := by omega
  rw [e4, Nat.testBit_shiftRight, Nat.add_comm n j]
  have e5 : (j < (rawReservoir s n).2.1 - n) = (j + n < (rawReservoir s n).2.1) := by
    simp only [eq_iff_iff]; omega
  simp only [e5]

/-- Taking bits keeps what R49, R41 and R38 say of the reservoir. -/
theorem rawBits_keeps {s : State} {n : Nat} (hn : n ≤ 25) (h : s.reservoirClear) (he : s.endBitsOk)
    (hc : s.bwdOffset.toNat ≤ s.storage.toNat) :
    (rawBits s n).1.reservoirClear ∧ (rawBits s n).1.endBitsOk ∧
      (rawBits s n).1.bwdOffset.toNat ≤ (rawBits s n).1.storage.toNat := by
  have hL : Config.lotsOfBits = 16384 := rfl
  obtain ⟨h1, h2, h3, h4, h5⟩ := rawReservoir_ok hn h
  obtain ⟨he1, he2⟩ := he
  have hS := s.storage.isLt
  have key : (rawReservoir s n).2.1 ≤ 16384 ∧
      ((rawReservoir s n).2.1 ≤ 32 → (rawReservoir s n).1 < 2 ^ (rawReservoir s n).2.1) ∧
      (32 < (rawReservoir s n).2.1 → (rawReservoir s n).1 < 2 ^ (32 - (16384 - (rawReservoir s n).2.1))) := by
    simp only [rawReservoir]
    split
    · next hlt =>
      have hok := rawRefill_ok s 4 s.endWindow.toNat s.endBits.toNat s.bwdOffset.toNat (by omega) (by omega)
        (endWindow_lt h (by omega))
      have hw := hok.window
      rcases hok.kind with hk | ⟨hk, _⟩
      · rw [Nat.min_eq_right hk] at hw
        exact ⟨by omega, fun _ => hw, fun _ => by omega⟩
      · rw [hk, hL] at hw ⊢
        exact ⟨by omega, fun _ => by omega, fun _ => by simpa using hw⟩
    · refine ⟨by dsimp only; omega, fun h32 => ?_, fun h32 => by simpa [hL] using he2 h32⟩
      dsimp only at h32 ⊢
      rcases Nat.lt_or_eq_of_le h32 with hlt | heq
      · exact endWindow_lt h hlt
      · rw [heq]; exact s.endWindow.isLt
  obtain ⟨k1, k2, k3⟩ := key
  have e1 : (rawReservoir s n).1 >>> n % 2 ^ 32 = (rawReservoir s n).1 >>> n :=
    Nat.mod_eq_of_lt (Nat.lt_of_le_of_lt (Nat.shiftRight_le _ _) h2)
  have e2 : ((rawReservoir s n).2.1 - n) % 2 ^ 16 = (rawReservoir s n).2.1 - n := Nat.mod_eq_of_lt (by omega)
  have e3 : (rawReservoir s n).2.2 % 2 ^ 32 = (rawReservoir s n).2.2 := Nat.mod_eq_of_lt (by omega)
  have shift : ∀ m, (rawReservoir s n).1 < 2 ^ m → (rawReservoir s n).1 >>> n < 2 ^ (m - n) := by
    intro m hm
    rw [Nat.shiftRight_eq_div_pow, Nat.div_lt_iff_lt_mul (Nat.two_pow_pos n), ← Nat.pow_add]
    exact Nat.lt_of_lt_of_le hm (Nat.pow_le_pow_right (by omega) (by omega))
  refine ⟨?_, ?_, ?_⟩
  · simp only [State.reservoirClear, rawBits, State.takeRawBits_endWindow, State.takeRawBits_endBits, BitVec.toNat_ofNat, e1, e2]
    intro h32
    rw [Nat.shiftRight_eq_div_pow ((rawReservoir s n).1 >>> n)]
    apply (Nat.div_eq_zero_iff_lt (Nat.two_pow_pos _)).mpr
    by_cases hk : (rawReservoir s n).2.1 ≤ 32
    · exact shift _ (k2 hk)
    · have hz := k3 (by omega)
      have ez : 32 - (16384 - (rawReservoir s n).2.1) = 0 := by omega
      rw [ez] at hz
      exact Nat.lt_of_lt_of_le (shift 0 hz) (Nat.pow_le_pow_right (by omega) (by omega))
  · simp only [State.endBitsOk, rawBits, State.takeRawBits_endWindow, State.takeRawBits_endBits, BitVec.toNat_ofNat, e1, e2]
    refine ⟨by omega, fun h32 => ?_⟩
    have hz := shift _ (k3 (by omega))
    refine Nat.lt_of_lt_of_le hz (Nat.pow_le_pow_right (by omega) ?_)
    omega
  · simp only [rawBits, State.takeRawBits_bwdOffset, State.takeRawBits_storage, BitVec.toNat_ofNat, e3]
    omega

end Sys2Proof.Machine
end

