-- ==== Sys2Proof/Laws/Invariant.lean ====
section
/-! SUPPORT. Narrowing to a sub-range that contains the position keeps the invariants of spec/10_state.md R49,
and INIT establishes them (spec/40 R142, R147). -/

namespace Sys2Proof.Machine

/-- A state's window is clear below its loaded bits (R49, R56). -/
theorem lowClear_of_state {s : State} (h1 : s.windowClear) (h2 : s.countOk) : lowClear s.value.toNat s.count.toInt :=
  ⟨fun h => Nat.dvd_of_mod_eq_zero (h1 h), fun h => Nat.dvd_of_mod_eq_zero (h2.2.2 h)⟩

/-- The registers of a legal window satisfy the invariants (R147). -/
theorem WindowOk.keeps {s t : State} {val fwd rng : Nat} {cnt : Int} (h : WindowOk s val cnt fwd rng)
    (hv : t.value = BitVec.ofNat 32 val) (hc : t.count = BitVec.ofInt 16 cnt) (hf : t.fwdOffset = BitVec.ofNat 32 fwd)
    (hr : t.range = BitVec.ofNat 16 rng) (hs : t.storage = s.storage) :
    t.rangeOk ∧ t.windowClear ∧ t.countOk ∧ t.fwdOffset.toNat ≤ t.storage.toNat := by
  have hL : (Config.lotsOfBits : Int) = 16384 := rfl
  obtain ⟨h1, h2, h3, h4, h5, h6, h7⟩ := h
  have ev : t.value.toNat = val := by rw [hv, BitVec.toNat_ofNat]; exact Nat.mod_eq_of_lt (by omega)
  have er : t.range.toNat = rng := by rw [hr, BitVec.toNat_ofNat]; exact Nat.mod_eq_of_lt (by omega)
  have ec : t.count.toInt = cnt := by
    rw [hc]; exact BitVec.toInt_ofInt_eq_self (by omega) (by omega) (by omega)
  have ef : t.fwdOffset.toNat = fwd := by
    rw [hf, BitVec.toNat_ofNat]
    exact Nat.mod_eq_of_lt (by have := s.storage.isLt; omega)
  refine ⟨⟨by omega, ?_⟩, ?_, ⟨by omega, by omega, ?_⟩, by rw [ef, hs]; exact h7⟩
  · rw [State.position, ev, er, Nat.shiftRight_eq_div_pow]
    exact (Nat.div_lt_iff_lt_mul (Nat.two_pow_pos 16)).mpr h3
  · intro h; rw [ec] at h ⊢; rw [ev]; exact Nat.mod_eq_zero_of_dvd (h6.1 h)
  · intro h; rw [ec] at h ⊢; rw [ev]; exact Nat.mod_eq_zero_of_dvd (h6.2 h)

/-- `Renormalize` restores the invariants of the window (R147). -/
theorem renormalize_keeps {s : State} {val rng : Nat} (h1 : 1 ≤ rng) (h2 : rng ≤ 65535) (hpos : val >>> 16 < rng)
    (hc : s.countOk) (hz : lowClear val s.count.toInt) (hf : s.fwdOffset.toNat ≤ s.storage.toNat) :
    (s.renormalize val rng).rangeOk ∧ (s.renormalize val rng).windowClear ∧ (s.renormalize val rng).countOk ∧
      (s.renormalize val rng).fwdOffset.toNat ≤ (s.renormalize val rng).storage.toNat := by
  rw [Nat.shiftRight_eq_div_pow] at hpos
  have hpos' := (Nat.div_lt_iff_lt_mul (Nat.two_pow_pos 16)).mp hpos
  exact (refillIfShort_ok h1 h2 hpos' hc.1 hc.2.1 hz hf).keeps rfl rfl rfl rfl rfl

/-- Taking a multiple of `2^16` away leaves the low bits clear. -/
theorem lowClear_sub {val u : Nat} {cnt : Int} (hc : 0 ≤ cnt) (h : lowClear val cnt) : lowClear (val - u <<< 16) cnt := by
  rw [Nat.shiftLeft_eq]
  refine ⟨fun hle => Nat.dvd_sub (h.1 hle) ?_, fun hgt => Nat.dvd_sub (h.2 hgt) ?_⟩ <;>
    exact Nat.dvd_mul_left_of_dvd (Nat.pow_dvd_pow 2 (by omega)) u

/-- Narrowing to a sub-range that contains the position keeps the invariants of the window (R202, R147). -/
theorem narrowTo_keeps {s : State} {uv : Nat × Nat} (hu : uv.1 ≤ s.position) (hv : s.position < uv.2)
    (hr : uv.2 ≤ s.range.toNat) (hw : s.windowClear) (hc : s.countOk) (hf : s.fwdOffset.toNat ≤ s.storage.toNat) :
    (s.narrowTo uv).rangeOk ∧ (s.narrowTo uv).windowClear ∧ (s.narrowTo uv).countOk ∧
      (s.narrowTo uv).fwdOffset.toNat ≤ (s.narrowTo uv).storage.toNat := by
  have hR := s.range.isLt
  refine renormalize_keeps (by omega) (by omega) ?_ hc (lowClear_sub hc.1 (lowClear_of_state hw hc)) hf
  simp only [State.position, Nat.shiftRight_eq_div_pow, Nat.shiftLeft_eq] at *
  omega

/-- INIT establishes the invariants of the window (R142). -/
theorem initialise_keeps (s : State) (n : BitVec 32) :
    (s.initialise n).rangeOk ∧ (s.initialise n).windowClear ∧ (s.initialise n).countOk ∧
      (s.initialise n).fwdOffset.toNat ≤ (s.initialise n).storage.toNat :=
  (refill_init_ok (s.startStream n)).keeps rfl rfl rfl rfl rfl

/-- A lookup's shift satisfies what R49 asks of a pending lookup. -/
theorem lookup_phase {s : State} {ft : Nat} (h1 : 1 ≤ ft) (h2 : ft ≤ 32768) (hr : s.rangeOk) :
    (BitVec.ofNat 16 ft).toNat = ft ∧
      (BitVec.ofNat 4 (lookup s.range.toNat s.position ft).2).toNat = (lookup s.range.toNat s.position ft).2 := by
  obtain ⟨a, _⟩ := lookup_spec (c := s.position) h1 (by have := hr.1; omega) s.range.isLt hr.2
  generalize (lookup s.range.toNat s.position ft).2 = k at a ⊢
  constructor <;> rw [BitVec.toNat_ofNat] <;> exact Nat.mod_eq_of_lt (by omega)

/-- The slot of the probe contains the position (R260), so a uniform symbol keeps the invariants of the window. -/
theorem uniformSymbol_keeps {s : State} {ft : Nat} (h1 : 1 ≤ ft) (h2 : ft ≤ 32768) (hr : s.rangeOk)
    (hw : s.windowClear) (hc : s.countOk) (hf : s.fwdOffset.toNat ≤ s.storage.toNat) :
    (uniformSymbol s ft).1.rangeOk ∧ (uniformSymbol s ft).1.windowClear ∧ (uniformSymbol s ft).1.countOk ∧
      (uniformSymbol s ft).1.fwdOffset.toNat ≤ (uniformSymbol s ft).1.storage.toNat ∧ (uniformSymbol s ft).2 < ft := by
  obtain ⟨_, b, d, e⟩ := lookup_spec (c := s.position) h1 (by have := hr.1; omega) s.range.isLt hr.2
  have hin := (narrow_contains_iff (r := s.range.toNat) (c := s.position) (ft := ft)
    (fl := (lookup s.range.toNat s.position ft).1) (fh := (lookup s.range.toNat s.position ft).1 + 1)).mpr
      ⟨Nat.le_refl _, Nat.lt_succ_self _⟩
  have hb := narrow_bounds (fl := (lookup s.range.toNat s.position ft).1) (Nat.lt_succ_self _) e b d
  obtain ⟨k1, k2, k3, k4⟩ := narrowTo_keeps hin.1 hin.2 hb.2 hw hc hf
  simp only [uniformSymbol]
  exact ⟨k1, k2, k3, k4, e⟩

end Sys2Proof.Machine
end

