-- ==== Sys2Proof/Laws/Memory.lean ====
section
/-! SUPPORT. A memory reads back what is written, a write leaves every other address alone, and every memory
operation keeps the canonical form. -/

namespace Sys2Proof.Machine

@[simp] theorem Memory.read_nil (a : Nat) : Memory.read [] a = 0 := rfl

theorem Memory.wfAbove_mono {m : Memory} {lo hi : Nat} (h : lo ≤ hi) (hw : Memory.wfAbove hi m = true) :
    Memory.wfAbove lo m = true := by
  cases m with
  | nil => rfl
  | cons c rest =>
    obtain ⟨k, b⟩ := c
    simp only [Memory.wfAbove, Bool.and_eq_true, decide_eq_true_eq] at hw ⊢
    exact ⟨⟨by omega, hw.1.2⟩, hw.2⟩

theorem Memory.read_below {m : Memory} {lo a : Nat} (hw : Memory.wfAbove lo m = true) (h : a < lo) :
    m.read a = Memory.unlistedByte := by
  induction m generalizing lo with
  | nil => rfl
  | cons c rest ih =>
    obtain ⟨k, b⟩ := c
    simp only [Memory.wfAbove, Bool.and_eq_true, decide_eq_true_eq] at hw
    rw [Memory.read, if_neg (by omega)]
    exact ih hw.2 (by omega)

theorem Memory.read_write_other {m : Memory} {a b : Nat} (v : Byte) (h : a ≠ b) :
    (m.write a v).read b = m.read b := by
  induction m with
  | nil => simp only [Memory.write]; split <;> simp [Memory.read, h]
  | cons c rest ih =>
    obtain ⟨k, d⟩ := c
    simp only [Memory.write]
    split
    · split <;> simp [Memory.read, h]
    · split
      · subst k; split <;> simp [Memory.read, h]
      · simp only [Memory.read, ih]

theorem Memory.read_write_same {m : Memory} {lo : Nat} (a : Nat) (v : Byte) (hw : Memory.wfAbove lo m = true) :
    (m.write a v).read a = v := by
  induction m generalizing lo with
  | nil => simp only [Memory.write]; split <;> simp_all [Memory.read]
  | cons c rest ih =>
    obtain ⟨k, d⟩ := c
    simp only [Memory.wfAbove, Bool.and_eq_true, decide_eq_true_eq] at hw
    simp only [Memory.write]
    split
    · split
      · next hv =>
        rw [Memory.read, if_neg (by omega), Memory.read_below hw.2 (by omega), hv]
      · simp [Memory.read]
    · split
      · subst k
        split
        · next hv => rw [Memory.read_below hw.2 (by omega), hv]
        · simp [Memory.read]
      · rw [Memory.read, if_neg (by omega)]
        exact ih hw.2

theorem Memory.write_wfAbove {m : Memory} {lo a : Nat} (v : Byte) (h : lo ≤ a) (hw : Memory.wfAbove lo m = true) :
    Memory.wfAbove lo (m.write a v) = true := by
  induction m generalizing lo with
  | nil => simp only [Memory.write]; split <;> simp_all [Memory.wfAbove]
  | cons c rest ih =>
    obtain ⟨k, d⟩ := c
    have hw' := hw
    simp only [Memory.wfAbove, Bool.and_eq_true, decide_eq_true_eq] at hw'
    obtain ⟨⟨h1, h2⟩, h3⟩ := hw'
    simp only [Memory.write]
    split
    · split
      · exact hw
      · next hv =>
        simp only [Memory.wfAbove, Bool.and_eq_true, decide_eq_true_eq]
        exact ⟨⟨h, by simpa using hv⟩, ⟨by omega, h2⟩, h3⟩
    · split
      · split
        · exact Memory.wfAbove_mono (by omega) h3
        · next hv =>
          simp only [Memory.wfAbove, Bool.and_eq_true, decide_eq_true_eq]
          subst k
          exact ⟨⟨h, by simpa using hv⟩, h3⟩
      · simp only [Memory.wfAbove, Bool.and_eq_true, decide_eq_true_eq]
        exact ⟨⟨h1, h2⟩, ih (by omega) h3⟩

/-- A write keeps the canonical form. -/
theorem Memory.write_wf {m : Memory} (a : Nat) (v : Byte) (hw : m.wf = true) : (m.write a v).wf = true :=
  Memory.write_wfAbove v (Nat.zero_le a) hw

theorem Memory.ofBytes_wfAbove (a : Nat) (bytes : List Byte) : Memory.wfAbove a (Memory.ofBytes a bytes) = true := by
  induction bytes generalizing a with
  | nil => rfl
  | cons b rest ih =>
    simp only [Memory.ofBytes]
    split
    · exact Memory.wfAbove_mono (Nat.le_succ a) (ih (a + 1))
    · next h =>
      simp only [Memory.wfAbove, Bool.and_eq_true, decide_eq_true_eq]
      exact ⟨⟨Nat.le_refl a, by simpa using h⟩, ih (a + 1)⟩

/-- A bound buffer is in canonical form. -/
theorem Memory.ofBytes_wf (a : Nat) (bytes : List Byte) : (Memory.ofBytes a bytes).wf = true :=
  Memory.wfAbove_mono (Nat.zero_le a) (Memory.ofBytes_wfAbove a bytes)

/-- A bound buffer reads as its bytes, and as the unlisted byte beyond them. -/
theorem Memory.read_ofBytes (a : Nat) (bytes : List Byte) (i : Nat) :
    (Memory.ofBytes a bytes).read (a + i) = bytes.getD i Memory.unlistedByte := by
  induction bytes generalizing a i with
  | nil => rfl
  | cons b rest ih =>
    simp only [Memory.ofBytes]
    cases i with
    | zero =>
      split
      · next h =>
        have hb := Memory.read_below (Memory.ofBytes_wfAbove (a + 1) rest) (Nat.lt_succ_self a)
        simpa [h] using hb
      · simp [Memory.read]
    | succ j =>
      have hj : a + (j + 1) = a + 1 + j := by omega
      split
      · rw [hj, ih]; simp
      · rw [Memory.read, if_neg (by omega), hj, ih]; simp

/-! ## Marks of changed bytes (R82, U12) -/

@[simp] theorem mem_markAddress {a x : Nat} {marks : List Nat} : x ∈ markAddress a marks ↔ x = a ∨ x ∈ marks := by
  induction marks with
  | nil => simp [markAddress]
  | cons k rest ih =>
    simp only [markAddress]
    split
    · simp
    · split
      · next h => subst h; simp
      · simp only [List.mem_cons, ih]
        constructor
        · rintro (h | h | h)
          · exact .inr (.inl h)
          · exact .inl h
          · exact .inr (.inr h)
        · rintro (h | h | h)
          · exact .inr (.inl h)
          · exact .inl h
          · exact .inr (.inr h)

/-- Marking keeps the marks in order. -/
theorem markAddress_sorted {a : Nat} {marks : List Nat} (h : marks.Pairwise (· < ·)) :
    (markAddress a marks).Pairwise (· < ·) := by
  induction marks with
  | nil => simp [markAddress]
  | cons k rest ih =>
    obtain ⟨hk, hr⟩ := List.pairwise_cons.mp h
    simp only [markAddress]
    split
    · next hlt =>
      refine List.pairwise_cons.mpr ⟨fun x hx => ?_, h⟩
      rcases List.mem_cons.mp hx with rfl | hx
      · exact hlt
      · exact Nat.lt_trans hlt (hk x hx)
    · split
      · exact h
      · refine List.pairwise_cons.mpr ⟨fun x hx => ?_, ih hr⟩
        rcases mem_markAddress.mp hx with rfl | hx
        · omega
        · exact hk x hx

/-- An address at which a memory does not read as the unlisted byte is listed. -/
theorem Memory.mem_of_read {m : Memory} {a : Nat} (h : m.read a ≠ Memory.unlistedByte) : a ∈ m.map Prod.fst := by
  induction m with
  | nil => exact absurd rfl h
  | cons x rest ih =>
    obtain ⟨k, b⟩ := x
    by_cases hk : k = a
    · simp [hk]
    · rw [Memory.read, if_neg hk] at h
      exact List.mem_cons_of_mem _ (ih h)

/-- The differences of two memories are the addresses at which they read differently. -/
theorem Memory.mem_differences {old new : Memory} {a : Nat} :
    a ∈ Memory.differences old new ↔ new.read a ≠ old.read a := by
  simp only [Memory.differences, List.mem_filter, bne_iff_ne, ne_eq]
  refine ⟨fun h e => h.2 e.symm, fun h => ⟨?_, fun e => h e.symm⟩⟩
  rw [List.map_append, List.mem_append]
  by_cases ho : old.read a = Memory.unlistedByte
  · exact .inr (Memory.mem_of_read (fun hn => h (hn.trans ho.symm)))
  · exact .inl (Memory.mem_of_read ho)

/-- What is marked after a change: what was, and while READY = 1 what differs. -/
theorem mem_markChanges {ready : Bool} {old new : Memory} {marks : List Nat} {a : Nat} :
    a ∈ markChanges ready old new marks ↔ a ∈ marks ∨ (ready = true ∧ new.read a ≠ old.read a) := by
  cases ready with
  | false => simp [markChanges]
  | true =>
    simp only [markChanges, if_true, true_and]
    have key : ∀ l : List Nat, a ∈ l.foldr markAddress marks ↔ a ∈ marks ∨ a ∈ l := by
      intro l
      induction l with
      | nil => simp
      | cons x rest ih => rw [List.foldr_cons, mem_markAddress, ih, List.mem_cons]; tauto
    rw [key, Memory.mem_differences]

/-- A change keeps the marks in order. -/
theorem markChanges_sorted {ready : Bool} {old new : Memory} {marks : List Nat} (h : marks.Pairwise (· < ·)) :
    (markChanges ready old new marks).Pairwise (· < ·) := by
  cases ready with
  | false => exact h
  | true =>
    show ((Memory.differences old new).foldr markAddress marks).Pairwise (· < ·)
    generalize Memory.differences old new = l
    induction l with
    | nil => exact h
    | cons x rest ih => exact markAddress_sorted ih

/-! ## The block's reads -/

/-- A stream read of a byte the host has not changed is that byte. -/
theorem streamRead_unchanged {s : State} {i : Nat} (h : i ∉ s.streamChanged) (c : StreamCursor) :
    s.streamRead c i = s.stream.read i := if_neg h

/-- A stream read of a byte the host has changed is a draw. -/
theorem streamRead_changed {s : State} {i : Nat} (h : i ∈ s.streamChanged) (c : StreamCursor) :
    s.streamRead c i = Config.changedStreamByte s.draws c i := if_pos h

/-- A table read of a byte the host has not changed is that byte. -/
theorem tableByte_unchanged {s : State} {a : Nat} (h : a ∉ s.tableChanged) (u : EntryUse) :
    s.tableByte u a = s.table.read a := if_neg h

/-- A table read of a byte the host has changed is a draw. -/
theorem tableByte_changed {s : State} {a : Nat} (h : a ∈ s.tableChanged) (u : EntryUse) :
    s.tableByte u a = Config.changedTableByte s.draws u a := if_pos h

/-- A table stands exactly when no byte of it has changed. -/
theorem tableStands_iff {s : State} {base size : Nat} :
    s.tableStands base size = true ↔ ∀ a, base ≤ a → a < base + size → a ∉ s.tableChanged := by
  simp only [State.tableStands, List.all_eq_true, Bool.or_eq_true, decide_eq_true_eq]
  exact ⟨fun h a h1 h2 hm => by have := h a hm; omega, fun h a hm => by
    by_contra hc; exact h a (by omega) (by omega) hm⟩

end Sys2Proof.Machine
end

