-- ==== Sys2Proof/Laws/Icdf.lean ====
section
/-! SUPPORT. Symbol selection in an inverse-CDF table (spec/43_icdf.md R230 to R233). -/

namespace Sys2Proof.Machine

/-- What it says that the known entries fall: none lies above the bound, and none above an earlier one. -/
theorem fallingFrom_iff {entry : Nat → Nat} {known : Nat → Bool} {m k bound : Nat} :
    fallingFrom entry known m k bound = true ↔
      (∀ j, k ≤ j → j < k + m → known j = true → entry j ≤ bound) ∧
        ∀ i j, k ≤ i → i < j → j < k + m → known i = true → known j = true → entry j ≤ entry i := by
  induction m generalizing k bound with
  | zero => simp only [fallingFrom, true_iff]; exact ⟨fun j h1 h2 => by omega, fun i j h1 h2 h3 => by omega⟩
  | succ m ih =>
    simp only [fallingFrom]
    split
    · next hk =>
      rw [Bool.and_eq_true, decide_eq_true_eq, ih]
      constructor
      · rintro ⟨h0, h1, h2⟩
        refine ⟨fun j a b c => ?_, fun i j a b c d e => ?_⟩
        · rcases Nat.eq_or_lt_of_le a with rfl | a
          · exact h0
          · exact Nat.le_trans (h1 j a (by omega) c) h0
        · rcases Nat.eq_or_lt_of_le a with rfl | a
          · exact h1 j b (by omega) e
          · exact h2 i j a b (by omega) d e
      · rintro ⟨h1, h2⟩
        exact ⟨h1 k (Nat.le_refl _) (by omega) hk, fun j a b c => h2 k j (Nat.le_refl _) a (by omega) hk c,
          fun i j a b c => h2 i j (by omega) b (by omega)⟩
    · next hk =>
      rw [ih]
      constructor
      · rintro ⟨h1, h2⟩
        refine ⟨fun j a b c => ?_, fun i j a b c d e => ?_⟩
        · rcases Nat.eq_or_lt_of_le a with rfl | a
          · exact absurd c hk
          · exact h1 j a (by omega) c
        · rcases Nat.eq_or_lt_of_le a with rfl | a
          · exact absurd d hk
          · exact h2 i j a b (by omega) d e
      · rintro ⟨h1, h2⟩
        exact ⟨fun j a b c => h1 j (by omega) (by omega) c, fun i j a b c => h2 i j (by omega) b (by omega)⟩

/-- The scan stops at the least index below the key, if there is one (R231). -/
theorem firstBelow_spec {entry : Nat → Nat} {key m k : Nat} :
    k ≤ firstBelow entry key m k ∧ firstBelow entry key m k ≤ k + m ∧
      (∀ j, k ≤ j → j < firstBelow entry key m k → key ≤ entry j) ∧
      (firstBelow entry key m k < k + m → entry (firstBelow entry key m k) < key) := by
  induction m generalizing k with
  | zero => exact ⟨Nat.le_refl _, Nat.le_refl _, fun j h1 h2 => absurd h2 (by simp [firstBelow]; omega), fun h => absurd h (by simp [firstBelow])⟩
  | succ m ih =>
    simp only [firstBelow]
    split
    · next h => exact ⟨Nat.le_refl _, by omega, fun j h1 h2 => by omega, fun _ => h⟩
    · next h =>
      obtain ⟨a, b, c, d⟩ := ih (k := k + 1)
      refine ⟨by omega, by omega, fun j h1 h2 => ?_, fun h => d (by omega)⟩
      rcases Nat.eq_or_lt_of_le h1 with rfl | h3
      · omega
      · exact c j h3 h2

/-- On a table that ends in 0 the scan finds a symbol for every key from 1 on (R231). -/
theorem firstBelow_exists {entry : Nat → Nat} {key n : Nat} (hn : 1 ≤ n) (ht : entry (n - 1) = 0) (hk : 1 ≤ key) :
    firstBelow entry key n 0 < n ∧ entry (firstBelow entry key n 0) < key ∧
      ∀ j, j < firstBelow entry key n 0 → key ≤ entry j := by
  obtain ⟨_, b, c, d⟩ := firstBelow_spec (entry := entry) (key := key) (m := n) (k := 0)
  have hlt : firstBelow entry key n 0 < n := by
    by_contra h
    have := c (n - 1) (Nat.zero_le _) (by omega)
    omega
  exact ⟨hlt, d (by omega), fun j hj => c j (Nat.zero_le _) hj⟩

/-- What the bounds check says (R233). -/
theorem icdfBoundsOk_iff {low high : Nat → Nat} {ft p k : Nat} :
    icdfBoundsOk low high ft p k = true ↔
      0 ≤ icdfLow low ft k ∧ icdfLow low ft k ≤ p ∧ (p : Int) < icdfHigh high ft k := by
  simp only [icdfBoundsOk, Bool.and_eq_true]
  exact ⟨fun h => ⟨of_decide_eq_true h.1.1, of_decide_eq_true h.1.2, of_decide_eq_true h.2⟩,
    fun h => ⟨⟨decide_eq_true h.1, decide_eq_true h.2.1⟩, decide_eq_true h.2.2⟩⟩

/-- On a conforming table the symbol of R231 passes the bounds check of R233: `0 ≤ fl ≤ p < fh`. -/
theorem icdf_scan_bounds {entry : Nat → Nat} {n ft p : Nat} (hn : 1 ≤ n) (h : conformingTable entry n ft)
    (hp : p < ft) : icdfBoundsOk entry entry ft p (firstBelow entry (ft - p) n 0) = true := by
  obtain ⟨a, b, c⟩ := h
  obtain ⟨h1, h2, h3⟩ := firstBelow_exists hn a (show 1 ≤ ft - p by omega)
  have hmono : ∀ j, j < n → entry j ≤ ft := by
    intro j hj
    induction j with
    | zero => exact c
    | succ j ih => exact Nat.le_trans (b j (by omega)) (ih (by omega))
  generalize firstBelow entry (ft - p) n 0 = k at *
  rw [icdfBoundsOk_iff]
  simp only [icdfLow, icdfHigh]
  split
  · omega
  · have := h3 (k - 1) (by omega)
    have := hmono (k - 1) (by omega)
    omega

/-- An entry of a table that stands reads as memory holds it, for every use. -/
theorem icdfEntry_stands {s : State} {tb n nsyms k : Nat} (h : s.tableStands tb (n * nsyms) = true) (hk : k < nsyms)
    (hn : n = 1 ∨ n = 2) (u : EntryUse) : icdfEntry s u tb n k = icdfHeld s tb n k := by
  have hb : ∀ a, tb ≤ a → a < tb + n * nsyms → s.tableByte u a = s.table.read a :=
    fun a h1 h2 => tableByte_unchanged (tableStands_iff.mp h a h1 h2) u
  rcases hn with rfl | rfl
  · simp only [icdfEntry, icdfHeld, State.tableRead, entryValue, entryAddress]
    rw [if_neg (by decide), if_neg (by decide), hb _ (by omega) (by omega)]
  · simp only [icdfEntry, icdfHeld, State.tableRead, entryValue, entryAddress, if_true]
    rw [hb _ (by omega) (by omega), hb _ (by omega) (by omega)]

/-- An entry is its bytes, least significant first (spec/20_memory.md R76). -/
theorem entryValue_eq (byteAt : Nat → Byte) {tb n : Nat} (k : Nat) (hn : n = 1 ∨ n = 2) :
    entryValue byteAt (entryAddress tb n k) n = tableEntry byteAt tb n k := by
  rcases hn with rfl | rfl
  · simp [entryValue, entryAddress, tableEntry]
  · simp only [entryValue, entryAddress, tableEntry, if_true]
    rw [Nat.lor_comm, Nat.shiftLeft_eq, Nat.mul_comm (byteAt (tb + 2 * k + 1)).toNat,
      ← Nat.two_pow_add_eq_or_of_lt (i := 8) (byteAt (tb + 2 * k)).isLt]
    omega

theorem icdfEntry_eq {s : State} {u : EntryUse} {tb n k : Nat} (hn : n = 1 ∨ n = 2) :
    icdfEntry s u tb n k = tableEntry (s.tableByte u) tb n k := entryValue_eq _ _ hn

theorem icdfHeld_eq {s : State} {tb n k : Nat} (hn : n = 1 ∨ n = 2) :
    icdfHeld s tb n k = tableEntry s.table.read tb n k := entryValue_eq _ _ hn

/-- The model's test of the contract is the contract (R230, R239). -/
theorem icdfInContract_iff {s : State} {tb n nsyms ft : Nat} (hn : n = 1 ∨ n = 2) :
    icdfInContract s tb n nsyms ft = true ↔ s.tableInContract tb n nsyms ft := by
  simp only [icdfInContract, fallingFrom_iff, tableStands_iff, icdfHeld_eq hn, entryAddress, Nat.zero_add, Nat.zero_le,
    true_implies]
  exact ⟨fun h j h1 h2 => ⟨h.1 j h1 h2, fun i h3 h4 => h.2 i j h3 h1 h4 h2⟩,
    fun h => ⟨fun j h1 h2 => (h j h1 h2).1, fun i j h1 h2 h3 h4 => (h j h2 h4).2 i h1 h3⟩⟩

/-- The commands the model gives a meaning are those the spec gives one (R239). -/
theorem commandDefined_iff {i : Instr} {s : State} : commandDefined i s = true ↔ s.givesMeaning i := by
  cases i <;> simp [commandDefined, State.givesMeaning, Instr.icdfTable, icdfInContract_iff, Nat.one_shiftLeft] <;>
    exact ⟨by rintro h _ _ _ _ rfl rfl rfl rfl; exact h, fun h => h _ _ _ _ rfl rfl rfl rfl⟩

/-- A conforming table of which no byte has changed is within the contract (R230, R239). -/
theorem conforming_inContract {s : State} {tb n nsyms ft : Nat} (h : conformingTable (tableEntry s.table.read tb n) nsyms ft) :
    s.tableInContract tb n nsyms ft := by
  have hmono : ∀ i j, i ≤ j → j < nsyms → tableEntry s.table.read tb n j ≤ tableEntry s.table.read tb n i := by
    intro i j hij hj
    induction j, hij using Nat.le_induction with
    | base => exact Nat.le_refl _
    | succ j hij ih => exact Nat.le_trans (h.2.1 j (by omega)) (ih (by omega))
  exact fun j hj _ => ⟨Nat.le_trans (hmono 0 j (Nat.zero_le _) hj) h.2.2, fun i hi _ => hmono i j (Nat.le_of_lt hi) hj⟩

/-- The model's bounds check of a symbol is the check of R233. -/
theorem icdfSymbolOk_iff {s : State} {tb n ft k : Nat} (hn : n = 1 ∨ n = 2) :
    icdfSymbolOk s tb n ft k = true ↔ s.symbolFits tb n ft (lookup s.range.toNat s.position ft).1 k := by
  simp only [icdfSymbolOk, icdfBoundsOk_iff, icdfLow, icdfHigh, icdfEntry_eq hn, State.symbolFits, symbolLow]
  generalize (lookup s.range.toNat s.position ft).1 = p
  generalize tableEntry (s.tableByte .highBound) tb n k = hi
  generalize tableEntry (s.tableByte .lowBound) tb n (k - 1) = lo
  by_cases hk : k = 0
  · rw [if_pos hk, if_pos hk]; constructor <;> intro h <;> omega
  · rw [if_neg hk, if_neg hk]; constructor <;> intro h <;> omega

/-- Narrowing to a symbol whose bounds pass the check keeps the invariants of the window (R233). -/
theorem icdfRange_keeps {s : State} {low high : Nat → Nat} {ft k : Nat} (h1 : 1 ≤ ft) (h2 : ft ≤ 32768) (hr : s.rangeOk)
    (hk : icdfBoundsOk low high ft (lookup s.range.toNat s.position ft).1 k = true) (hw : s.windowClear) (hc : s.countOk)
    (hf : s.fwdOffset.toNat ≤ s.storage.toNat) :
    (s.narrowTo (icdfRange s low high ft k)).rangeOk ∧ (s.narrowTo (icdfRange s low high ft k)).windowClear ∧
      (s.narrowTo (icdfRange s low high ft k)).countOk ∧
      (s.narrowTo (icdfRange s low high ft k)).fwdOffset.toNat ≤ (s.narrowTo (icdfRange s low high ft k)).storage.toNat := by
  obtain ⟨_, b, d, _⟩ := lookup_spec (c := s.position) h1 (by have := hr.1; omega) s.range.isLt hr.2
  obtain ⟨ha, hb, hc'⟩ := icdfBoundsOk_iff.mp hk
  have hhi : icdfHigh high ft k ≤ ft := by simp only [icdfHigh]; omega
  have hin := (narrow_contains_iff (r := s.range.toNat) (c := s.position) (ft := ft)
    (fl := (icdfLow low ft k).toNat) (fh := (icdfHigh high ft k).toNat)).mpr ⟨by omega, by omega⟩
  have hbd := narrow_bounds (r := s.range.toNat) (ft := ft) (fl := (icdfLow low ft k).toNat)
    (fh := (icdfHigh high ft k).toNat) (by omega) (by omega) b d
  exact narrowTo_keeps hin.1 hin.2 hbd.2 hw hc hf

end Sys2Proof.Machine
end

