-- ==== Sys2Proof/Laws/Padding.lean ====
section
/-! SUPPORT. A buffer and the same buffer followed by zero bytes: the forward refill gives the same window on both
(spec/40_init_and_renormalization.md R150). -/

namespace Sys2Proof.Machine

/-- `t`'s buffer is `s`'s followed by zero bytes, and neither has changed since INIT. -/
structure PaddedBuffer (s t : State) : Prop where
  same : s.streamChanged = []
  same' : t.streamChanged = []
  longer : s.storage.toNat ≤ t.storage.toNat
  bytes : ∀ i, i < s.storage.toNat → t.stream.read i = s.stream.read i
  zeros : ∀ i, s.storage.toNat ≤ i → i < t.storage.toNat → t.stream.read i = 0

theorem PaddedBuffer.read_bytes {s t : State} (h : PaddedBuffer s t) {i : Nat} (hi : i < s.storage.toNat) (c : StreamCursor) :
    t.streamRead c i = s.streamRead c i := by
  rw [streamRead_unchanged (by simp [h.same']), streamRead_unchanged (by simp [h.same]), h.bytes i hi]

theorem PaddedBuffer.read_zeros {s t : State} (h : PaddedBuffer s t) {i : Nat} (hi : s.storage.toNat ≤ i)
    (hi' : i < t.storage.toNat) (c : StreamCursor) : t.streamRead c i = 0 := by
  rw [streamRead_unchanged (by simp [h.same']), h.zeros i hi hi']

/-- Past the shorter buffer the loop adds nothing. -/
theorem refillLoop_zeros {s t : State} (h : PaddedBuffer s t) (n val : Nat) (cnt : Int) (fwd : Nat)
    (hf : s.storage.toNat ≤ fwd) : (refillLoop t n val cnt fwd).1 = val ∧ s.storage.toNat ≤ (refillLoop t n val cnt fwd).2.2 := by
  induction n generalizing val cnt fwd with
  | zero => exact ⟨rfl, hf⟩
  | succ n ih =>
    simp only [refillLoop]
    split
    · next hc =>
      rw [h.read_zeros hf hc.2]
      obtain ⟨a, b⟩ := ih (val ||| ((0 : Byte).toNat <<< (8 - cnt).toNat)) (cnt + 8) (fwd + 1) (by omega)
      exact ⟨by rw [a]; simp, b⟩
    · exact ⟨rfl, hf⟩

/-- The loop gives the same window on both buffers, and the same count and cursor unless the shorter is exhausted. -/
theorem refillLoop_padded {s t : State} (h : PaddedBuffer s t) (n val : Nat) (cnt : Int) (fwd : Nat) :
    (refillLoop t n val cnt fwd).1 = (refillLoop s n val cnt fwd).1 ∧
      (refillLoop t n val cnt fwd = refillLoop s n val cnt fwd ∨
        (s.storage.toNat ≤ (refillLoop s n val cnt fwd).2.2 ∧ s.storage.toNat ≤ (refillLoop t n val cnt fwd).2.2)) := by
  induction n generalizing val cnt fwd with
  | zero => exact ⟨rfl, .inl rfl⟩
  | succ n ih =>
    have hl := h.longer
    by_cases hf : fwd < s.storage.toNat
    · simp only [refillLoop, hf, (show fwd < t.storage.toNat by omega), h.read_bytes hf]
      split
      · exact ih _ _ _
      · exact ⟨rfl, .inl rfl⟩
    · have hs : refillLoop s (n + 1) val cnt fwd = (val, cnt, fwd) := by simp only [refillLoop]; rw [if_neg (by omega)]
      obtain ⟨a, b⟩ := refillLoop_zeros h (n + 1) val cnt fwd (Nat.le_of_not_lt hf)
      rw [hs]
      exact ⟨a, .inr ⟨Nat.le_of_not_lt hf, b⟩⟩

/-- The registers of the window agree: the same count and cursor, or the shorter buffer exhausted in both. -/
def cursorsAgree (s : State) (cnt cnt' : Int) (fwd fwd' : Nat) : Prop :=
  (cnt' = cnt ∧ fwd' = fwd) ∨ (s.storage.toNat ≤ fwd ∧ s.storage.toNat ≤ fwd')

/-- `Refill` gives the same window on both buffers (R143, R150). -/
theorem refill_padded {s t : State} (h : PaddedBuffer s t) (val : Nat) (cnt : Int) (fwd : Nat) :
    (refill t val cnt fwd).1 = (refill s val cnt fwd).1 ∧
      cursorsAgree s (refill s val cnt fwd).2.1 (refill t val cnt fwd).2.1 (refill s val cnt fwd).2.2
        (refill t val cnt fwd).2.2 := by
  obtain ⟨a, b⟩ := refillLoop_padded h (refillPasses cnt) val cnt fwd
  refine ⟨a, ?_⟩
  rw [refill_eq, refill_eq]
  have hl := h.longer
  rcases b with b | b
  · rw [b]
    by_cases hx : s.storage.toNat ≤ (refillLoop s (refillPasses cnt) val cnt fwd).2.2
    · exact .inr ⟨hx, hx⟩
    · left
      dsimp only
      rw [if_neg hx, if_neg (by omega)]
      exact ⟨rfl, rfl⟩
  · exact .inr b

/-- `Renormalize`'s refill gives the same window on both buffers, from counts and cursors that agree. -/
theorem refillIfShort_padded {s t : State} (h : PaddedBuffer s t) (val : Nat) {cnt cnt' : Int} {fwd fwd' : Nat}
    (hc : cursorsAgree s cnt cnt' fwd fwd') :
    (refillIfShort t val cnt' fwd').1 = (refillIfShort s val cnt fwd).1 ∧
      cursorsAgree s (refillIfShort s val cnt fwd).2.1 (refillIfShort t val cnt' fwd').2.1
        (refillIfShort s val cnt fwd).2.2 (refillIfShort t val cnt' fwd').2.2 := by
  rcases hc with ⟨rfl, rfl⟩ | ⟨h1, h2⟩
  · simp only [refillIfShort]
    split
    · exact refill_padded h val cnt' fwd'
    · exact ⟨rfl, .inl ⟨rfl, rfl⟩⟩
  · have es : (refillIfShort s val cnt fwd).1 = val ∧ s.storage.toNat ≤ (refillIfShort s val cnt fwd).2.2 := by
      simp only [refillIfShort]
      split
      · rw [refill_eq]
        cases hp : refillPasses cnt with
        | zero => exact ⟨rfl, h1⟩
        | succ n => simp only [refillLoop, if_neg (show ¬ (cnt ≤ 8 ∧ fwd < s.storage.toNat) by omega)]; exact ⟨trivial, h1⟩
      · exact ⟨rfl, h1⟩
    have et : (refillIfShort t val cnt' fwd').1 = val ∧ s.storage.toNat ≤ (refillIfShort t val cnt' fwd').2.2 := by
      simp only [refillIfShort]
      split
      · rw [refill_eq]; exact refillLoop_zeros h _ _ _ _ h2
      · exact ⟨rfl, h2⟩
    exact ⟨by rw [es.1, et.1], .inr ⟨es.2, et.2⟩⟩

end Sys2Proof.Machine
end

