-- ==== Sys2Proof/Laws/PerInstr.lean ====
section
/-! SUPPORT. What holds of every command as syntax, one lemma per constructor: the opcode and the zero fields of
its word (spec/30_encoding.md R102, R103). -/

namespace Sys2Proof.Laws.EncodeFields

/-- The opcode of the command's row and the format the row names (spec/30_encoding.md R103). -/
def rowOf (i : Instr) : BitVec 5 × Format :=
  match i with
  | .init _ => (0x01, .a)
  | .tell => (0x02, .z)
  | .decode _ => (0x03, .b)
  | .decodeNorm _ => (0x04, .b)
  | .decodeBinNorm => (0x05, .z)
  | .decodeBin _ => (0x06, .b)
  | .update _ _ _ => (0x07, .u)
  | .decodeBitLogp _ => (0x08, .b)
  | .decodeIcdfFt _ _ _ => (0x09, .t)
  | .decodeIcdf16Ft _ _ _ => (0x0A, .t)
  | .decodeIcdf _ _ _ => (0x0B, .t)
  | .decodeIcdf16 _ _ _ => (0x0C, .t)
  | .decodeUint _ => (0x0D, .a)
  | .decodeBits _ => (0x0E, .b)

/-- The command's word has its row's opcode, the decoder takes that opcode for the row's format, and the bits which
that format wants zero are zero. -/
def Statement (i : Instr) : Prop :=
  fieldOp (encode i) = (rowOf i).1 ∧ formatOf (rowOf i).1.toNat = some (rowOf i).2 ∧
    encode i &&& zeroMask (rowOf i).2 = 0

theorem init (storage : BitVec 32) : Statement (.init storage) :=
  ⟨fieldOp_packWord .., rfl, (zeroMask_a_iff _).2 ⟨fieldRsv_packWord .., fieldNs_packWord .., fieldB_packWord ..⟩⟩

theorem tell : Statement .tell :=
  ⟨fieldOp_packWord .., rfl,
    (zeroMask_z_iff _).2 ⟨fieldRsv_packWord .., fieldNs_packWord .., fieldB_packWord .., fieldA_packWord ..⟩⟩

theorem decode (ft : BitVec 16) : Statement (.decode ft) :=
  ⟨fieldOp_packWord .., rfl, (zeroMask_b_iff _).2 ⟨fieldRsv_packWord .., fieldNs_packWord .., fieldA_packWord ..⟩⟩

theorem decodeNorm (ft : BitVec 16) : Statement (.decodeNorm ft) :=
  ⟨fieldOp_packWord .., rfl, (zeroMask_b_iff _).2 ⟨fieldRsv_packWord .., fieldNs_packWord .., fieldA_packWord ..⟩⟩

theorem decodeBinNorm : Statement .decodeBinNorm :=
  ⟨fieldOp_packWord .., rfl,
    (zeroMask_z_iff _).2 ⟨fieldRsv_packWord .., fieldNs_packWord .., fieldB_packWord .., fieldA_packWord ..⟩⟩

theorem decodeBin (ftb : BitVec 16) : Statement (.decodeBin ftb) :=
  ⟨fieldOp_packWord .., rfl, (zeroMask_b_iff _).2 ⟨fieldRsv_packWord .., fieldNs_packWord .., fieldA_packWord ..⟩⟩

theorem update (fl fh ft : BitVec 16) : Statement (.update fl fh ft) :=
  ⟨fieldOp_packWord .., rfl, (zeroMask_u_iff _).2 ⟨fieldRsv_packWord .., fieldNs_packWord ..⟩⟩

theorem decodeBitLogp (logp : BitVec 16) : Statement (.decodeBitLogp logp) :=
  ⟨fieldOp_packWord .., rfl, (zeroMask_b_iff _).2 ⟨fieldRsv_packWord .., fieldNs_packWord .., fieldA_packWord ..⟩⟩

theorem decodeIcdfFt (tb : BitVec 32) (ft : BitVec 16) (nsyms : Nat) : Statement (.decodeIcdfFt tb ft nsyms) :=
  ⟨fieldOp_packWord .., rfl, (zeroMask_t_iff _).2 (fieldRsv_packWord ..)⟩

theorem decodeIcdf16Ft (tb : BitVec 32) (ft : BitVec 16) (nsyms : Nat) : Statement (.decodeIcdf16Ft tb ft nsyms) :=
  ⟨fieldOp_packWord .., rfl, (zeroMask_t_iff _).2 (fieldRsv_packWord ..)⟩

theorem decodeIcdf (tb : BitVec 32) (ftb : BitVec 16) (nsyms : Nat) : Statement (.decodeIcdf tb ftb nsyms) :=
  ⟨fieldOp_packWord .., rfl, (zeroMask_t_iff _).2 (fieldRsv_packWord ..)⟩

theorem decodeIcdf16 (tb : BitVec 32) (ftb : BitVec 16) (nsyms : Nat) : Statement (.decodeIcdf16 tb ftb nsyms) :=
  ⟨fieldOp_packWord .., rfl, (zeroMask_t_iff _).2 (fieldRsv_packWord ..)⟩

theorem decodeUint (ft : BitVec 32) : Statement (.decodeUint ft) :=
  ⟨fieldOp_packWord .., rfl, (zeroMask_a_iff _).2 ⟨fieldRsv_packWord .., fieldNs_packWord .., fieldB_packWord ..⟩⟩

theorem decodeBits (nbits : BitVec 16) : Statement (.decodeBits nbits) :=
  ⟨fieldOp_packWord .., rfl, (zeroMask_b_iff _).2 ⟨fieldRsv_packWord .., fieldNs_packWord .., fieldA_packWord ..⟩⟩

end Sys2Proof.Laws.EncodeFields
end

