-- ==== Sys2Proof/Tests/Slice0.lean ====
section
/-! SUPPORT. The model's own tests. Every expected value is one of the spec's vectors (spec/95_test_vectors.md) or
worked examples, or a hand calculation from a rule; the test's comment names it. The second half shows, for each
statement with hypotheses, a state and operands that meet them. -/

namespace Sys2Proof.Tests

open Sys2Proof Sys2Proof.Machine

/-! ## Small states -/

/-- The buffer B5 of spec/95. -/
def b5 : List Byte := [0x12, 0x34, 0x56, 0x78, 0x9A]

/-- The buffer FF×4 of spec/95. -/
def ff4 : List Byte := [0xFF, 0xFF, 0xFF, 0xFF]

/-- The block after INIT on a whole buffer. -/
def started (buffer : List Byte) : State :=
  (State.reset.bindStream buffer).initialise (BitVec.ofNat 32 buffer.length)

/-- The block after INIT on B5 and `dec 300` (spec/95 V4): EXT 6, LOOKUP_FT 300. -/
def pendingB5 : State := (started b5).latchLookup 6 300

/-- A block with the fault record of cause 3 (spec/95 V10). -/
def faultedBlock : State := State.reset.enterFault .notInitialised 0x00000000012C0003

/-- The state with one table in table memory. -/
def withTable (s : State) (a : Nat) (bytes : List Byte) : State := { s with table := Memory.ofBytes a bytes }

/-- The state of a step that answers one. -/
def next (o : StepOutcome) : Option State :=
  match o with
  | .next s => some s
  | .fault _ => none
  | .refused _ => none

/-- The last response of a step: its status and its result. -/
def last (o : StepOutcome) : Option (StatusCode × Nat) :=
  (next o).bind fun s => s.responses.getLast?.map fun r => (r.status, r.result.toNat)

/-- VALUE, RANGE, COUNT and TOTAL_BITS after a step. -/
def window (o : StepOutcome) : Option (Nat × Nat × Int × Nat) :=
  (next o).map fun s => (s.value.toNat, s.range.toNat, s.count.toInt, s.totalBits.toNat)

/-- BWD_OFFSET, END_WINDOW, END_BITS and TOTAL_BITS after a step. -/
def reservoir (o : StepOutcome) : Option (Nat × Nat × Nat × Nat) :=
  (next o).map fun s => (s.bwdOffset.toNat, s.endWindow.toNat, s.endBits.toNat, s.totalBits.toNat)

/-- EXT, LOOKUP_FT and PENDING after a step. -/
def latches (o : StepOutcome) : Option (Nat × Nat × Bool) :=
  (next o).map fun s => (s.ext.toNat, s.lookupFt.toNat, s.pending)

/-- CAUSE and FAULT_CMD after a step that faults. -/
def record (o : StepOutcome) : Option (Nat × Nat) :=
  (next o).bind fun s => if s.fault then some (s.cause.toNat, s.faultCmd.toNat) else none

/-! ## Well-formedness: each check refuses a term that breaks it -/

theorem test_wellFormed_refuses_no_symbols :
    nsymsAtLeastOne 0 = false ∧ (Instr.decodeIcdf 0x1000 8 0).wellFormed = false ∧
      (Instr.decodeIcdfFt 0x1000 8 0).wellFormed = false ∧ (Instr.decodeIcdf16 0x1000 8 0).wellFormed = false ∧
      (Instr.decodeIcdf16Ft 0x1000 8 0).wellFormed = false := by decide

theorem test_wellFormed_refuses_257_symbols :
    nsymsFitsField 257 = false ∧ (Instr.decodeIcdf 0x1000 8 257).wellFormed = false ∧
      (Instr.decodeIcdfFt 0x1000 8 257).wellFormed = false ∧ (Instr.decodeIcdf16 0x1000 8 257).wellFormed = false ∧
      (Instr.decodeIcdf16Ft 0x1000 8 257).wellFormed = false := by decide

theorem test_wellFormed_accepts_bounds :
    (Instr.decodeIcdf 0x1000 8 1).wellFormed = true ∧ (Instr.decodeIcdf 0x1000 8 256).wellFormed = true := by decide

/-! ## Decoding: one word per constructor, from spec/95 V1 -/

theorem test_decode_init : decode 0x0000000500000001 = .ok (.init 5) := by rfl
theorem test_decode_tell : decode 0x0000000000000002 = .ok .tell := by rfl
theorem test_decode_decode : decode 0x00000000012C0003 = .ok (.decode 300) := by rfl
theorem test_decode_decodeNorm : decode 0x000000004E200004 = .ok (.decodeNorm 20000) := by rfl
theorem test_decode_decodeBinNorm : decode 0x0000000000000005 = .ok .decodeBinNorm := by rfl
theorem test_decode_decodeBin : decode 0x0000000000040006 = .ok (.decodeBin 4) := by rfl
theorem test_decode_update : decode 0x0014000A012C0007 = .ok (.update 10 20 300) := by rfl
theorem test_decode_decodeBitLogp : decode 0x0000000000010008 = .ok (.decodeBitLogp 1) := by rfl
theorem test_decode_decodeIcdfFt : decode 0x0000200075300209 = .ok (.decodeIcdfFt 0x2000 30000 3) := by rfl
theorem test_decode_decodeIcdf16Ft : decode 0x000020000064030A = .ok (.decodeIcdf16Ft 0x2000 100 4) := by rfl
theorem test_decode_decodeIcdf : decode 0x000010000002020B = .ok (.decodeIcdf 0x1000 2 3) := by rfl
theorem test_decode_decodeIcdf16 : decode 0x000030000008FF0C = .ok (.decodeIcdf16 0x3000 8 256) := by rfl
theorem test_decode_decodeUint : decode 0x000003E80000000D = .ok (.decodeUint 1000) := by rfl
theorem test_decode_decodeBits : decode 0x000000000003000E = .ok (.decodeBits 3) := by rfl

/-- spec/95 V1, the reserved words and the T word with every operand bit set. -/
theorem test_decode_reserved :
    decode 0x0000000000000000 = .error .illegalOpcode ∧ decode 0x000000000000000F = .error .illegalOpcode ∧
      decode 0x000000000000001F = .error .illegalOpcode ∧
      decode 0x0000000000000022 = .error .reservedFieldNonzero ∧
      decode 0x0000000100000003 = .error .reservedFieldNonzero ∧
      decode 0x000000000000010E = .error .reservedFieldNonzero ∧
      decode 0x0000000000050001 = .error .reservedFieldNonzero ∧
      decode 0xFFFFFFFFFFFFFF0B = .ok (.decodeIcdf 0xFFFFFFFF 0xFFFF 256) := ⟨rfl, rfl, rfl, rfl, rfl, rfl, rfl, rfl⟩

/-- The table's numbering of an instruction's bits is R100's. -/
theorem test_decodeTableWord : decodeTableWord 64 0x0014000A012C0007 = some (.update 10 20 300) ∧
    decodeTableWord 64 0 = none ∧ encode (.update 10 20 300) = 0x0014000A012C0007 := ⟨rfl, rfl, rfl⟩

/-! ## Pure functions on the spec's vectors -/

/-- spec/41 R178. -/
theorem test_lookup_vectors :
    lookup 0x8000 2330 300 = (18, 6) ∧ lookup 0x8000 2330 1 = (0, 15) ∧ lookup 0x8000 2330 32767 = (2329, 0) ∧
      lookup 0x8000 2330 20000 = (1165, 0) ∧ lookup 0x8000 2330 16384 = (1165, 1) ∧
      lookup 0x8000 2330 32768 = (2330, 0) := by decide

/-- spec/42 R205: the sub-ranges. -/
theorem test_narrow_vectors :
    narrow 0x8000 18 19 300 6 = (2304, 2432) ∧ narrow 0xC000 16 17 300 7 = (4096, 4352) ∧
      narrow 0xC000 268 269 300 7 = (45056, 45184) ∧ narrow 0xFFFF 8191 8192 16384 1 = (32764, 32768) ∧
      narrow 0xFFFF 16383 16384 16384 1 = (65532, 65535) := by decide

/-- spec/40 R145, spec/95 V3. -/
theorem test_renormShift_vectors :
    [1, 2, 3, 255, 256, 32767, 32768, 65535].map renormShift = [15, 14, 14, 8, 7, 1, 0, 0] := by decide

/-! ## One step per command -/

/-- spec/95 V2: INIT on three bytes and on four. -/
theorem test_init_3 : window (exec (.init 3) (State.reset.bindStream [0x12, 0x34, 0x56])) =
    some (0x091A2B00, 0x8000, 16384, 1) := by decide
theorem test_init_4 : window (exec (.init 4) (State.reset.bindStream [0x12, 0x34, 0x56, 0x78])) =
    some (0x091A2B00, 0x8000, 9, 1) := by decide

/-- spec/95 V9, V10: TELL after INIT, and before it. -/
theorem test_tell : last (exec .tell (started b5)) = some (.ok, 1) := by decide
theorem test_tell_uninitialised : record (exec .tell State.reset) = some (3, 2) := by decide

/-- spec/95 V4. -/
theorem test_decode_300 : last (exec (.decode 300) (started b5)) = some (.ok, 18) ∧
    latches (exec (.decode 300) (started b5)) = some (6, 300, true) := by decide
theorem test_decode_32767 : last (exec (.decode 32767) (started b5)) = some (.ok, 2329) := by decide

/-- spec/95 V4. -/
theorem test_decodeNorm_16384 : last (exec (.decodeNorm 16384) (started b5)) = some (.ok, 1165) ∧
    latches (exec (.decodeNorm 16384) (started b5)) = some (1, 16384, true) := by decide
theorem test_decodeNorm_low : record (exec (.decodeNorm 16383) (started b5)) = some (4, 0x3FFF0004) := by decide

/-- spec/95 V4. -/
theorem test_decodeBinNorm : last (exec .decodeBinNorm (started b5)) = some (.ok, 2330) ∧
    latches (exec .decodeBinNorm (started b5)) = some (0, 32768, true) := by decide

/-- spec/95 V4. -/
theorem test_decodeBin_4 : last (exec (.decodeBin 4) (started b5)) = some (.ok, 1) ∧
    latches (exec (.decodeBin 4) (started b5)) = some (11, 16, true) := by decide

/-- spec/95 V5: the completed update, and the one whose sub-range ends at the position. -/
theorem test_update_18 : window (exec (.update 18 19 300) pendingB5) = some (0x1A2B0000, 0x8000, 1, 9) ∧
    latches (exec (.update 18 19 300) pendingB5) = some (6, 300, false) := by decide
theorem test_update_17 : record (exec (.update 17 18 300) pendingB5) = some (8, 0x00120011012C0007) := by decide

/-- spec/95 V5: a bit that exhausts the buffer, and a bit 0. -/
theorem test_bitLogp_15 : window (exec (.decodeBitLogp 15) (started ff4)) = some (0x7FFFC000, 0x8000, 16384, 16) ∧
    last (exec (.decodeBitLogp 15) (started ff4)) = some (.ok, 1) := by decide
theorem test_bitLogp_3 : window (exec (.decodeBitLogp 3) (started b5)) = some (0x12345600, 0xE000, 8, 2) ∧
    last (exec (.decodeBitLogp 3) (started b5)) = some (.ok, 0) := by decide

/-- spec/43 R235's example. -/
theorem test_icdfFt :
    window (exec (.decodeIcdfFt 0x1000 256 4)
      (withTable (started [0x40, 0, 0, 0]) 0x1000 [0xC8, 0x64, 0x1E, 0])) = some (0x10000000, 0xC800, 7, 3) ∧
    last (exec (.decodeIcdfFt 0x1000 256 4)
      (withTable (started [0x40, 0, 0, 0]) 0x1000 [0xC8, 0x64, 0x1E, 0])) = some (.ok, 1) := by decide

/-- spec/43 R236's example; spec/95 V10 cause 10. -/
theorem test_icdf16Ft :
    window (exec (.decodeIcdf16Ft 0x2000 30000 3)
      (withTable (started [0x70, 0, 0, 0]) 0x2000 [0x20, 0x4E, 0x28, 0x23, 0, 0])) = some (0x18800000, 0xABE0, 7, 3) ∧
    last (exec (.decodeIcdf16Ft 0x2000 30000 3)
      (withTable (started [0x70, 0, 0, 0]) 0x2000 [0x20, 0x4E, 0x28, 0x23, 0, 0])) = some (.ok, 1) := by decide
theorem test_icdf16Ft_odd : record (exec (.decodeIcdf16Ft 0x2001 30000 3) (started b5)) =
    some (10, 0x000020017530020A) := by decide

/-- spec/43 R237's example; spec/95 V6, a table without its terminator. -/
theorem test_icdf :
    window (exec (.decodeIcdf 0x1000 8 4) (withTable (started ff4) 0x1000 [0xC8, 0x64, 0x1E, 0])) =
      some (0xEFFFF800, 0xF000, 5, 5) ∧
    last (exec (.decodeIcdf 0x1000 8 4) (withTable (started ff4) 0x1000 [0xC8, 0x64, 0x1E, 0])) = some (.ok, 3) := by
  decide
theorem test_icdf_unterminated :
    next (exec (.decodeIcdf 0x1000 8 4) (withTable (started b5) 0x1000 [0xC8, 0x64, 0x1E, 5])) =
      some (faulted (withTable (started b5) 0x1000 [0xC8, 0x64, 0x1E, 5]) 9 0x000010000008030B) := by
  rw [exec_raises (c := .icdfTableNonconforming) rfl rfl]
  rfl

/-- spec/43 R238's example; spec/95 V6, a table past the top of the address space. -/
theorem test_icdf16 :
    window (exec (.decodeIcdf16 0x3000 8 4) (withTable (started ff4) 0x3000 [0xC8, 0, 0x64, 0, 0x1E, 0, 0, 0])) =
      some (0xEFFFF800, 0xF000, 5, 5) ∧
    last (exec (.decodeIcdf16 0x3000 8 4) (withTable (started ff4) 0x3000 [0xC8, 0, 0x64, 0, 0x1E, 0, 0, 0])) =
      some (.ok, 3) := by decide
theorem test_icdf16_top : record (exec (.decodeIcdf16 0xFFFFFFFE 8 2) (started b5)) =
    some (11, 0xFFFFFFFE0008010C) := by decide

/-- spec/95 V7: the largest total, and the clamp that sets ERROR. -/
theorem test_uint_max : last (exec (.decodeUint 0xFFFFFFFF) (started b5)) = some (.ok, 307656858) ∧
    reservoir (exec (.decodeUint 0xFFFFFFFF) (started b5)) = some (4, 0x34, 8, 33) := by decide
theorem test_uint_257 : last (exec (.decodeUint 257) (started ff4)) = some (.ok, 256) ∧
    (next (exec (.decodeUint 257) (started ff4))).map (fun s => s.error) = some true ∧
    reservoir (exec (.decodeUint 257) (started ff4)) = some (4, 0x7FFFFFFF, 31, 10) := by decide

/-- spec/95 V8. -/
theorem test_bits_25 : last (exec (.decodeBits 25) (started b5)) = some (.ok, 5666970) ∧
    reservoir (exec (.decodeBits 25) (started b5)) = some (4, 0x1A, 7, 26) := by decide
theorem test_bits_8_saturates : last (exec (.decodeBits 8) (started [0x80, 0x01])) = some (.ok, 1) ∧
    reservoir (exec (.decodeBits 8) (started [0x80, 0x01])) = some (2, 0x80, 16376, 9) := by decide

/-- spec/95 V6: a table whose first entry is above the total faults whichever symbol the search ends on; a model refuses
one that rises. -/
theorem test_icdf_entry_above_total :
    record (exec (.decodeIcdf 0x4000 7 2) (withTable (started b5) 0x4000 [0xC8, 0])) = some (9, 0x000040000007010B) := by
  decide
theorem test_icdf_rising :
    exec (.decodeIcdf 0x3000 8 3) (withTable (started b5) 0x3000 [0x64, 0xC8, 0]) = .refused .nonconformingTable := rfl

/-! ## Witnesses: what the statements assume can be met -/

/-- The invariant holds after INIT, and with a lookup pending. -/
theorem test_inv_started : (started b5).Inv := by
  unfold State.Inv State.decoderOk State.rangeOk State.cursorsOk State.windowClear State.reservoirClear State.phaseOk
    State.countOk State.endBitsOk State.lookupFtOk
  decide
theorem test_inv_ff4 : (started ff4).Inv := by
  unfold State.Inv State.decoderOk State.rangeOk State.cursorsOk State.windowClear State.reservoirClear State.phaseOk
    State.countOk State.endBitsOk State.lookupFtOk
  decide
theorem test_inv_pending : pendingB5.Inv := by
  unfold State.Inv State.decoderOk State.rangeOk State.cursorsOk State.windowClear State.reservoirClear State.phaseOk
    State.countOk State.endBitsOk State.lookupFtOk
  decide
theorem test_idle_started : (started b5).idleReady ∧ (started b5).rangeOk ∧ (started ff4).idleReady := by
  unfold State.idleReady State.rangeOk; decide

theorem test_witness_DecodeOfEncode : (Instr.decodeIcdf 0xFFFFFFFF 0xFFFF 256).wellFormed = true ∧
    (Instr.decodeIcdf16Ft 0 0 1).wellFormed = true ∧ (Instr.update 0xFFFF 0 1).wellFormed = true := by decide

theorem test_witness_EncodeOfDecode : decode 0xFFFFFFFFFFFFFF0B = .ok (.decodeIcdf 0xFFFFFFFF 0xFFFF 256) := rfl

/-- Each clause of the decoding procedure has words: the reserved opcodes at their borders, one bit too many in each
format, and each opcode with its format's zero bits zero. -/
theorem test_witness_DecodingProcedure_reserved :
    (0x20 : CmdWord).toNat % 32 = 0 ∧ 15 ≤ (0x0F : CmdWord).toNat % 32 ∧ 15 ≤ (0x1F : CmdWord).toNat % 32 ∧
    ((0x22 : CmdWord).toNat % 32 = 2 ∧ (0x22 : CmdWord) &&& 0xFFFFFFFFFFFFFFE0 ≠ 0) ∧
    ((0x103 : CmdWord).toNat % 32 = 3 ∧ (0x103 : CmdWord) &&& 0xFFFFFFFF0000FFE0 ≠ 0) ∧
    ((0x10001 : CmdWord).toNat % 32 = 1 ∧ (0x10001 : CmdWord) &&& 0x00000000FFFFFFE0 ≠ 0) ∧
    ((0x107 : CmdWord).toNat % 32 = 7 ∧ (0x107 : CmdWord) &&& 0x000000000000FFE0 ≠ 0) ∧
    ((0x8B : CmdWord).toNat % 32 = 11 ∧ (0x8B : CmdWord) &&& 0x00000000000000E0 ≠ 0) := by decide
theorem test_witness_DecodingProcedure_fields :
    ([0x0000000500000001, 0xFFFFFFFF0000000D] : List CmdWord).all (fun w => w &&& 0x00000000FFFFFFE0 == 0) = true ∧
    ([0x02, 0x05] : List CmdWord).all (fun w => w &&& 0xFFFFFFFFFFFFFFE0 == 0) = true ∧
    ([0xFFFF0003, 0x4E200004, 0x40006, 0x10008, 0x3000E] : List CmdWord).all
      (fun w => w &&& 0xFFFFFFFF0000FFE0 == 0) = true ∧
    (0x0014000A012C0007 : CmdWord) &&& 0x000000000000FFE0 = 0 ∧
    ([0x0000200075300209, 0x000020000064030A, 0xFFFFFFFFFFFFFF0B, 0x000030000008FF0C] : List CmdWord).all
      (fun w => w &&& 0x00000000000000E0 == 0) = true := by decide

/-- An operand at its field's border, and one past it. -/
theorem test_witness_AssemblerFitsFields :
    assembleLine (.init 0xFFFFFFFF) = some (.init 0xFFFFFFFF) ∧ assembleLine (.init 0x100000000) = none ∧
    assembleLine (.dec 0xFFFF) = some (.decode 0xFFFF) ∧ assembleLine (.dec 0x10000) = none ∧
    assembleLine (.icdf 0 0 256) = some (.decodeIcdf 0 0 256) ∧ assembleLine (.icdf 0 0 257) = none ∧
    assembleLine (.icdf 0 0 0) = none := by
  simp [assembleLine, asmField, asmTable, asmNsyms, nsymsAtLeastOne, nsymsFitsField, Config.maxNsyms]

theorem test_witness_StepRunsDecoded :
    { State.reset with input := [.command 0x0000000500000001] }.input = .command 0x0000000500000001 :: [] ∧
      { State.reset with input := [.command 0x0000000500000001] }.resetDue = false ∧
      decode 0x0000000500000001 = .ok (.init 5) ∧ (Instr.init 5).wellFormed = true := ⟨rfl, rfl, rfl, rfl⟩

/-- The fetched word is the one that the next step runs, from reset. -/
theorem test_withFetchWord_init :
    window (step (State.reset.withFetchWord 64 0x0000000500000001)) = some (0, 0x8000, 9, 1) := by decide

theorem test_witness_IdleBlockHoldsState : State.reset.input = [] := rfl

/-- Each of the three responses occurs, and one of a block that must be reset; a word whose command has a meaning. -/
theorem test_witness_EveryCommandOneResponse :
    (∀ i, decode 0x000010000008030B = .ok i → (withTable (started b5) 0x1000 [0xC8, 0x64, 0x1E, 0]).idleReady →
      i.operandsInRange → (withTable (started b5) 0x1000 [0xC8, 0x64, 0x1E, 0]).givesMeaning i) ∧
    last (runWord 0x000010000008030B (withTable (started b5) 0x1000 [0xC8, 0x64, 0x1E, 0])) = some (.ok, 0) ∧
    last (runWord 0x0000000000000002 faultedBlock) = some (.refused, 0) ∧
    last (runWord 0x0000000000000000 State.reset) = some (.fault, 0) ∧
    last (runWord 0x0000000000000002 (started b5)) = some (.ok, 1) ∧
    faultedBlock.resetDue = false ∧ (started b5).resetDue = false ∧
    (next (runWord 2 State.reset.losePower)).map (fun t => t.responses.length) = some 1 := by
  refine ⟨fun i h _ _ => ?_, by decide⟩
  cases h
  exact commandDefined_iff.mp (by decide)

/-- Every command completes somewhere: with the statements of its family, on a state that meets the invariant. -/
theorem test_witness_ReturnValuesInRange :
    (started b5).Inv ∧ pendingB5.Inv ∧
    ([.init 0, .tell, .decode 300, .decodeNorm 32767, .decodeBinNorm, .decodeBin 15, .decodeBitLogp 0,
      .decodeIcdfFt 0 1 1, .decodeIcdf16Ft 0 1 1, .decodeIcdf 0 0 1, .decodeIcdf16 0 0 1, .decodeUint 257,
      .decodeBits 25] : List Instr).all (fun i => i.wellFormed && (last (exec i (started b5))).any (·.1 == .ok)) =
      true ∧ last (exec (.update 18 19 300) pendingB5) = some (.ok, 0) :=
  ⟨test_inv_started, test_inv_pending, by decide⟩

theorem test_witness_ResponsesLeaveInOrder :
    { faultedBlock with input := [.acceptResponse] }.responses = [{ status := .fault, result := 0 }] ∧
      { State.reset with input := [.acceptResponse] }.responses = [] := ⟨rfl, rfl⟩

theorem test_witness_FaultEntry : State.reset.fault = false ∧ State.reset.resetDue = false ∧
    (next (runWord 0x00000000012C0003 State.reset)).map (fun t => t.fault) = some true := by decide

/-- A word of a reserved opcode, and words of the first and last defined opcodes that do not decode. -/
theorem test_witness_UndecodableWordFaults :
    State.reset.resetDue = false ∧ record (runWord 0x0F State.reset) = some (1, 0x0F) ∧ decode 0x50001 = .error .reservedFieldNonzero ∧
      record (runWord 0x50001 State.reset) = some (2, 0x50001) ∧ record (runWord 0x10E State.reset) = some (2, 0x10E) := by
  decide

theorem test_witness_UninitialisedBlockFaults : State.reset.fault = false ∧ State.reset.ready = false ∧
    record (exec (.decode 0) State.reset) = some (3, 3) := by decide

/-- spec/95 V10: a lookup in the PENDING phase, and UPDATE in the IDLE phase. -/
theorem test_witness_PhaseViolationFaults :
    pendingB5.fault = false ∧ pendingB5.ready = true ∧ pendingB5.pending = true ∧ (started b5).pending = false ∧
      record (exec (.decode 0) pendingB5) = some (5, 3) ∧
      record (exec (.update 18 19 300) (started b5)) = some (6, 0x00130012012C0007) := by decide

/-- An operand just out of its range, for each command that has a range. -/
theorem test_witness_OperandOutOfRangeFaults :
    (∀ i ∈ ([.decode 0, .decode 32768, .decodeNorm 16383, .decodeNorm 32768, .decodeBin 16, .decodeBitLogp 16,
      .decodeIcdfFt 0 0 1, .decodeIcdf16Ft 0 32768 1, .decodeIcdf 0 16 1, .decodeIcdf16 0 16 1, .decodeUint 0,
      .decodeBits 26] : List Instr), ¬ i.operandsInRange ∧
        (record (exec i (started b5))).map Prod.fst = some 4) ∧
    (∀ i ∈ ([.update 0 1 0, .update 0 1 32769, .update 18 18 300, .update 18 301 300] : List Instr),
      ¬ i.operandsInRange ∧ (record (exec i pendingB5)).map Prod.fst = some 4) := by
  refine ⟨fun i hi => ?_, fun i hi => ?_⟩ <;> simp only [List.mem_cons, List.not_mem_nil, or_false] at hi <;>
    (rcases hi with rfl | rfl | rfl | rfl | rfl | rfl | rfl | rfl | rfl | rfl | rfl | rfl) <;>
    (unfold Instr.operandsInRange; decide)

/-- spec/95 V5: a total one off, and the sub-ranges just below and just above the position. -/
theorem test_witness_UpdateMismatchFaults :
    (Instr.update 18 19 301).operandsInRange ∧ (301 : BitVec 16) ≠ pendingB5.lookupFt ∧
    (300 : BitVec 16) = pendingB5.lookupFt ∧ scaledBound pendingB5.range.toNat 300 6 18 ≤ pendingB5.position ∧
    ¬ pendingB5.position < scaledBound pendingB5.range.toNat 300 6 18 ∧
    ¬ scaledBound pendingB5.range.toNat 300 6 19 ≤ pendingB5.position := by
  unfold Instr.operandsInRange; decide

/-- An odd base; a table one byte past the top, and one that ends at it; a last entry that is not 0. -/
theorem test_witness_TableFaults :
    (withTable (started b5) 0x1000 [0xC8, 0x64, 0x1E, 5]).idleReady ∧ (Instr.decodeIcdf16 0x2001 8 3).operandsInRange ∧
    (Instr.decodeIcdf16 0x2001 8 3).icdfTable = some (0x2001, 2, 3, 256) ∧
    (Instr.decodeIcdf 0xFFFFFFFF 8 2).icdfTable = some (0xFFFFFFFF, 1, 2, 256) ∧
    2 ^ 32 - 1 < 0xFFFFFFFF + 1 * 2 - 1 ∧ 0xFFFFFFFF + 1 * 1 - 1 ≤ 2 ^ 32 - 1 ∧
    (Instr.decodeIcdf 0x1000 8 4).icdfTable = some (0x1000, 1, 4, 256) ∧
    tableEntry ((withTable (started b5) 0x1000 [0xC8, 0x64, 0x1E, 5]).tableByte .terminator) 0x1000 1 3 ≠ 0 :=
  ⟨test_idle_started.1, by unfold Instr.operandsInRange; decide, by decide⟩

theorem test_witness_FaultedBlockRefuses : faultedBlock.fault = true ∧ faultedBlock.resetDue = false := ⟨rfl, rfl⟩

theorem test_witness_OnlyResetClearsFault : { faultedBlock with input := [.command 2] }.fault = true ∧
    { faultedBlock with input := [.command 2] }.resetDue = false ∧
    (next (step { faultedBlock with input := [.command 2] })).map (fun t => t.fault) = some true := by decide

theorem test_witness_StepKeepsFaultRecord : State.reset.faultRecordOk ∧ faultedBlock.faultRecordOk := by
  unfold State.faultRecordOk; decide

/-- ERROR goes by INIT and by reset, and comes by a split total's clamp. -/
theorem test_witness_ErrorIsSticky :
    (started b5).setError.resetDue = false ∧ (started ff4).resetDue = false ∧
    (next (step { (started b5).setError with input := [.command 0x0000000500000001] })).map (fun t => t.error) =
      some false ∧
    (next (step { (started b5).setError with input := [.reset] })).map (fun t => t.error) = some false ∧
    (next (step { started ff4 with input := [.command 0x000001010000000D] })).map (fun t => t.error) = some true := by
  decide

theorem test_witness_ResetClearsRegisters : { started b5 with input := [.reset] }.input = .reset :: [] := rfl

/-- INIT in the PENDING phase, and on no bytes (spec/95 V2, P4 step 7). -/
theorem test_witness_InitCompletes : pendingB5.fault = false ∧
    latches (exec (.init 5) pendingB5) = some (0, 0, false) ∧
    window (exec (.init 0) (started ff4)) = some (0, 0x8000, 16384, 1) := by decide

/-- Two pasts, a different draw counter among them. -/
theorem test_witness_InitForgetsThePast :
    (started b5).setError.faultRecordOk ∧ pendingB5.faultRecordOk ∧ (started b5).setError.stream = pendingB5.stream ∧
      (started b5).setError.responses = [] ∧
      ((runInstrs [.init 5, .decode 300] pendingB5).map (fun t => t.responses.length)) = some 2 ∧
      ((runInstrs [.init 5, .decode 300] (started b5).setError.nextDraw).map (fun t => t.responses.length)) = some 2 := by
  unfold State.faultRecordOk; decide

theorem test_witness_TellCompletes : (started b5).fault = false ∧ (started b5).ready = true := by decide

/-- The least and the greatest count a refill starts from, with windows whose unloaded bits are zero. -/
theorem test_witness_RefillPlacesBytes :
    (-15 : Int) ≤ -15 ∧ 0 % 2 ^ (16 - (-15 : Int)).toNat = 0 ∧ 0x80000000 < 2 ^ 32 ∧
      0x80000000 % 2 ^ (16 - (-15 : Int)).toNat = 0 ∧ 0x12340000 % 2 ^ (16 - (-1 : Int)).toNat = 0 ∧
      5 ≤ (started b5).storage.toNat := by decide

theorem test_witness_RenormalizationShift : renormShift 1 = 15 ∧ renormShift 32768 = 0 ∧ renormShift 65535 = 0 := by
  decide

/-- The count at 0, at 16 and at the sentinel; a range of 1 and a normal one. -/
theorem test_witness_RenormalizeRestoresInvariants :
    (started b5).count.toInt = 9 ∧ 0x2B00 / 2 ^ 16 < 1 ∧ 0x2B00 % 2 ^ (16 - (9 : Int)).toNat = 0 ∧
    (started [0x12]).count.toInt = 0x4000 ∧ 0 % 2 ^ (min 16 (0x4000 - (0x4000 : Int)).toNat) = 0 ∧
    0x091A2B00 / 2 ^ 16 < 32768 ∧ (started b5).fwdOffset.toNat ≤ (started b5).storage.toNat := by decide

theorem test_witness_LookupFunction : (32768 ≤ 65535 ∧ 65535 < 65536 ∧ 65534 < 65535 ∧ 1 ≤ 32768 ∧ 32768 ≤ 32768) ∧
    lookup 65535 65534 32768 = (32767, 0) ∧ lookup 65535 65534 1 = (0, 15) := by decide

theorem test_witness_LookupProperties : lookup 32768 32767 32768 = (32767, 0) ∧ lookup 32768 0 1 = (0, 15) := by decide

/-- The four forms, each at a border of its range. -/
theorem test_witness_LookupCommandsComplete :
    (started b5).idleReady ∧ (started b5).rangeOk ∧
    (Instr.decode 1).operandsInRange ∧ (Instr.decode (BitVec.ofNat 16 32767)).operandsInRange ∧
    (Instr.decodeNorm (BitVec.ofNat 16 16384)).operandsInRange ∧ Instr.decodeBinNorm.operandsInRange ∧
    (Instr.decodeBin 0).operandsInRange ∧ (Instr.decodeBin 15).operandsInRange :=
  ⟨test_idle_started.1, test_idle_started.2.1, by
    unfold Instr.operandsInRange; decide⟩

theorem test_witness_LookupEquivalences :
    (started b5).idleReady ∧
    16384 ≤ (16384 : BitVec 16).toNat ∧ (32767 : BitVec 16).toNat ≤ 32767 ∧
    (14 : BitVec 16).toNat ≤ 14 :=
  ⟨test_idle_started.1, by decide⟩

/-- spec/42 R205, the last row. -/
theorem test_witness_NarrowTilesTheRange : 16384 * 2 ^ 1 ≤ 0xFFFF ∧ 0xFFFF < 2 * (16384 * 2 ^ 1) ∧
    16383 < 16384 ∧ 0xFFFE < 0xFFFF := by decide

theorem test_witness_UpdateCompletes :
    pendingB5.Inv ∧ pendingB5.fault = false ∧ pendingB5.ready = true ∧ pendingB5.pending = true ∧
    (Instr.update 18 19 300).operandsInRange ∧ 300 = pendingB5.lookupFt ∧
    scaledBound pendingB5.range.toNat 300 pendingB5.ext.toNat 18 ≤ pendingB5.position ∧
    pendingB5.position < scaledBound pendingB5.range.toNat 300 pendingB5.ext.toNat 19 :=
  ⟨test_inv_pending, rfl, rfl, rfl, by
    unfold Instr.operandsInRange; decide⟩

/-- spec/95 V5: the probe 18 lies in `[18, 19)` and not in `[19, 300)`; V4: the forms of total 32768. -/
theorem test_witness_UpdateAcceptsTheProbesSymbol :
    (started b5).idleReady ∧ (started b5).Inv ∧
    (Instr.update 18 19 300).operandsInRange ∧
    (Instr.update 19 300 300).operandsInRange ∧ last (exec (.decode 300) (started b5)) = some (.ok, 18) ∧
    (Instr.decode 300).lookupTotal = some (300 : BitVec 16).toNat ∧ (Instr.decode 300).operandsInRange ∧
    Instr.decodeBinNorm.lookupTotal = some (32768 : BitVec 16).toNat ∧ Instr.decodeBinNorm.operandsInRange ∧
    (Instr.decodeBin 15).lookupTotal = some (32768 : BitVec 16).toNat ∧ (Instr.decodeBin 15).operandsInRange ∧
    (Instr.update 2330 2331 32768).operandsInRange ∧ last (exec .decodeBinNorm (started b5)) = some (.ok, 2330) :=
  ⟨test_idle_started.1, test_inv_started, by
    unfold Instr.operandsInRange; decide⟩

/-- Both sides of the split point occur. -/
theorem test_witness_BitLogpCompletes :
    (started b5).idleReady ∧ (started b5).Inv ∧
    last (exec (.decodeBitLogp 1) (started b5)) = some (.ok, 0) ∧
    last (exec (.decodeBitLogp 0) (started b5)) = some (.ok, 1) :=
  ⟨test_idle_started.1, test_inv_started, by decide⟩
theorem test_witness_BitLogpIsLookupThenUpdate :
    (started b5).idleReady ∧ (started b5).Inv ∧
    last (exec (.decodeBin 1) (started b5)) = some (.ok, 0) ∧
    last (exec (.decodeBin 0) (started b5)) = some (.ok, 0) :=
  ⟨test_idle_started.1, test_inv_started, by decide⟩

/-- The four table commands with conforming tables; one that ends at the top of the address space. -/
theorem test_witness_TableCommandsComplete :
    (withTable (started b5) 0x1000 [0xC8, 0x64, 0x1E, 0]).idleReady ∧ (withTable (started b5) 0x1000 [0xC8, 0x64, 0x1E, 0]).Inv ∧
    (Instr.decodeIcdf 0x1000 8 4).operandsInRange ∧
    conformingTable (tableEntry (Memory.read (Memory.ofBytes 0x1000 [0xC8, 0x64, 0x1E, 0])) 0x1000 1) 4 256 ∧
    conformingTable (tableEntry (Memory.read (Memory.ofBytes 0x2000 [0x20, 0x4E, 0x28, 0x23, 0, 0])) 0x2000 2) 3 30000 ∧
    conformingTable (tableEntry (started b5).table.read 0xFFFFFFFF 1) 1 1 ∧
    (Instr.decodeIcdf 0x1000 8 4).icdfTable = some (0x1000, 1, 4, 256) ∧
    (Instr.decodeIcdfFt 0x1000 256 4).icdfTable = some (0x1000, 1, 4, 256) ∧
    (Instr.decodeIcdf16Ft 0x2000 30000 3).icdfTable = some (0x2000, 2, 3, 30000) ∧
    (Instr.decodeIcdf16 0x2000 15 3).icdfTable = some (0x2000, 2, 3, 32768) ∧
    0xFFFFFFFF + 1 * 1 - 1 ≤ 2 ^ 32 - 1 :=
  ⟨test_idle_started.1, test_inv_started, by unfold Instr.operandsInRange; decide, by
    unfold conformingTable; decide⟩

/-- A table next to a changed byte is unchanged, and one that holds it is not. -/
theorem test_tableUnchanged_borders :
    { started b5 with tableChanged := [0xFFF, 0x1004] }.tableUnchanged 0x1000 (1 * 4) ∧
      ¬ { started b5 with tableChanged := [0x1003] }.tableUnchanged 0x1000 (1 * 4) := by
  refine ⟨fun a h1 h2 => ?_, fun h => h 0x1003 (by decide) (by decide) (by decide)⟩
  simp only [List.mem_cons, List.not_mem_nil, or_false, not_or]
  omega

theorem test_witness_BinarySearchFindsTheSymbol :
    conformingTable (fun k => [200, 100, 30, 0].getD k 0) 4 256 ∧ Nat.clog 2 4 ≤ 2 ∧
      binarySearch (fun k => [200, 100, 30, 0].getD k 0) 192 2 0 3 = 1 := by
  refine ⟨by unfold conformingTable; decide, (Nat.clog_le_iff_le_pow (by decide)).2 (by decide), by decide⟩

/-- spec/95 V6: a terminated table that rises, with a symbol whose bounds pass (p is 18); and one with an entry above
the total, with none (p is 9). -/
theorem test_witness_NonconformingTableOutcome :
    (withTable (started b5) 0x3000 [0x64, 0xC8, 0]).idleReady ∧ (withTable (started b5) 0x3000 [0x64, 0xC8, 0]).Inv ∧
    (Instr.decodeIcdf 0x3000 8 3).operandsInRange ∧ (Instr.decodeIcdf 0x4000 7 2).operandsInRange ∧
    ¬ (withTable (started b5) 0x3000 [0x64, 0xC8, 0]).tableInContract 0x3000 1 3 256 ∧
    ¬ (withTable (started b5) 0x4000 [0xC8, 0]).tableInContract 0x4000 1 2 128 ∧
    (Instr.decodeIcdf 0x3000 8 3).icdfTable = some (0x3000, 1, 3, 256) ∧
    (Instr.decodeIcdf 0x4000 7 2).icdfTable = some (0x4000, 1, 2, 128) ∧
    tableEntry ((withTable (started b5) 0x3000 [0x64, 0xC8, 0]).tableByte .terminator) 0x3000 1 (3 - 1) = 0 ∧
    tableEntry ((withTable (started b5) 0x4000 [0xC8, 0]).tableByte .terminator) 0x4000 1 (2 - 1) = 0 ∧
    (withTable (started b5) 0x3000 [0x64, 0xC8, 0]).symbolFits 0x3000 1 256 18 0 ∧
    ∀ k, k < 2 → ¬ (withTable (started b5) 0x4000 [0xC8, 0]).symbolFits 0x4000 1 128 9 k :=
  ⟨test_idle_started.1, test_inv_started, by unfold Instr.operandsInRange; decide, by
    unfold Instr.operandsInRange; decide, fun h => absurd ((icdfInContract_iff (.inl rfl)).mpr h) (by decide),
    fun h => absurd ((icdfInContract_iff (.inl rfl)).mpr h) (by decide), rfl, rfl, by decide, by decide, by
    unfold State.symbolFits; decide, by unfold State.symbolFits; decide⟩

/-- A table of whose bytes, not its last, one has changed while READY = 1; the others fall. -/
theorem test_witness_ChangedTableOutcome :
    ((withTable (started b5) 0x3000 [0xC8, 0x64, 0]).writeTable 0x3000 0xFF).idleReady ∧
    ((withTable (started b5) 0x3000 [0xC8, 0x64, 0]).writeTable 0x3000 0xFF).Inv ∧
    (Instr.decodeIcdf 0x3000 8 3).operandsInRange ∧
    (Instr.decodeIcdf 0x3000 8 3).icdfTable = some (0x3000, 1, 3, 256) ∧
    ((withTable (started b5) 0x3000 [0xC8, 0x64, 0]).writeTable 0x3000 0xFF).tableStands 0x3000 (1 * 3) = false ∧
    tableEntry ((withTable (started b5) 0x3000 [0xC8, 0x64, 0]).writeTable 0x3000 0xFF |>.tableByte .terminator) 0x3000 1
      (3 - 1) = 0 ∧
    ((withTable (started b5) 0x3000 [0xC8, 0x64, 0]).writeTable 0x3000 0xFF).tableInContract 0x3000 1 3 256 :=
  ⟨test_idle_started.1, test_inv_started, by unfold Instr.operandsInRange; decide, rfl, by decide, by decide,
    (icdfInContract_iff (.inl rfl)).mp (by decide)⟩

theorem test_witness_UintDirectCompletes :
    (started b5).idleReady ∧ (started b5).Inv ∧
    1 ≤ (1 : BitVec 32).toNat ∧ (256 : BitVec 32).toNat ≤ 256 :=
  ⟨test_idle_started.1, test_inv_started, by decide⟩

/-- Both the clamped and the plain outcome of a split total occur (spec/95 V7). -/
theorem test_witness_UintSplitCompletes :
    (started ff4).idleReady ∧ (started ff4).Inv ∧
    256 < (257 : BitVec 32).toNat ∧
    last (exec (.decodeUint 513) (started ff4)) = some (.ok, 512) ∧
    last (exec (.decodeUint 512) (started ff4)) = some (.ok, 511) :=
  ⟨test_idle_started.2.2, test_inv_ff4, by decide⟩

theorem test_witness_DecodeBitsCompletes :
    pendingB5.Inv ∧
    pendingB5.fault = false ∧ pendingB5.ready = true ∧
    (25 : BitVec 16).toNat ≤ 25 :=
  ⟨test_inv_pending, by decide⟩

/-- The three clauses: enough bits held, a refill the buffer has, and one that empties it (spec/95 V8). -/
theorem test_witness_DecodeBitsReservoir :
    (started b5).Inv ∧
    (0 : BitVec 16).toNat ≤ (started b5).endBits.toNat ∧
    ((started b5).endBits.toNat < (25 : BitVec 16).toNat ∧
      (started b5).bwdOffset.toNat + (32 - (started b5).endBits.toNat) / 8 ≤ (started b5).storage.toNat) ∧
    ((started [0x80, 1]).endBits.toNat < (25 : BitVec 16).toNat ∧
      (started [0x80, 1]).storage.toNat < (started [0x80, 1]).bwdOffset.toNat + (32 - (started [0x80, 1]).endBits.toNat) / 8) :=
  ⟨test_inv_started, by
    decide⟩

theorem test_witness_CommandsWriteNoMemory :
    (next (runWord 0x0000000500000001 (State.reset.bindStream b5))).isSome = true := by decide

/-- Host writes: one of another byte and one of the byte that is there, while READY = 1 and before INIT. -/
theorem test_witness_HostWritesMarkChanges :
    { started b5 with input := [.writeStream 0 7] }.memoriesOk ∧ (started b5).ready = true ∧
    ((started b5).writeStream 0 7).streamChanged = [0] ∧ ((started b5).writeStream 0 0x12).streamChanged = [] ∧
    ((started b5).writeTable 9 7).tableChanged = [9] ∧ ((started b5).writeTable 9 0).tableChanged = [] ∧
    (State.reset.writeStream 0 7).streamChanged = [] ∧ (State.reset.writeTable 9 7).tableChanged = [] ∧
    ((started b5).bindStream [0x12, 0, 0x56, 0x78]).streamChanged = [1, 4] := by
  unfold State.memoriesOk; decide

/-- A byte changed and changed back is still a draw (spec/93 U12), and its neighbour reads as written. -/
theorem test_changed_back :
    0 ∈ (((started b5).writeStream 0 7).writeStream 0 0x12).streamChanged ∧
    (((started b5).writeStream 0 7).writeStream 0 0x12).stream.read 0 = 0x12 ∧
    1 ∉ (((started b5).writeStream 0 7).writeStream 0 0x12).streamChanged ∧
    9 ∈ (((started b5).writeTable 9 7).writeTable 9 0).tableChanged ∧ 10 ∉ ((started b5).writeTable 9 7).tableChanged := by
  decide

/-- A command and a host write that keep a mark, and a reset and an INIT after which there is none. -/
theorem test_witness_ChangesLastUntilInitOrReset :
    (next (step { (started b5).writeTable 9 7 with input := [.command 2] })).map (fun t => t.tableChanged) = some [9] ∧
    decode 2 ≠ .ok (.init 5) ∧
    (next (step { (started b5).writeStream 9 7 with input := [.writeStream 3 0] })).map (fun t => t.streamChanged) =
      some [3, 9] ∧
    (next (step { (started b5).writeTable 9 7 with input := [.reset] })).map (fun t => t.tableChanged) = some [] ∧
    ((started b5).writeTable 9 7).fault = false ∧
    (next (exec (.init 5) ((started b5).writeTable 9 7))).map (fun t => t.tableChanged) = some [] := by decide

/-- Power is lost; a word then gets one response; reset ends it. -/
theorem test_witness_PowerLossForgetsTheRegisters :
    (next (step { faultedBlock with input := [.powerLoss] })).map (fun t => (t.resetDue, t.responses.length)) =
      some (true, 0) ∧
    faultedBlock.losePower.resetDue = true ∧
    (next (runWord 2 faultedBlock.losePower)).map (fun t => (t.resetDue, t.responses.length)) = some (true, 1) ∧
    (next (step { faultedBlock.losePower with input := [.reset, .command 2] })).map (fun t => (t.resetDue, t.fault)) =
      some (false, false) := by decide

theorem test_witness_StepKeepsMemoriesCanonical : State.reset.memoriesOk ∧
    (withTable (started b5) 0x1000 [0xC8, 0, 0x1E, 0]).memoriesOk := by
  unfold State.memoriesOk; decide

/-- A step that moves a cursor (spec/95 V7: `uint 257` reads four bytes from the back). -/
theorem test_witness_CursorsOnlyAdvance :
    { started b5 with input := [.command 0x000001010000000D] }.Inv ∧
    { started b5 with input := [.command 0x000001010000000D] }.ready = true ∧
    { started b5 with input := [.command 0x000001010000000D] }.resetDue = false ∧
    (next (step { started b5 with input := [.command 0x000001010000000D] })).map (fun t => t.bwdOffset.toNat) =
      some 4 :=
  ⟨test_inv_started, by decide⟩

/-- Addresses at the borders of the map's entries. -/
theorem test_witness_RegisterPortMap :
    (0x03 : BitVec 8).toNat / 4 = 0 ∧ (0x24 : BitVec 8).toNat / 4 = 9 ∧ (0x37 : BitVec 8).toNat / 4 = 13 ∧
      14 ≤ (0x38 : BitVec 8).toNat / 4 ∧ 14 ≤ (0xFF : BitVec 8).toNat / 4 ∧
      csrRead (started b5) 0x0A = 9 ∧ csrRead (started b5) 0x34 = 0x40000820 := by decide

theorem test_witness_StepKeepsInvariants :
    { started b5 with input := [.command 0x00000000012C0003] }.Inv ∧
    (next (step { started b5 with input := [.command 0x00000000012C0003] })).map (fun t => t.resetDue) = some false ∧
    (next (step { started b5 with input := [.command 0x00000000012C0003] })).isSome = true :=
  ⟨test_inv_started, by decide⟩

/-- spec/40 R150: three bytes, and the same with a zero byte after them. -/
theorem test_witness_ZeroPaddingInvisible :
    (∀ i, i < 3 → (Memory.ofBytes 0 [0x12, 0x34, 0x56, 0]).read i = (Memory.ofBytes 0 [0x12, 0x34, 0x56]).read i) ∧
    (Memory.ofBytes 0 [0x12, 0x34, 0x56, 0]).read 3 = 0 ∧ (Instr.decodeBitLogp 15).readsRawBits = false ∧
    (Instr.decodeUint 256).readsRawBits = false ∧ (Instr.decodeUint 257).readsRawBits = true ∧
    ((runInstrs [.init 3, .decodeBitLogp 15] (State.reset.bindStream [0x12, 0x34, 0x56])).map
      (fun t => t.responses.length)) = some 2 := by decide

/-- Two bytes, and the same with a zero byte before them. -/
theorem test_witness_ZeroPrefixInvisible :
    (∀ i, i < 2 → (Memory.ofBytes 0 [0, 0x80, 1]).read (3 - 2 + i) = (Memory.ofBytes 0 [0x80, 1]).read i) ∧
    (∀ i, i < 3 - 2 → (Memory.ofBytes 0 [0, 0x80, 1]).read i = 0) ∧
    ((runInstrs (.init 2 :: [25, 25].map Instr.decodeBits) (State.reset.bindStream [0x80, 1])).map
      (fun t => t.responses.map (fun r => r.result.toNat))) = some [0, 32769, 0] := by decide

/-- The one event on which the step stops, a table command that the model refuses (spec/95 V6), and one with a meaning. -/
theorem test_witness_OnlyAnUnansweringHostStops :
    { State.reset with input := [.neverAnswers] }.input = .neverAnswers :: [] ∧ State.reset.input = [] ∧
    step { withTable (started b5) 0x3000 [0x64, 0xC8, 0] with input := [.command 0x000030000008020B] } =
      .refused .nonconformingTable ∧
    (withTable (started b5) 0x3000 [0xC8, 0x64, 0]).givesMeaning (.decodeIcdf 0x3000 8 3) :=
  ⟨rfl, rfl, rfl, commandDefined_iff.mp (by decide)⟩

end Sys2Proof.Tests
end

