-- ==== Sys2Proof/Proofs/LookupThenUpdate.lean ====
section
/-! PROOFS. The four lookup commands as one, the checks of UPDATE while a lookup is pending, and the two together
(spec/41_frequency_lookup.md R172 to R176, spec/42_update_and_bit.md R202). -/

namespace Sys2Proof.Machine

/-! ## The four lookup commands -/

/-- The commands that have a lookup total, with the total of each (R173 to R176). -/
theorem lookupTotal_cases {i : Instr} {n : Nat} (h : i.lookupTotal = some n) :
    (∃ ft, i = .decode ft ∧ n = ft.toNat) ∨ (∃ ft, i = .decodeNorm ft ∧ n = ft.toNat) ∨
      (i = .decodeBinNorm ∧ n = 32768) ∨ (∃ ftb, i = .decodeBin ftb ∧ n = 1 <<< ftb.toNat) := by
  cases i with
  | decode ft => exact .inl ⟨ft, rfl, (Option.some.inj h).symm⟩
  | decodeNorm ft => exact .inr (.inl ⟨ft, rfl, (Option.some.inj h).symm⟩)
  | decodeBinNorm => exact .inr (.inr (.inl ⟨rfl, (Option.some.inj h).symm⟩))
  | decodeBin ftb => exact .inr (.inr (.inr ⟨ftb, rfl, by rw [Nat.one_shiftLeft]; exact (Option.some.inj h).symm⟩))
  | _ => cases h

/-- In the idle phase a lookup command with operands in range fails none of its checks (R303). -/
theorem lookup_checks_pass {i : Instr} {s : State} {n : Nat} (h : i.lookupTotal = some n) (hs : s.idleReady)
    (hi : i.operandsInRange) : firstFault (commandChecks i s) = none := by
  obtain ⟨-, hready, hidle⟩ := hs
  rcases lookupTotal_cases h with ⟨ft, rfl, -⟩ | ⟨ft, rfl, -⟩ | ⟨rfl, -⟩ | ⟨ftb, rfl, -⟩
  · have hok : genericTotalOk ft.toNat = true := by simpa [genericTotalOk, Instr.operandsInRange] using hi
    simp [commandChecks, checkReady, checkIdle, checkOperands, hready, hidle, hok]
  · have hok : normalizedTotalOk ft.toNat = true := by simpa [normalizedTotalOk, Instr.operandsInRange] using hi
    simp [commandChecks, checkReady, checkIdle, checkOperands, hready, hidle, hok]
  · simp [commandChecks, checkReady, checkIdle, hready, hidle]
  · have hok : totalBitsOperandOk ftb.toNat = true := by simpa [totalBitsOperandOk, Instr.operandsInRange] using hi
    simp [commandChecks, checkReady, checkIdle, checkOperands, hready, hidle, hok]

/-- Every lookup command has a meaning, and its effect is the lookup of its total (R172). -/
theorem lookup_effect {i : Instr} {n : Nat} (h : i.lookupTotal = some n) (s : State) :
    commandDefined i s = true ∧ commandEffect i s = lookupEffect s n := by
  rcases lookupTotal_cases h with ⟨ft, rfl, rfl⟩ | ⟨ft, rfl, rfl⟩ | ⟨rfl, rfl⟩ | ⟨ftb, rfl, rfl⟩ <;> exact ⟨rfl, rfl⟩

/-- In the idle phase a lookup command with operands in range completes with the lookup of its total (R172). -/
theorem exec_lookup {i : Instr} {s : State} {n : Nat} (h : i.lookupTotal = some n) (hs : s.idleReady)
    (hi : i.operandsInRange) : exec i s = .next ((lookupEffect s n).1.respond .ok (lookupEffect s n).2) := by
  obtain ⟨hdef, heff⟩ := lookup_effect h s
  rw [exec_completes hs.1 hdef (lookup_checks_pass h hs hi), heff]

/-! ## UPDATE while a lookup is pending -/

/-- With its operands in range and the total of the pending lookup, UPDATE can fail its interval check alone (R202). -/
theorem firstFault_update {s : State} {fl fh ft : BitVec 16} (hr : s.ready = true) (hp : s.pending = true)
    (hi : (Instr.update fl fh ft).operandsInRange) (ht : ft = s.lookupFt) :
    firstFault (commandChecks (.update fl fh ft) s) =
      if s.positionIn (updateRange s fl.toNat fh.toNat ft.toNat) then none else some .updateInterval := by
  have hok : updateBoundsOk fl.toNat fh.toNat ft.toNat = true := by
    simpa [updateBoundsOk, Instr.operandsInRange, and_assoc] using hi
  have hft : (ft != s.lookupFt) = false := by simp [ht]
  cases hin : s.positionIn (updateRange s fl.toNat fh.toNat ft.toNat) <;>
    simp [commandChecks, checkReady, checkPending, checkOperands, hr, hp, hok, hft, hin]

/-- What it is for a sub-range to hold the position (R202). -/
theorem positionIn_iff {s : State} {uv : Nat × Nat} :
    s.positionIn uv = true ↔ uv.1 ≤ s.position ∧ s.position < uv.2 := by
  simp [State.positionIn]

/-- The sub-range of an UPDATE holds the position exactly when its bounds hold the probe, for the range, position and
shift of the lookup that gave the probe (R202). -/
theorem positionIn_updateRange_iff {s : State} {n : Nat} (fl fh : Nat)
    (hext : s.ext.toNat = (lookup s.range.toNat s.position n).2) :
    s.positionIn (updateRange s fl fh n) = true ↔
      fl ≤ (lookup s.range.toNat s.position n).1 ∧ (lookup s.range.toNat s.position n).1 < fh := by
  rw [← narrow_contains_iff, ← hext]
  exact positionIn_iff

/-! ## The two together -/

/-- The checks of an UPDATE right after the lookup of its total: they pass for bounds that hold the probe, and else the
interval check fails (R202). -/
theorem firstFault_update_after_lookup {s : State} {fl fh ft : BitVec 16} (hready : s.ready = true) (hr : s.rangeOk)
    (hi : (Instr.update fl fh ft).operandsInRange) :
    firstFault (commandChecks (.update fl fh ft) ((lookupEffect s ft.toNat).1.respond .ok (lookupEffect s ft.toNat).2)) =
      if fl.toNat ≤ (lookupEffect s ft.toNat).2.toNat ∧ (lookupEffect s ft.toNat).2.toNat < fh.toNat then none
      else some .updateInterval := by
  have ⟨hft1, hft2, _⟩ := hi
  have ⟨hrange, hposition⟩ := hr
  obtain ⟨-, hext⟩ := lookup_phase hft1 hft2 hr
  obtain ⟨-, -, -, hlt⟩ := lookup_spec hft1 (hft2.trans hrange) s.range.isLt hposition
  have hprobe : (lookupEffect s ft.toNat).2.toNat = (lookup s.range.toNat s.position ft.toNat).1 :=
    Nat.mod_eq_of_lt (by omega)
  have hlatch : ft = (lookupEffect s ft.toNat).1.lookupFt := by simp [lookupEffect]
  rw [firstFault_update (s := (lookupEffect s ft.toNat).1.respond .ok _) hready rfl hi hlatch, hprobe]
  exact if_congr (positionIn_updateRange_iff fl.toNat fh.toNat hext) rfl rfl

/-- Settles O35: the lookup latches the shift that UPDATE narrows with, and the narrowed interval then holds the
position exactly when `[fl, fh)` holds the probe. -/
theorem updateAcceptsTheProbesSymbol : Obligations.UpdateAcceptsTheProbesSymbol := by
  unfold Obligations.UpdateAcceptsTheProbesSymbol
  intro i s fl fh ft htotal hs hinv hi hu
  have ⟨hfault, hready, _⟩ := hs
  obtain ⟨⟨hrange, -⟩, -⟩ := hinv.1 hready
  have hchecks := firstFault_update_after_lookup hready hrange hu
  refine ⟨_, (lookupEffect s ft.toNat).2, exec_lookup htotal hs hi, rfl, fun hfl hfh => ?_, fun hout => ?_⟩
  · rw [if_pos ⟨hfl, hfh⟩] at hchecks
    exact ⟨_, exec_completes hfault rfl hchecks, hfault, rfl⟩
  · rw [if_neg hout] at hchecks
    exact exec_raises (s := (lookupEffect s ft.toNat).1.respond .ok _) hfault hchecks

end Sys2Proof.Machine
end

