-- ==== Sys2Proof/Proofs/StepInvariants.lean ====
section
/-! PROOFS. What one step can do to the registers, what every step keeps of them, and how the register port reads them
(spec/10_state.md R33 to R53). -/

namespace Sys2Proof.Machine

/-! ## What one step can do to the registers -/

/-- The registers of the block (R33 to R48) alone: a state less its `hostPart`. -/
def State.registers (s : State) : State :=
  { s with
    stream := [], streamChanged := [], table := [], tableChanged := [], draws := 0, resetDue := false
    responses := [], delivered := [], input := [] }

/-- Accepting a response writes no register (R109). -/
theorem acceptResponse_registers (s : State) :
    s.acceptResponse.registers = s.registers ∧ s.acceptResponse.resetDue = s.resetDue := by
  cases h : s.responses <;> simp [State.acceptResponse, h, State.registers]

/-- The five things one step can do to the registers. -/
inductive StepKind (s t : State) : Prop where
  /-- `rst` (R340). -/
  | reset (rest : List HostEvent) (hin : s.input = .reset :: rest) (ht : t = (s.setInput rest).resetBlock)
  /-- Power is lost, or it was lost and the block has not been reset (R315). -/
  | unpowered (hs : s.resetDue = true ∨ ∃ rest, s.input = .powerLoss :: rest) (ht : t.resetDue = true)
  /-- No register is written: no event, an event of the host's alone, or a word refused (R305). -/
  | unwritten (hd : t.resetDue = s.resetDue) (ht : t.registers = s.registers)
  /-- A word faults: the fault record is written and no other register (R302). -/
  | faults (rest : List HostEvent) (c : Cause) (w : CmdWord) (hd : s.resetDue = false)
      (ht : t = (s.setInput rest).nextDraw.enterFault c w)
  /-- A command completes (R140). -/
  | completes (w : CmdWord) (rest : List HostEvent) (i : Instr) (hin : s.input = .command w :: rest)
      (hdec : decode w = .ok i) (hd : s.resetDue = false)
      (hc : firstFault (commandChecks i (s.setInput rest).nextDraw) = none)
      (hdef : commandDefined i (s.setInput rest).nextDraw = true)
      (ht : t = (commandEffect i (s.setInput rest).nextDraw).1.respond .ok
        (commandEffect i (s.setInput rest).nextDraw).2)

/-- Every step that gives a next state is of one of the five kinds. -/
theorem stepKind_of_step {s t : State} (h : step s = .next t) : StepKind s t := by
  rcases step_cases h with ⟨-, rfl⟩ | ⟨e, rest, hin, hev⟩
  · exact .unwritten rfl rfl
  · rcases hev with ⟨w, rfl, hrun⟩ | ⟨rfl, ht⟩ | ⟨rfl, ht⟩ | ⟨-, rfl⟩ | ⟨bytes, -, rfl⟩ | ⟨a, b, -, rfl⟩ | ⟨a, b, -, rfl⟩
    · rcases runWord_cases hrun with ⟨hd, rfl⟩ | ⟨hd, i, hdec, hexec⟩ | ⟨hd, c, -, rfl⟩
      · exact .unpowered (.inl hd) hd
      · rcases exec_cases hexec with ⟨-, rfl⟩ | ⟨-, c, -, rfl⟩ | ⟨-, hc, hdef, ht⟩
        · exact .unwritten rfl rfl
        · exact .faults rest c _ hd rfl
        · exact .completes w rest i hin hdec hd hc hdef ht
      · split
        · exact .unwritten rfl rfl
        · exact .faults rest c w hd rfl
    · exact .reset rest hin ht
    · exact .unpowered (.inr ⟨rest, hin⟩) (by rw [ht]; rfl)
    · obtain ⟨hreg, hdue⟩ := acceptResponse_registers (s.setInput rest)
      exact .unwritten hdue hreg
    all_goals exact .unwritten rfl rfl

/-! ## What passing checks say -/

/-- Every command but INIT checks READY first (R304). -/
theorem commandChecks_ready {i : Instr} (hi : ∀ n, i ≠ .init n) (s : State) :
    ∃ rest, commandChecks i s = checkReady s :: rest := by
  cases i with
  | init n => exact absurd rfl (hi n)
  | _ => exact ⟨_, rfl⟩

/-- A command other than INIT whose checks pass finds READY = 1. -/
theorem ready_of_checks {i : Instr} {s : State} (hi : ∀ n, i ≠ .init n) (hc : firstFault (commandChecks i s) = none) :
    s.ready = true := by
  obtain ⟨rest, hrest⟩ := commandChecks_ready hi s
  simpa [checkReady] using firstFault_eq_none.mp hc (checkReady s) (by simp [hrest])

/-- A command that needs the idle phase and whose checks pass finds no lookup pending (R303, cause 5). -/
theorem idle_of_checks {i : Instr} {s : State} (hi : i.needsIdle = true) (hc : firstFault (commandChecks i s) = none) :
    s.pending = false := by
  have hmem : checkIdle s ∈ commandChecks i s := by
    cases i <;> simp [Instr.needsIdle, commandChecks] at hi ⊢
  simpa [checkIdle] using firstFault_eq_none.mp hc (checkIdle s) hmem

/-! The operand checks, as the ranges of R103. -/

theorem genericTotalOk_iff {ft : Nat} : genericTotalOk ft = true ↔ 1 ≤ ft ∧ ft ≤ 32767 := by simp [genericTotalOk]

theorem normalizedTotalOk_iff {ft : Nat} : normalizedTotalOk ft = true ↔ 16384 ≤ ft ∧ ft ≤ 32767 := by
  simp [normalizedTotalOk]

theorem totalBitsOperandOk_iff {ftb : Nat} : totalBitsOperandOk ftb = true ↔ ftb ≤ 15 := by simp [totalBitsOperandOk]

theorem logpOk_iff {logp : Nat} : logpOk logp = true ↔ logp ≤ 15 := by simp [logpOk]

theorem updateBoundsOk_iff {fl fh ft : Nat} :
    updateBoundsOk fl fh ft = true ↔ 1 ≤ ft ∧ ft ≤ 32768 ∧ fl < fh ∧ fh ≤ ft := by simp [updateBoundsOk, and_assoc]

theorem uintTotalOk_iff {ft : BitVec 32} : uintTotalOk ft.toNat = true ↔ 1 ≤ ft.toNat := by
  have := ft.isLt
  simp only [uintTotalOk, Bool.and_eq_true, decide_eq_true_eq]
  omega

theorem rawWidthOk_iff {nbits : Nat} : rawWidthOk nbits = true ↔ nbits ≤ 25 := by simp [rawWidthOk]

/-- The operands of a command whose checks pass are in the ranges of R103. -/
theorem operandsInRange_of_checks {i : Instr} {s : State} (hc : firstFault (commandChecks i s) = none) :
    i.operandsInRange := by
  have hok : ∀ ok, checkOperands ok ∈ commandChecks i s → ok = true := fun ok hmem => by
    simpa [checkOperands] using firstFault_eq_none.mp hc _ hmem
  cases i with
  | init storage => trivial
  | tell => trivial
  | decodeBinNorm => trivial
  | decode ft => exact genericTotalOk_iff.mp (hok _ (by simp [commandChecks]))
  | decodeNorm ft => exact normalizedTotalOk_iff.mp (hok _ (by simp [commandChecks]))
  | decodeBin ftb => exact totalBitsOperandOk_iff.mp (hok _ (by simp [commandChecks]))
  | update fl fh ft => exact updateBoundsOk_iff.mp (hok _ (by simp [commandChecks]))
  | decodeBitLogp logp => exact logpOk_iff.mp (hok _ (by simp [commandChecks]))
  | decodeIcdfFt tb ft nsyms => exact genericTotalOk_iff.mp (hok _ (by simp [commandChecks]))
  | decodeIcdf16Ft tb ft nsyms => exact genericTotalOk_iff.mp (hok _ (by simp [commandChecks]))
  | decodeIcdf tb ftb nsyms => exact totalBitsOperandOk_iff.mp (hok _ (by simp [commandChecks]))
  | decodeIcdf16 tb ftb nsyms => exact totalBitsOperandOk_iff.mp (hok _ (by simp [commandChecks]))
  | decodeUint ft => exact uintTotalOk_iff.mp (hok _ (by simp [commandChecks]))
  | decodeBits nbits => exact rawWidthOk_iff.mp (hok _ (by simp [commandChecks]))

/-- An UPDATE whose checks pass has the total of the pending lookup, and the sub-range it narrows to holds the position
(R202). -/
theorem update_of_checks {fl fh ft : BitVec 16} {s : State} (hc : firstFault (commandChecks (.update fl fh ft) s) = none) :
    s.pending = true ∧ ft = s.lookupFt ∧ s.positionIn (updateRange s fl.toNat fh.toNat ft.toNat) = true := by
  have h := firstFault_eq_none.mp hc
  simp only [commandChecks, List.mem_cons, forall_eq_or_imp] at h
  obtain ⟨-, hpending, -, htotal, hin, -⟩ := h
  exact ⟨by simpa [checkPending] using hpending, by simpa using htotal, by simpa using hin⟩

/-! ## The invariant in three parts -/

/-- The range, the window with its count, and the front cursor (R49, R35). -/
def State.frontOk (s : State) : Prop :=
  s.rangeOk ∧ s.windowClear ∧ s.countOk ∧ s.fwdOffset.toNat ≤ s.storage.toNat

/-- The reservoir of raw bits and the back cursor (R49, R41). -/
def State.backOk (s : State) : Prop :=
  s.reservoirClear ∧ s.endBitsOk ∧ s.bwdOffset.toNat ≤ s.storage.toNat

/-- The latches of a pending lookup (R49, R43). -/
def State.latchesOk (s : State) : Prop := s.phaseOk ∧ s.lookupFtOk

/-- While READY = 1 the invariant is its three parts. -/
theorem inv_iff_parts {s : State} (h : s.ready = true) : s.Inv ↔ s.frontOk ∧ s.backOk ∧ s.latchesOk := by
  simp only [State.Inv, h, State.decoderOk, State.cursorsOk, State.frontOk, State.backOk, State.latchesOk]
  grind

/-- The three parts make the invariant of a state with READY = 1. -/
theorem inv_of_parts {s : State} (h : s.ready = true) (hfront : s.frontOk) (hback : s.backOk) (hlatches : s.latchesOk) :
    s.Inv := (inv_iff_parts h).mpr ⟨hfront, hback, hlatches⟩

/-- With no lookup pending nothing is asked of the latches. -/
theorem latchesOk_of_idle {s : State} (h : s.pending = false) : s.latchesOk :=
  ⟨fun hp => absurd hp (by simp [h]), fun hp => absurd hp (by simp [h])⟩

/-! ## Each effect keeps the invariant -/

/-- INIT establishes the invariant (R142). -/
theorem initialise_inv (s : State) (storage : BitVec 32) : (s.initialise storage).Inv := by
  refine inv_of_parts rfl (initialise_keeps s storage) ⟨fun _ => ?_, ?_, Nat.zero_le _⟩ (latchesOk_of_idle rfl)
  · exact Nat.zero_shiftRight _
  · exact ⟨Nat.zero_le _, fun h => absurd h (by simp [State.initialise, State.startStream])⟩

/-- A lookup of a legal total keeps the invariant: its shift is the largest that fits the range (R170, R172). -/
theorem lookupEffect_inv {s : State} {ft : Nat} (hready : s.ready = true) (hinv : s.Inv) (h1 : 1 ≤ ft) (h2 : ft ≤ 32768) :
    (lookupEffect s ft).1.Inv := by
  obtain ⟨hfront, hback, -⟩ := (inv_iff_parts hready).mp hinv
  have ⟨hr, _⟩ := hfront
  obtain ⟨-, hle, hlt, -⟩ := lookup_spec (c := s.position) h1 (h2.trans hr.1) s.range.isLt hr.2
  obtain ⟨eft, eext⟩ := lookup_phase h1 h2 hr
  refine inv_of_parts hready hfront hback ⟨fun _ => ?_, fun _ => ?_⟩
  · simp only [lookupEffect, State.latchLookup_lookupFt, State.latchLookup_ext, State.latchLookup_range, eft, eext]
    exact ⟨hle, hlt⟩
  · simp only [lookupEffect, State.latchLookup_lookupFt, eft]
    exact ⟨h1, h2⟩

/-- Narrowing to a sub-range that holds the position keeps the invariant, with no lookup pending (R202). -/
theorem narrowTo_inv {s : State} {uv : Nat × Nat} (hready : s.ready = true) (hidle : s.pending = false) (hinv : s.Inv)
    (hu : uv.1 ≤ s.position) (hv : s.position < uv.2) (hr : uv.2 ≤ s.range.toNat) : (s.narrowTo uv).Inv := by
  obtain ⟨⟨-, hwindow, hcount, hcursor⟩, hback, -⟩ := (inv_iff_parts hready).mp hinv
  exact inv_of_parts hready (narrowTo_keeps hu hv hr hwindow hcount hcursor) hback (latchesOk_of_idle hidle)

/-- Clearing PENDING keeps the invariant. -/
theorem clearPending_inv {s : State} (hready : s.ready = true) (hinv : s.Inv) : s.clearPending.Inv := by
  obtain ⟨hfront, hback, -⟩ := (inv_iff_parts hready).mp hinv
  exact inv_of_parts hready hfront hback (latchesOk_of_idle rfl)

/-- UPDATE keeps the invariant: the total and the shift of the pending lookup fit the range (R49, R202). -/
theorem update_inv {s : State} {fl fh ft : BitVec 16} (hready : s.ready = true) (hinv : s.Inv)
    (hc : firstFault (commandChecks (.update fl fh ft) s) = none) :
    (commandEffect (.update fl fh ft) s).1.Inv := by
  obtain ⟨hpending, rfl, hin⟩ := update_of_checks hc
  obtain ⟨-, -, hlt, hle⟩ := operandsInRange_of_checks hc
  obtain ⟨-, -, hphase, -⟩ := (inv_iff_parts hready).mp hinv
  obtain ⟨hfit, hmax⟩ := hphase hpending
  obtain ⟨hu, hv⟩ := positionIn_iff.mp hin
  exact narrowTo_inv hready rfl (clearPending_inv hready hinv) hu hv (narrow_bounds hlt hle hfit hmax).2

/-- The split point of a bit lies in the range (R203). -/
theorem bitSplit_le_range {s : State} {logp : Nat} (hr : s.rangeOk) (h : logp ≤ 15) : bitSplit s logp ≤ s.range.toNat := by
  have hR := s.range.isLt
  have hlow := hr.1
  have htotal : (1 <<< logp) <<< (15 - logp) = 32768 := by
    rw [← Nat.shiftLeft_add, Nat.add_sub_cancel' h]; rfl
  have hle : ((1 <<< logp) - 1) <<< (15 - logp) ≤ 32768 := by
    rw [← htotal, Nat.shiftLeft_eq, Nat.shiftLeft_eq (1 <<< logp)]
    exact Nat.mul_le_mul_right _ (Nat.sub_le _ _)
  simp only [bitSplit, narrow, htotal]
  calc spread (s.range.toNat - 32768) (((1 <<< logp) - 1) <<< (15 - logp))
      ≤ spread (s.range.toNat - 32768) 32768 := spread_le_spread.mpr hle
    _ = s.range.toNat := spread_total hlow (by omega)

/-- DECODE_BIT_LOGP keeps the invariant, on either side of its split point (R203). -/
theorem bitEffect_inv {s : State} {logp : Nat} (hready : s.ready = true) (hidle : s.pending = false) (hinv : s.Inv)
    (h : logp ≤ 15) : (bitEffect s logp).1.Inv := by
  obtain ⟨⟨hr, -⟩, -⟩ := (inv_iff_parts hready).mp hinv
  rcases bitEffect_cases s logp with ⟨hge, e⟩ | ⟨hlt, e⟩ <;> rw [e]
  · exact narrowTo_inv hready hidle hinv hge hr.2 (Nat.le_refl _)
  · exact narrowTo_inv hready hidle hinv (Nat.zero_le _) hlt (bitSplit_le_range hr h)

/-- A table command whose symbol passes the bounds check keeps the invariant (R233). -/
theorem icdfEffect_inv {s : State} {tb n nsyms ft : Nat} (hready : s.ready = true) (hidle : s.pending = false)
    (hinv : s.Inv) (h1 : 1 ≤ ft) (h2 : ft ≤ 32768) (hok : icdfSymbolOk s tb n ft (icdfSymbol s tb n nsyms ft) = true) :
    (icdfEffect s tb n nsyms ft).1.Inv := by
  obtain ⟨⟨hr, hwindow, hcount, hcursor⟩, hback, -⟩ := (inv_iff_parts hready).mp hinv
  exact inv_of_parts hready (icdfRange_keeps h1 h2 hr hok hwindow hcount hcursor) hback (latchesOk_of_idle hidle)

/-- A uniform symbol keeps the invariant (R260). -/
theorem uniformSymbol_inv {s : State} {ft : Nat} (hready : s.ready = true) (hidle : s.pending = false) (hinv : s.Inv)
    (h1 : 1 ≤ ft) (h2 : ft ≤ 32768) : (uniformSymbol s ft).1.Inv := by
  obtain ⟨⟨hr, hwindow, hcount, hcursor⟩, hback, -⟩ := (inv_iff_parts hready).mp hinv
  obtain ⟨hr', hwindow', hcount', hcursor', -⟩ := uniformSymbol_keeps h1 h2 hr hwindow hcount hcursor
  exact inv_of_parts hready ⟨hr', hwindow', hcount', hcursor'⟩ hback (latchesOk_of_idle hidle)

/-- Raw bits of a legal width keep the invariant (R280). -/
theorem rawBits_inv {s : State} {n : Nat} (hready : s.ready = true) (hinv : s.Inv) (hn : n ≤ 25) : (rawBits s n).1.Inv := by
  obtain ⟨hfront, ⟨hclear, hbits, hcursor⟩, hlatches⟩ := (inv_iff_parts hready).mp hinv
  exact inv_of_parts hready hfront (rawBits_keeps hn hclear hbits hcursor) hlatches

/-- The two parts of a split total are legal: at most 24 raw bits, and a high part of 1 to 256 symbols (R260). -/
theorem uintSplit_bounds {ft : Nat} (h1 : 256 < ft) (h2 : ft < 2 ^ 32) :
    uintRawBits ft ≤ 24 ∧ 1 ≤ uintHighTotal ft ∧ uintHighTotal ft ≤ 256 := by
  have hU : Config.uintBits = 8 := rfl
  have hlog : ilog (ft - 1) ≤ 32 := ilog_le (by omega)
  have h8 : 8 < ilog (ft - 1) := lt_ilog (by omega)
  have hhigh : (ft - 1) >>> uintRawBits ft < 256 := by
    rw [Nat.shiftRight_eq_div_pow, Nat.div_lt_iff_lt_mul (Nat.two_pow_pos _), show 256 = 2 ^ 8 from rfl, ← Nat.pow_add,
      uintRawBits, hU, Nat.add_sub_cancel' (Nat.le_of_lt h8)]
    exact (ilog_bounds (by omega)).2.2
  exact ⟨by simp only [uintRawBits]; omega, Nat.le_add_left 1 _, hhigh⟩

/-- DECODE_UINT keeps the invariant, direct and split (R260, R262). -/
theorem uintValue_inv {s : State} {ft : Nat} (hready : s.ready = true) (hidle : s.pending = false) (hinv : s.Inv)
    (h1 : 1 ≤ ft) (h2 : ft < 2 ^ 32) : (uintValue s ft).1.Inv := by
  have hjoin : 256 < ft → (uintJoin s ft).1.Inv := fun hsplit => by
    obtain ⟨hraw, hlow, hhigh⟩ := uintSplit_bounds hsplit h2
    exact rawBits_inv hready (uniformSymbol_inv hready hidle hinv hlow (by omega)) (by omega)
  rcases uintValue_cases s ft with ⟨hle, e⟩ | ⟨hsplit, -, e⟩ | ⟨hsplit, -, e⟩ <;> rw [e]
  · exact uniformSymbol_inv hready hidle hinv h1 (by omega)
  · exact hjoin hsplit
  · exact hjoin hsplit

/-! ## Every command keeps the invariant -/

/-- The total `1 << ftb` of a legal `ftb` lies in 1 to 32768 (R176, R237). -/
theorem one_shiftLeft_range {ftb : Nat} (h : ftb ≤ 15) : 1 ≤ 1 <<< ftb ∧ 1 <<< ftb ≤ 32768 := by
  rw [Nat.one_shiftLeft]
  exact ⟨Nat.one_le_two_pow, Nat.pow_le_pow_right (by omega) h⟩

/-- A lookup command whose checks pass has a total from 1 to 32768 (R173 to R176). -/
theorem lookupTotal_range {i : Instr} {ft : Nat} (h : i.lookupTotal = some ft) (hi : i.operandsInRange) :
    1 ≤ ft ∧ ft ≤ 32768 := by
  rcases lookupTotal_cases h with ⟨b, rfl, rfl⟩ | ⟨b, rfl, rfl⟩ | ⟨rfl, rfl⟩ | ⟨b, rfl, rfl⟩
  · have ⟨h1, h2⟩ := hi; omega
  · have ⟨h1, h2⟩ := hi; omega
  · omega
  · exact one_shiftLeft_range hi

/-- The lookup commands keep the invariant. -/
theorem lookupCommand_inv {i : Instr} {s : State} {ft : Nat} (h : i.lookupTotal = some ft) (hready : s.ready = true)
    (hinv : s.Inv) (hc : firstFault (commandChecks i s) = none) : (commandEffect i s).1.Inv := by
  obtain ⟨h1, h2⟩ := lookupTotal_range h (operandsInRange_of_checks hc)
  rw [(lookup_effect h s).2]
  exact lookupEffect_inv hready hinv h1 h2

/-- What a table command is in the terms of its table (R235 to R238). -/
theorem icdfTable_command {i : Instr} {tb n nsyms ft : Nat} (h : i.icdfTable = some (tb, n, nsyms, ft)) (s : State) :
    i.needsIdle = true ∧ commandDefined i s = icdfInContract s tb n nsyms ft ∧
      commandEffect i s = icdfEffect s tb n nsyms ft ∧
      (!icdfBoundsPass s tb n nsyms ft, .icdfTableNonconforming) ∈ commandChecks i s ∧
      (i.operandsInRange → 1 ≤ ft ∧ ft ≤ 32768) := by
  cases i with
  | decodeIcdfFt _ _ _ | decodeIcdf16Ft _ _ _ =>
    cases h
    exact ⟨rfl, rfl, rfl, by simp [commandChecks, icdfChecks], fun hi => ⟨hi.1, hi.2.trans (by decide)⟩⟩
  | decodeIcdf _ _ _ | decodeIcdf16 _ _ _ =>
    cases h
    rw [← Nat.one_shiftLeft]
    exact ⟨rfl, rfl, rfl, by simp [commandChecks, icdfChecks], one_shiftLeft_range⟩
  | _ => cases h

/-- The table commands keep the invariant: within R230 (b), (c) the bounds check is that of the symbol selected. -/
theorem icdfCommand_inv {i : Instr} {s : State} {tb n nsyms ft : Nat} (h : i.icdfTable = some (tb, n, nsyms, ft))
    (hready : s.ready = true) (hinv : s.Inv) (hc : firstFault (commandChecks i s) = none)
    (hdef : commandDefined i s = true) : (commandEffect i s).1.Inv := by
  obtain ⟨hneedsIdle, hdefined, heffect, hbounds, hrange⟩ := icdfTable_command h s
  have hidle := idle_of_checks hneedsIdle hc
  obtain ⟨h1, h2⟩ := hrange (operandsInRange_of_checks hc)
  have hpass : icdfBoundsPass s tb n nsyms ft = true := by simpa using firstFault_eq_none.mp hc _ hbounds
  rw [icdfBoundsPass, if_pos (hdefined ▸ hdef)] at hpass
  rw [heffect]
  exact icdfEffect_inv hready hidle hinv h1 h2 hpass

/-- Every completed command keeps the invariant. -/
theorem commandEffect_inv {i : Instr} {s : State} (hinv : s.Inv) (hc : firstFault (commandChecks i s) = none)
    (hdef : commandDefined i s = true) : (commandEffect i s).1.Inv := by
  have hready : (∀ n, i ≠ .init n) → s.ready = true := fun hi => ready_of_checks hi hc
  have hidle : i.needsIdle = true → s.pending = false := fun hi => idle_of_checks hi hc
  have hrange := operandsInRange_of_checks hc
  cases i with
  | init storage => exact initialise_inv s storage
  | tell => exact hinv
  | decode _ | decodeNorm _ | decodeBinNorm | decodeBin _ => exact lookupCommand_inv rfl (hready nofun) hinv hc
  | update fl fh ft => exact update_inv (hready nofun) hinv hc
  | decodeBitLogp logp => exact bitEffect_inv (hready nofun) (hidle rfl) hinv hrange
  | decodeIcdfFt _ _ _ | decodeIcdf16Ft _ _ _ | decodeIcdf _ _ _ | decodeIcdf16 _ _ _ =>
    exact icdfCommand_inv rfl (hready nofun) hinv hc hdef
  | decodeUint ft => exact uintValue_inv (hready nofun) (hidle rfl) hinv hrange ft.isLt
  | decodeBits nbits => exact rawBits_inv (hready nofun) hinv hrange

/-! ## Every step keeps the invariant -/

/-- The invariant speaks of the registers alone. -/
theorem inv_of_registers_eq {s t : State} (h : t.registers = s.registers) (hs : s.Inv) : t.Inv :=
  show t.registers.Inv from h ▸ (show s.registers.Inv from hs)

/-- Settles O55, by the kinds of step: reset, the steps that write no register of R49, and the completed commands. -/
theorem stepKeepsInvariants : Obligations.StepKeepsInvariants := by
  unfold Obligations.StepKeepsInvariants
  intro s t hs hstep hdue
  cases stepKind_of_step hstep with
  | reset rest _ ht => subst ht; exact ⟨nofun, fun _ => rfl⟩
  | unpowered _ ht => simp [ht] at hdue
  | unwritten hd ht => exact inv_of_registers_eq ht (hs (hd ▸ hdue))
  | faults rest c w hd ht =>
    have hinv : (s.setInput rest).nextDraw.Inv := hs hd
    rw [ht]
    exact hinv
  | completes w rest i _ _ hd hc hdef ht =>
    have hinv : (commandEffect i (s.setInput rest).nextDraw).1.Inv := commandEffect_inv (hs hd) hc hdef
    rw [ht]
    exact hinv

/-! ## Before INIT -/

/-- Settles O13: every command but INIT checks READY first. -/
theorem uninitialisedBlockFaults : Obligations.UninitialisedBlockFaults := by
  unfold Obligations.UninitialisedBlockFaults
  intro i s hfault hready hi
  obtain ⟨rest, hrest⟩ := commandChecks_ready hi s
  have hc : firstFault (commandChecks i s) = some .notInitialised := by simp [hrest, checkReady, hready]
  exact exec_raises hfault hc

/-! ## The fault record -/

/-- The fault record is registers. -/
theorem faultRecordOk_of_registers_eq {s t : State} (h : t.registers = s.registers) (hs : s.faultRecordOk) :
    t.faultRecordOk :=
  show t.registers.faultRecordOk from h ▸ (show s.registers.faultRecordOk from hs)

/-- A completed command leaves the fault record as it is. -/
theorem commandEffect_faultRecordOk {i : Instr} {s : State} (hs : s.faultRecordOk) :
    (commandEffect i s).1.faultRecordOk := by
  obtain ⟨u, hu⟩ := commandEffect_frame i s
  rw [hu]
  exact hs

/-- Settles O20, by the kinds of step: only fault entry and reset write the fault record. -/
theorem stepKeepsFaultRecord : Obligations.StepKeepsFaultRecord := by
  unfold Obligations.StepKeepsFaultRecord
  intro s t hs hstep hdue
  cases stepKind_of_step hstep with
  | reset rest _ ht => subst ht; exact ⟨rfl, rfl⟩
  | unpowered _ ht => simp [ht] at hdue
  | unwritten hd ht => exact faultRecordOk_of_registers_eq ht (hs (hd ▸ hdue))
  | faults rest c w _ ht => subst ht; exact causeCode_range c
  | completes w rest i _ _ hd _ _ ht =>
    have hrecord : (commandEffect i (s.setInput rest).nextDraw).1.faultRecordOk := commandEffect_faultRecordOk (hs hd)
    rw [ht]
    exact hrecord

/-! ## ERROR -/

/-- What DECODE_UINT does to ERROR: nothing, or a split total sets it and returns `ft − 1` (R262). -/
theorem uintValue_error (s : State) (ft : Nat) :
    (uintValue s ft).1.error = s.error ∨ (256 < ft ∧ (uintValue s ft).1.error = true ∧ (uintValue s ft).2 = ft - 1) := by
  rcases uintValue_cases s ft with ⟨-, e⟩ | ⟨-, -, e⟩ | ⟨hsplit, -, e⟩ <;> rw [e]
  · exact .inl rfl
  · exact .inl rfl
  · exact .inr ⟨hsplit, rfl, rfl⟩

/-- What a completed command does to ERROR: INIT clears it, a clamped DECODE_UINT sets it, and every other leaves it
(R46). -/
theorem commandEffect_error_cases (i : Instr) (s : State) :
    (∃ storage, i = .init storage ∧ (commandEffect i s).1.error = false) ∨
      (commandEffect i s).1.error = s.error ∨
      (∃ ft, i = .decodeUint ft ∧ 256 < ft.toNat ∧ (commandEffect i s).1.error = true ∧ (commandEffect i s).2 = ft - 1) := by
  cases i with
  | init storage => exact .inl ⟨storage, rfl, rfl⟩
  | decodeUint ft =>
    rcases uintValue_error s ft.toNat with he | ⟨hsplit, he, hres⟩
    · exact .inr (.inl he)
    · refine .inr (.inr ⟨ft, rfl, hsplit, he, ?_⟩)
      simp only [commandEffect, withResult, hres]
      bv_omega
  | _ => exact .inr (.inl (commandEffect_error s nofun nofun))

/-- While power lasts no step is unpowered (R315). -/
theorem not_unpowered {s : State} (hdue : s.resetDue = false) (hpower : ∀ rest, s.input ≠ .powerLoss :: rest) :
    ¬ (s.resetDue = true ∨ ∃ rest, s.input = .powerLoss :: rest) := by
  rintro (hs | ⟨rest, hin⟩)
  · simp [hs] at hdue
  · exact hpower rest hin

/-- What a step does to ERROR while power lasts: reset and INIT clear it, a clamped DECODE_UINT sets it, and every other
leaves it (R46, R262). -/
theorem step_error {s t : State} (hstep : step s = .next t) (hdue : s.resetDue = false)
    (hpower : ∀ rest, s.input ≠ .powerLoss :: rest) :
    ((∃ rest, s.input = .reset :: rest) ∧ t.error = false) ∨
      ((∃ w rest storage, s.input = .command w :: rest ∧ decode w = .ok (.init storage)) ∧ t.error = false) ∨
      t.error = s.error ∨
      ((∃ w rest ft, s.input = .command w :: rest ∧ decode w = .ok (.decodeUint ft) ∧ 256 < ft.toNat ∧
        t.responses = s.responses ++ [{ status := .ok, result := ft - 1 }]) ∧ t.error = true) := by
  cases stepKind_of_step hstep with
  | reset rest hin ht => subst ht; exact .inl ⟨⟨rest, hin⟩, rfl⟩
  | unpowered hs _ => exact absurd hs (not_unpowered hdue hpower)
  | unwritten _ ht => exact .inr (.inr (.inl (congrArg State.error ht :)))
  | faults rest c w _ ht => subst ht; exact .inr (.inr (.inl rfl))
  | completes w rest i hin hdec _ _ _ ht =>
    rcases commandEffect_error_cases i (s.setInput rest).nextDraw with ⟨storage, rfl, he⟩ | he | ⟨ft, rfl, hsplit, he, hres⟩
    · exact .inr (.inl ⟨⟨w, rest, storage, hin, hdec⟩, by rw [ht]; exact he⟩)
    · exact .inr (.inr (.inl (by rw [ht]; exact he)))
    · refine .inr (.inr (.inr ⟨⟨w, rest, ft, hin, hdec, hsplit, ?_⟩, by rw [ht]; exact he⟩))
      obtain ⟨u, hu⟩ := commandEffect_frame (.decodeUint ft) (s.setInput rest).nextDraw
      rw [ht, State.respond_responses, hres, hu]
      rfl

/-- Settles O21: ERROR changes by INIT, by reset and by a clamped DECODE_UINT alone, each in one direction. -/
theorem errorIsSticky : Obligations.ErrorIsSticky := by
  unfold Obligations.ErrorIsSticky
  refine ⟨fun s rest hin => ⟨_, step_event hin, rfl⟩, fun s storage hfault => ⟨_, exec_completes hfault rfl rfl, rfl⟩,
    fun s t hstep hdue hpower hset hclear => ?_, fun s t hstep hdue hpower hclear hset => ?_⟩
  · rcases step_error hstep hdue hpower with ⟨hreset, -⟩ | ⟨hinit, -⟩ | he | ⟨-, he⟩
    · exact .inl hreset
    · exact .inr hinit
    · simp [he, hset] at hclear
    · simp [he] at hclear
  · rcases step_error hstep hdue hpower with ⟨-, he⟩ | ⟨-, he⟩ | he | ⟨huint, -⟩
    · simp [he] at hset
    · simp [he] at hset
    · simp [he, hclear] at hset
    · exact huint

/-! ## The cursors -/

/-- Narrowing never moves the front cursor back (R143, R146). -/
theorem narrowTo_fwdOffset_le (s : State) (uv : Nat × Nat) : s.fwdOffset.toNat ≤ (s.narrowTo uv).fwdOffset.toNat := by
  have hF := s.fwdOffset.isLt
  have hS := s.storage.isLt
  simp only [State.narrowTo, State.renormalize, State.setRange_fwdOffset, State.setWindow_fwdOffset, refillIfShort,
    BitVec.toNat_ofNat]
  split
  · obtain ⟨hge, hle⟩ := refill_cursor s ((s.value.toNat - uv.1 <<< 16) <<< renormShift (uv.2 - uv.1))
      (s.count.toInt - renormShift (uv.2 - uv.1)) s.fwdOffset.toNat
    rw [Nat.mod_eq_of_lt (by omega)]
    exact hge
  · exact (Nat.mod_eq_of_lt hF).ge

/-- Taking raw bits never moves the back cursor back (R280). -/
theorem rawBits_bwdOffset_le (s : State) (n : Nat) : s.bwdOffset.toNat ≤ (rawBits s n).1.bwdOffset.toNat := by
  have hB := s.bwdOffset.isLt
  have hS := s.storage.isLt
  simp only [rawBits, State.takeRawBits_bwdOffset, rawReservoir, BitVec.toNat_ofNat]
  split
  · obtain ⟨hge, hle⟩ := rawRefill_cursor s 4 s.endWindow.toNat s.endBits.toNat s.bwdOffset.toNat
    rw [Nat.mod_eq_of_lt (by omega)]
    exact hge
  · exact (Nat.mod_eq_of_lt hB).ge

/-- A completed command other than INIT never moves a cursor back. -/
theorem commandEffect_cursors_le {i : Instr} (s : State) (hi : ∀ n, i ≠ .init n) :
    s.fwdOffset.toNat ≤ (commandEffect i s).1.fwdOffset.toNat ∧
      s.bwdOffset.toNat ≤ (commandEffect i s).1.bwdOffset.toNat := by
  cases i with
  | init n => exact absurd rfl (hi n)
  | tell | decode _ | decodeNorm _ | decodeBinNorm | decodeBin _ => exact ⟨Nat.le_refl _, Nat.le_refl _⟩
  | update fl fh ft => exact ⟨narrowTo_fwdOffset_le s.clearPending _, Nat.le_refl _⟩
  | decodeBitLogp logp =>
    rcases bitEffect_cases s logp.toNat with ⟨_, e⟩ | ⟨_, e⟩ <;> simp only [commandEffect, e] <;>
      exact ⟨narrowTo_fwdOffset_le s _, Nat.le_refl _⟩
  | decodeIcdfFt _ _ _ | decodeIcdf16Ft _ _ _ | decodeIcdf _ _ _ | decodeIcdf16 _ _ _ =>
    exact ⟨narrowTo_fwdOffset_le s _, Nat.le_refl _⟩
  | decodeUint ft =>
    have hjoin : s.fwdOffset.toNat ≤ (uintJoin s ft.toNat).1.fwdOffset.toNat ∧
        s.bwdOffset.toNat ≤ (uintJoin s ft.toNat).1.bwdOffset.toNat :=
      ⟨narrowTo_fwdOffset_le s _, rawBits_bwdOffset_le (uniformSymbol s (uintHighTotal ft.toNat)).1 _⟩
    rcases uintValue_cases s ft.toNat with ⟨_, e⟩ | ⟨_, _, e⟩ | ⟨_, _, e⟩ <;> simp only [commandEffect, withResult, e]
    · exact ⟨narrowTo_fwdOffset_le s _, Nat.le_refl _⟩
    · exact hjoin
    · exact hjoin
  | decodeBits nbits => exact ⟨Nat.le_refl _, rawBits_bwdOffset_le s _⟩

/-- Power that lasts through a step leaves no reset due. -/
theorem step_resetDue {s t : State} (hstep : step s = .next t) (hdue : s.resetDue = false)
    (hpower : ∀ rest, s.input ≠ .powerLoss :: rest) : t.resetDue = false := by
  cases stepKind_of_step hstep with
  | reset rest _ ht => rw [ht]; rfl
  | unpowered hs _ => exact absurd hs (not_unpowered hdue hpower)
  | unwritten hd _ => rw [hd, hdue]
  | faults rest c w _ ht => rw [ht]; exact hdue
  | completes w rest i _ _ _ _ _ ht =>
    obtain ⟨u, hu⟩ := commandEffect_frame i (s.setInput rest).nextDraw
    rw [ht, State.respond_resetDue, hu]
    exact hdue

/-- While power lasts no step but INIT and reset writes READY or STORAGE, or moves a cursor back (R37 to R39, R45). -/
theorem step_cursors_le {s t : State} (hstep : step s = .next t) (hdue : s.resetDue = false)
    (hpower : ∀ rest, s.input ≠ .powerLoss :: rest) (hreset : ∀ rest, s.input ≠ .reset :: rest)
    (hinit : ∀ w rest storage, s.input = .command w :: rest → decode w ≠ .ok (.init storage)) :
    t.ready = s.ready ∧ t.storage = s.storage ∧ s.fwdOffset.toNat ≤ t.fwdOffset.toNat ∧
      s.bwdOffset.toNat ≤ t.bwdOffset.toNat := by
  cases stepKind_of_step hstep with
  | reset rest hin _ => exact absurd hin (hreset rest)
  | unpowered hs _ => exact absurd hs (not_unpowered hdue hpower)
  | unwritten _ ht =>
    have hfwd : t.fwdOffset = s.fwdOffset := (congrArg State.fwdOffset ht :)
    have hbwd : t.bwdOffset = s.bwdOffset := (congrArg State.bwdOffset ht :)
    exact ⟨(congrArg State.ready ht :), (congrArg State.storage ht :), hfwd ▸ Nat.le_refl _, hbwd ▸ Nat.le_refl _⟩
  | faults rest c w _ ht => subst ht; exact ⟨rfl, rfl, Nat.le_refl _, Nat.le_refl _⟩
  | completes w rest i hin hdec _ _ _ ht =>
    have hi : ∀ n, i ≠ .init n := fun n hn => hinit w rest n hin (hn ▸ hdec)
    rw [ht]
    exact ⟨commandEffect_ready (s.setInput rest).nextDraw hi, commandEffect_storage (s.setInput rest).nextDraw hi,
      commandEffect_cursors_le (s.setInput rest).nextDraw hi⟩

/-- Settles O52: no command moves a cursor back, and the invariant keeps both within STORAGE. -/
theorem cursorsOnlyAdvance : Obligations.CursorsOnlyAdvance := by
  unfold Obligations.CursorsOnlyAdvance
  intro s t hinv hready hstep hdue hpower hreset hinit
  obtain ⟨eready, estorage, hfwd, hbwd⟩ := step_cursors_le hstep hdue hpower hreset hinit
  have hinv' : t.Inv := stepKeepsInvariants s t (fun _ => hinv) hstep (step_resetDue hstep hdue hpower)
  obtain ⟨⟨-, ⟨hfwd', hbwd'⟩, -⟩, -⟩ := hinv'.1 (eready.trans hready)
  exact ⟨estorage, hfwd, hfwd', hbwd, hbwd'⟩

/-! ## The register port -/

/-- The number STATUS is: its fields at the places of R51. -/
theorem statusWord_toNat (s : State) :
    (statusWord s).toNat = s.cause.toNat * 256 + s.ext.toNat * 16 + s.fault.toNat * 8 + s.error.toNat * 4 +
      s.pending.toNat * 2 + s.ready.toNat := by
  have h0 : (0 : BitVec 16).toNat = 0 := rfl
  have hflag : ∀ b : Bool, b.toNat < 2 ^ 1 := Bool.toNat_lt
  simp only [statusWord, BitVec.toNat_append, BitVec.toNat_ofBool, h0]
  rw [← Nat.shiftLeft_add_eq_or_of_lt s.cause.isLt, ← Nat.shiftLeft_add_eq_or_of_lt s.ext.isLt,
    ← Nat.shiftLeft_add_eq_or_of_lt (hflag s.fault), ← Nat.shiftLeft_add_eq_or_of_lt (hflag s.error),
    ← Nat.shiftLeft_add_eq_or_of_lt (hflag s.pending), ← Nat.shiftLeft_add_eq_or_of_lt (hflag s.ready)]
  simp only [Nat.shiftLeft_eq]
  omega

/-- A bit of a word from the word's number. -/
theorem getLsbD_of_toNat {w k : Nat} {x : BitVec w} {b : Bool} (h : x.toNat / 2 ^ k % 2 = b.toNat) : x.getLsbD k = b := by
  rw [BitVec.getLsbD, Nat.testBit_eq_decide_div_mod_eq, h]
  cases b <;> rfl

/-- STATUS field by field (R51). -/
theorem statusWord_fields (s : State) :
    (statusWord s).getLsbD 0 = s.ready ∧ (statusWord s).getLsbD 1 = s.pending ∧ (statusWord s).getLsbD 2 = s.error ∧
      (statusWord s).getLsbD 3 = s.fault ∧ (statusWord s).toNat / 16 % 16 = s.ext.toNat ∧
      (statusWord s).toNat / 256 = s.cause.toNat := by
  have htoNat := statusWord_toNat s
  have hext := s.ext.isLt
  have hfault := s.fault.toNat_le
  have herror := s.error.toNat_le
  have hpending := s.pending.toNat_le
  have hready := s.ready.toNat_le
  exact ⟨getLsbD_of_toNat (by omega), getLsbD_of_toNat (by omega), getLsbD_of_toNat (by omega),
    getLsbD_of_toNat (by omega), by omega, by omega⟩

/-- Past its fourteen words the map has no register (R53). -/
theorem csrRead_outside (s : State) {addr : BitVec 8} (h : 14 ≤ addr.toNat / 4) : csrRead s addr = 0 := by
  unfold csrRead
  split
  case h_15 => rfl
  all_goals omega

/-- Settles O53: each word of the map in turn, with the widths of the registers narrower than a word. -/
theorem registerPortMap : Obligations.RegisterPortMap := by
  unfold Obligations.RegisterPortMap
  intro s addr
  refine ⟨fun h => ?value, fun h => ?range, fun h => ?count, fun h => ?totalBits, fun h => ?fwdOffset,
    fun h => ?bwdOffset, fun h => ?storage, fun h => ?endWindow, fun h => ?endBits, fun h => ?status, fun h => ?lookupFt,
    fun h => ?faultCmdLow, fun h => ?faultCmdHigh, fun h => ?params, csrRead_outside s⟩ <;> simp only [csrRead, h]
  case range | endBits | lookupFt => exact BitVec.toNat_setWidth_of_le (by decide)
  case count => exact BitVec.toInt_signExtend_of_le (by decide)
  case status => exact statusWord_fields s
  case faultCmdLow => simp only [BitVec.extractLsb'_toNat, Nat.shiftRight_zero]
  case faultCmdHigh =>
    have := s.faultCmd.isLt
    simp only [BitVec.extractLsb'_toNat, Nat.shiftRight_eq_div_pow]
    omega
  case params => rfl

end Sys2Proof.Machine
end

