-- ==== Sys2Proof/Proofs/HostMemory.lean ====
section
/-! PROOFS. What a command leaves of the two memories and of the marks of changed bytes, what the host's writes do to
them, and how the block reads them (spec/20_memory.md R71 to R86). -/

namespace Sys2Proof.Machine

/-! ## What a command leaves of the memories and the marks -/

/-- A command other than INIT clears no mark, and no command writes a memory (R79, R82). -/
theorem exec_memories {i : Instr} {s t : State} (h : exec i s = .next t) :
    t.stream = s.stream ∧ t.table = s.table ∧
      ((∀ n, i ≠ .init n) → t.streamChanged = s.streamChanged ∧ t.tableChanged = s.tableChanged) := by
  rcases exec_cases h with ⟨-, rfl⟩ | ⟨-, c, -, rfl⟩ | ⟨-, -, -, rfl⟩
  · exact ⟨rfl, rfl, fun _ => ⟨rfl, rfl⟩⟩
  · exact ⟨rfl, rfl, fun _ => ⟨rfl, rfl⟩⟩
  · obtain ⟨u, hu⟩ := commandEffect_frame i s
    exact ⟨by rw [State.respond_stream, hu], by rw [State.respond_table, hu], commandEffect_marks s⟩

/-- A word other than INIT's clears no mark, and no word writes a memory, whatever it answers (R79, R82, R315). -/
theorem runWord_memories {w : CmdWord} {s t : State} (h : runWord w s = .next t) :
    t.stream = s.stream ∧ t.table = s.table ∧
      ((∀ n, decode w ≠ .ok (.init n)) → t.streamChanged = s.streamChanged ∧ t.tableChanged = s.tableChanged) := by
  rcases runWord_cases h with ⟨-, rfl⟩ | ⟨-, i, hdec, hexec⟩ | ⟨-, c, -, rfl⟩
  · exact ⟨rfl, rfl, fun _ => ⟨rfl, rfl⟩⟩
  · obtain ⟨hstream, htable, hmarks⟩ := exec_memories hexec
    exact ⟨hstream, htable, fun hinit => hmarks fun n hi => hinit n (hi ▸ hdec)⟩
  · split <;> exact ⟨rfl, rfl, fun _ => ⟨rfl, rfl⟩⟩

/-- Settles O46: no word writes a memory, so every byte reads as before. -/
theorem commandsWriteNoMemory : Obligations.CommandsWriteNoMemory := by
  unfold Obligations.CommandsWriteNoMemory
  intro s t w h a
  obtain ⟨hstream, htable, -⟩ := runWord_memories h
  exact ⟨by rw [hstream], by rw [htable]⟩

/-! ## How the block reads a memory -/

/-- Settles O49: the two cases of a read, of the stream and of the table. -/
theorem changedBytesReadAsDraws : Obligations.ChangedBytesReadAsDraws := by
  unfold Obligations.ChangedBytesReadAsDraws
  exact fun _ _ => ⟨streamRead_unchanged, streamRead_changed, tableByte_unchanged, tableByte_changed⟩

/-- A 16-bit entry is the sum of its bytes by weight (R76). -/
theorem tableRead_two (s : State) (u : EntryUse) (a : Nat) :
    s.tableRead u a 2 = (s.tableByte u a).toNat + 256 * (s.tableByte u (a + 1)).toNat := by
  simpa [State.tableRead, entryAddress, tableEntry] using entryValue_eq (s.tableByte u) (tb := a) 0 (.inr rfl)

/-- Settles O47: the entry is the two bytes side by side, of which the low one has 8 bits. -/
theorem tableEntriesLittleEndian : Obligations.TableEntriesLittleEndian := by
  unfold Obligations.TableEntriesLittleEndian
  intro s u a
  refine ⟨rfl, tableRead_two s u a, ?_⟩
  have hlow := (s.tableByte u a).isLt
  have hhigh := (s.tableByte u (a + 1)).isLt
  rw [tableRead_two]
  omega

/-! ## What the host's writes do -/

/-- A memory in canonical form after a write: the byte written at its address, and the old ones at the others. -/
theorem Memory.read_write {m : Memory} (hw : m.wf = true) (a b : Nat) (v : Byte) :
    (m.write a v).read b = if b = a then v else m.read b := by
  split
  · next h => rw [h]; exact Memory.read_write_same a v hw
  · next h => exact Memory.read_write_other v (Ne.symm h)

/-- A write marks its own address alone, while READY = 1 and when it changes the byte (R82, U12). -/
theorem mem_markChanges_write {ready : Bool} {m : Memory} {marks : List Nat} (hw : m.wf = true) (i : Nat) (b : Byte)
    (a : Nat) :
    a ∈ markChanges ready m (m.write i b) marks ↔ a ∈ marks ∨ (ready = true ∧ a = i ∧ m.read a ≠ b) := by
  rw [mem_markChanges, Memory.read_write hw]
  by_cases h : a = i <;> simp [h, eq_comm]

/-- The bytes of a bound buffer are what the stream memory reads as (R71). -/
theorem Memory.read_ofBytes_getElem {bytes : List Byte} {i : Nat} (h : i < bytes.length) :
    (Memory.ofBytes 0 bytes).read i = bytes[i] := by
  have hread := Memory.read_ofBytes 0 bytes i
  rwa [Nat.zero_add, List.getD_eq_getElem _ _ h] at hread

/-- Settles O48: a host event replaces one memory, and the marks follow from where the old and the new one differ. -/
theorem hostWritesMarkChanges : Obligations.HostWritesMarkChanges := by
  unfold Obligations.HostWritesMarkChanges
  refine ⟨fun s rest i b ⟨hstream, _⟩ hin => ?writeStream, fun s rest i b ⟨_, htable, _⟩ hin => ?writeTable,
    fun s rest bytes hin => ?bindStream⟩ <;> refine ⟨_, step_event hin, ?_⟩
  case writeStream =>
    exact ⟨Memory.read_write_same _ b hstream, fun a h => Memory.read_write_other b (Ne.symm h),
      mem_markChanges_write hstream i.toNat b, rfl⟩
  case writeTable =>
    exact ⟨Memory.read_write_same _ b htable, fun a h => Memory.read_write_other b (Ne.symm h),
      mem_markChanges_write htable i.toNat b, rfl⟩
  case bindStream => exact ⟨fun i h => Memory.read_ofBytes_getElem h, fun a => mem_markChanges, rfl⟩

/-! ## How long a mark stays -/

/-- A change of a memory takes no mark away. -/
theorem markChanges_subset (ready : Bool) (old new : Memory) (marks : List Nat) :
    marks ⊆ markChanges ready old new marks := fun _ h => mem_markChanges.mpr (.inl h)

/-- Accepting a response leaves the marks. -/
theorem acceptResponse_marks (s : State) :
    s.acceptResponse.streamChanged = s.streamChanged ∧ s.acceptResponse.tableChanged = s.tableChanged := by
  cases h : s.responses <;> simp [State.acceptResponse, h]

/-- No step but reset and INIT takes a mark away (R82). -/
theorem step_marks_subset {s t : State} (h : step s = .next t) (hreset : ∀ rest, s.input ≠ .reset :: rest)
    (hinit : ∀ w rest storage, s.input = .command w :: rest → decode w ≠ .ok (.init storage)) :
    s.streamChanged ⊆ t.streamChanged ∧ s.tableChanged ⊆ t.tableChanged := by
  rcases step_cases h with ⟨-, rfl⟩ | ⟨e, rest, hin, hev⟩
  · exact ⟨List.Subset.refl _, List.Subset.refl _⟩
  · rcases hev with ⟨w, rfl, hrun⟩ | ⟨rfl, -⟩ | ⟨-, rfl⟩ | ⟨-, rfl⟩ | ⟨bytes, -, rfl⟩ | ⟨a, b, -, rfl⟩ | ⟨a, b, -, rfl⟩
    · obtain ⟨-, -, hmarks⟩ := runWord_memories hrun
      obtain ⟨hstream, htable⟩ := hmarks fun n => hinit w rest n hin
      exact ⟨hstream ▸ List.Subset.refl _, htable ▸ List.Subset.refl _⟩
    · exact absurd hin (hreset rest)
    · exact ⟨List.Subset.refl _, List.Subset.refl _⟩
    · obtain ⟨hstream, htable⟩ := acceptResponse_marks (s.setInput rest)
      exact ⟨hstream ▸ List.Subset.refl _, htable ▸ List.Subset.refl _⟩
    · exact ⟨markChanges_subset _ _ _ _, List.Subset.refl _⟩
    · exact ⟨markChanges_subset _ _ _ _, List.Subset.refl _⟩
    · exact ⟨List.Subset.refl _, markChanges_subset _ _ _ _⟩

/-- Settles O50: no other step takes a mark away, and reset and INIT leave none. -/
theorem changesLastUntilInitOrReset : Obligations.ChangesLastUntilInitOrReset := by
  unfold Obligations.ChangesLastUntilInitOrReset
  refine ⟨fun s t hstep hreset hinit => ?_, fun s rest hin => ⟨_, step_event hin, rfl, rfl⟩,
    fun s storage hfault => ⟨_, exec_completes hfault rfl rfl, rfl, rfl⟩⟩
  obtain ⟨hstream, htable⟩ := step_marks_subset hstep hreset hinit
  exact ⟨fun _ ha => hstream ha, fun _ ha => htable ha⟩

end Sys2Proof.Machine
end

