-- ==== Sys2Proof/Proofs/ClosedForms.lean ====
section
/-! PROOFS. `Refill`, `Renormalize`, narrowing and `Lookup` in closed form (spec/40_init_and_renormalization.md R143 to
R146, spec/41_frequency_lookup.md R170, spec/42_update_and_bit.md R200). -/

namespace Sys2Proof.Machine

/-! ## `Refill` -/

/-- The loop reads as many bytes as fit below bit 8 of the count, or all that are left (R143). -/
theorem refillLoop_fwd (s : State) {val fwd : Nat} {cnt : Int} (hc : cnt ≤ 16) (hf : fwd ≤ s.storage.toNat) :
    (refillLoop s (refillPasses cnt) val cnt fwd).2.2 = fwd + refillBytes cnt (s.storage.toNat - fwd) := by
  obtain ⟨hge, hcount, hle⟩ := refillLoop_cursor s (refillPasses cnt) val cnt fwd
  have hstop := refillLoop_stops s (refillPasses cnt) val cnt fwd (Nat.le_refl _)
  have h16 := refillLoop_count_le s (refillPasses cnt) val cnt fwd hc
  simp only [refillBytes]
  omega

/-- `Refill` in closed form: the bytes it reads, each added at its place, and the count saturated with the last
(R143, R144). -/
theorem refill_closed (s : State) {val fwd : Nat} {cnt : Int} (hc : cnt ≤ 16) (hz : 2 ^ (16 - cnt).toNat ∣ val)
    (hf : fwd ≤ s.storage.toNat) :
    refill s val cnt fwd =
      (val + ∑ j ∈ Finset.range (refillBytes cnt (s.storage.toNat - fwd)),
          (s.streamRead .forward (fwd + j)).toNat * 2 ^ (8 - cnt - 8 * (j : Int)).toNat,
        if s.storage.toNat ≤ fwd + refillBytes cnt (s.storage.toNat - fwd) then (Config.lotsOfBits : Int)
          else cnt + 8 * (refillBytes cnt (s.storage.toNat - fwd) : Int),
        fwd + refillBytes cnt (s.storage.toNat - fwd)) := by
  have hfwd := refillLoop_fwd s (val := val) hc hf
  have hcount : (refillLoop s (refillPasses cnt) val cnt fwd).2.1 =
      cnt + 8 * (refillBytes cnt (s.storage.toNat - fwd) : Int) := by
    rw [(refillLoop_cursor s (refillPasses cnt) val cnt fwd).2.1, hfwd]
    push_cast
    ring
  rw [refill_eq, refillLoop_sum s _ val cnt fwd hc hz, hcount, hfwd, Nat.add_sub_cancel_left]

/-! ## `Renormalize` and narrowing -/

/-- The registers of a legal window hold it: nothing is lost in their widths (log entry 9). -/
theorem WindowOk.registers {s t : State} {val fwd rng : Nat} {cnt : Int} (h : WindowOk s val cnt fwd rng)
    (hv : t.value = BitVec.ofNat 32 val) (hc : t.count = BitVec.ofInt 16 cnt) (hf : t.fwdOffset = BitVec.ofNat 32 fwd)
    (hr : t.range = BitVec.ofNat 16 rng) :
    t.value.toNat = val ∧ t.count.toInt = cnt ∧ t.fwdOffset.toNat = fwd ∧ t.range.toNat = rng := by
  have hL : (Config.lotsOfBits : Int) = 16384 := rfl
  have hS := s.storage.isLt
  obtain ⟨-, hrange, hpos, hlow, hhigh, -, hcursor⟩ := h
  rw [hv, hc, hf, hr, BitVec.toNat_ofNat, BitVec.toNat_ofNat, BitVec.toNat_ofNat]
  exact ⟨Nat.mod_eq_of_lt (by omega), BitVec.toInt_ofInt_eq_self (by omega) (by omega) (by omega),
    Nat.mod_eq_of_lt (by omega), Nat.mod_eq_of_lt hrange⟩

/-- `Renormalize` leaves what R145 and R146 say, from the preconditions of R146 and R49's window and count. -/
theorem renormalize_renormalized {s : State} {val rng : Nat} (h1 : 1 ≤ rng) (h2 : rng ≤ 65535)
    (hpos : val < rng * 2 ^ 16) (hc : s.countOk) (hz : lowClear val s.count.toInt)
    (hf : s.fwdOffset.toNat ≤ s.storage.toNat) :
    renormalized s val rng (s.renormalize val rng) := by
  obtain ⟨hlow, hhigh, -⟩ := hc
  obtain ⟨hshift, hge, hlt⟩ := renormShift_spec h1 h2
  obtain ⟨ev, ec, ef, er⟩ := (refillIfShort_ok h1 h2 hpos hlow hhigh hz hf).registers
    (t := s.renormalize val rng) rfl rfl rfl rfl
  have efwd : (s.renormalize val rng).fwdOffset = BitVec.ofNat 32 (refillIfShort s (val <<< renormShift rng)
    (s.count.toInt - renormShift rng) s.fwdOffset.toNat).2.2 := rfl
  rw [Nat.shiftLeft_eq] at hge hlt er ev ec ef efwd
  refine ⟨renormShift rng, hge, hlt, er, rfl, fun hshort => ?_, fun hlong => ?_⟩
  · have hclear : 2 ^ (16 - (s.count.toInt - renormShift rng)).toNat ∣ val * 2 ^ renormShift rng := by
      rw [show (16 - (s.count.toInt - renormShift rng)).toNat = (16 - s.count.toInt).toNat + renormShift rng by omega,
        Nat.pow_add]
      exact Nat.mul_dvd_mul_right (hz.1 (by omega)) _
    rw [refillIfShort, if_pos (by omega), refill_closed s (by omega) hclear hf] at ev ec ef
    exact ⟨ev, ef, ec⟩
  · rw [refillIfShort, if_neg (by omega)] at ev ec efwd
    exact ⟨ev, ec, efwd.trans (by simp)⟩

/-- Narrowing to a sub-range that holds the position leaves what R202 says. -/
theorem narrowTo_narrowed {s : State} {uv : Nat × Nat} (hu : uv.1 ≤ s.position) (hv : s.position < uv.2)
    (hr : uv.2 ≤ s.range.toNat) (hw : s.windowClear) (hc : s.countOk) (hf : s.fwdOffset.toNat ≤ s.storage.toNat) :
    narrowed s uv.1 uv.2 (s.narrowTo uv) := by
  have hR := s.range.isLt
  have hz := lowClear_sub (u := uv.1) hc.1 (lowClear_of_state hw hc)
  simp only [State.position, Nat.shiftRight_eq_div_pow] at hu hv
  rw [narrowed, State.narrowTo, ← Nat.shiftLeft_eq]
  refine renormalize_renormalized (by omega) (by omega) ?_ hc hz hf
  rw [Nat.shiftLeft_eq]
  omega

/-! ## `Lookup` and `Narrow` -/

/-- `Lookup(ft)` is the definition of R170: the largest shift, and the larger of the two candidates shifted down. -/
theorem lookup_isLookup {r ft : Nat} (c : Nat) (h1 : 1 ≤ ft) (h2 : ft ≤ r) (h3 : r < 65536) :
    isLookup r c ft (lookup r c ft).1 (lookup r c ft).2 := by
  obtain ⟨-, hle, hlt⟩ := lookupShift_spec h1 h2 h3
  rw [Nat.shiftLeft_eq] at hle hlt
  have hquotient : ∀ d, lookupQuotient c d = max (c / 2) (c - d) := fun d => by
    simp only [lookupQuotient, Nat.shiftRight_eq_div_pow]
    split <;> omega
  refine ⟨hle, by rw [lookup_shift, Nat.pow_succ]; linarith, ?_⟩
  simp only [lookup, hquotient, Nat.shiftRight_eq_div_pow, Nat.shiftLeft_eq]

/-- `Narrow` gives the scaled bounds (R200, R201). -/
theorem narrow_eq_scaledBound (r fl fh ft k : Nat) :
    narrow r fl fh ft k = (scaledBound r ft k fl, scaledBound r ft k fh) := by
  simp only [narrow, spread, scaledBound, Nat.shiftLeft_eq]

end Sys2Proof.Machine
end

