-- ==== Sys2Proof/Proofs/TableCommands.lean ====
section
/-! PROOFS. The four table commands as one: their checks in order, and what one of them leaves on a table that may have
changed bytes (spec/43_icdf.md R230 to R239, spec/20_memory.md R77, R78, R82). -/

namespace Sys2Proof.Machine

/-! ## The checks of a table command -/

/-- A table has 8-bit or 16-bit entries, and a word carries at least one symbol (R101, R235 to R238). -/
theorem icdfTable_shape {i : Instr} {tb n nsyms ft : Nat} (h : i.icdfTable = some (tb, n, nsyms, ft))
    (hw : i.wellFormed = true) : (n = 1 ∨ n = 2) ∧ 1 ≤ nsyms := by
  cases i with
  | decodeIcdfFt _ _ _ | decodeIcdf16Ft _ _ _ | decodeIcdf _ _ _ | decodeIcdf16 _ _ _ =>
    cases h
    simp only [Instr.wellFormed, Bool.and_eq_true, nsymsAtLeastOne, decide_eq_true_eq] at hw
    exact ⟨by simp, hw.1⟩
  | _ => cases h

/-- In the idle phase a table command with operands in range can fail its table checks alone (R233, R304). -/
theorem firstFault_icdfTable {i : Instr} {s : State} {tb n nsyms ft : Nat} (h : i.icdfTable = some (tb, n, nsyms, ft))
    (hs : s.idleReady) (hi : i.operandsInRange) :
    firstFault (commandChecks i s) = firstFault (icdfChecks s tb n nsyms ft) := by
  obtain ⟨-, hready, hidle⟩ := hs
  cases i with
  | decodeIcdfFt _ ft _ | decodeIcdf16Ft _ ft _ =>
    cases h
    have hok : genericTotalOk ft.toNat = true := genericTotalOk_iff.mpr hi
    simp [commandChecks, checkReady, checkIdle, checkOperands, hready, hidle, hok]
  | decodeIcdf _ ftb _ | decodeIcdf16 _ ftb _ =>
    cases h
    have hok : totalBitsOperandOk ftb.toNat = true := totalBitsOperandOk_iff.mpr hi
    simp [commandChecks, checkReady, checkIdle, checkOperands, hready, hidle, hok, Nat.one_shiftLeft]
  | _ => cases h

theorem tableAligned_iff {tb n : Nat} : tableAligned tb n = true ↔ (n = 2 → tb % 2 = 0) := by
  simp [tableAligned, imp_iff_not_or]

theorem tableInSpace_iff {tb n nsyms : Nat} : tableInSpace tb n nsyms = true ↔ tb + n * nsyms - 1 ≤ 2 ^ 32 - 1 :=
  decide_eq_true_iff

/-- The terminator check asks that the last entry read as 0 (R230, R233). -/
theorem icdfTerminated_iff {s : State} {tb n nsyms : Nat} (hn : n = 1 ∨ n = 2) :
    icdfTerminated (icdfEntry s .terminator tb n) nsyms = true ↔
      tableEntry (s.tableByte .terminator) tb n (nsyms - 1) = 0 := by
  rw [icdfTerminated, beq_iff_eq, icdfEntry_eq hn]

/-- Settles O17: the first of the table checks that fails decides. -/
theorem tableFaults : Obligations.TableFaults := by
  unfold Obligations.TableFaults
  intro i s tb n nsyms ft htable hw hs hi
  obtain ⟨hn, -⟩ := icdfTable_shape htable hw
  have hchecks := firstFault_icdfTable htable hs hi
  refine ⟨fun h16 hodd => ?misaligned, fun heven hout => ?overflow, fun heven hin hlast => ?unterminated⟩
  case misaligned =>
    have halign : tableAligned tb n = false := by simp [tableAligned, h16, hodd]
    exact exec_raises hs.1 (c := .tableMisaligned) (by rw [hchecks]; simp [icdfChecks, halign])
  case overflow =>
    have halign := tableAligned_iff.mpr heven
    have hspace : tableInSpace tb n nsyms = false := by
      rw [← Bool.not_eq_true, tableInSpace_iff]
      exact Nat.not_le.mpr hout
    exact exec_raises hs.1 (c := .tableAddressOverflow) (by rw [hchecks]; simp [icdfChecks, halign, hspace])
  case unterminated =>
    have halign := tableAligned_iff.mpr heven
    have hspace := tableInSpace_iff.mpr hin
    have hend : icdfTerminated (icdfEntry s .terminator tb n) nsyms = false := by
      rw [← Bool.not_eq_true, icdfTerminated_iff hn]
      exact hlast
    exact exec_raises hs.1 (c := .icdfTableNonconforming) (by rw [hchecks]; simp [icdfChecks, halign, hspace, hend])

/-- On an aligned table in the address space that ends in 0 and is within the contract, a table command fails the bounds
check of the symbol selected or none (R233). -/
theorem firstFault_icdfTable_inContract {i : Instr} {s : State} {tb n nsyms ft : Nat}
    (h : i.icdfTable = some (tb, n, nsyms, ft)) (hn : n = 1 ∨ n = 2) (hs : s.idleReady) (hi : i.operandsInRange)
    (heven : n = 2 → tb % 2 = 0) (hin : tb + n * nsyms - 1 ≤ 2 ^ 32 - 1)
    (hlast : tableEntry (s.tableByte .terminator) tb n (nsyms - 1) = 0) (hcontract : s.tableInContract tb n nsyms ft) :
    firstFault (commandChecks i s) =
      if icdfSymbolOk s tb n ft (icdfSymbol s tb n nsyms ft) then none else some .icdfTableNonconforming := by
  have halign := tableAligned_iff.mpr heven
  have hspace := tableInSpace_iff.mpr hin
  have hend := (icdfTerminated_iff hn).mpr hlast
  have hpass : icdfBoundsPass s tb n nsyms ft = icdfSymbolOk s tb n ft (icdfSymbol s tb n nsyms ft) :=
    if_pos ((icdfInContract_iff hn).mpr hcontract)
  rw [firstFault_icdfTable h hs hi]
  cases hok : icdfSymbolOk s tb n ft (icdfSymbol s tb n nsyms ft) <;>
    simp [icdfChecks, halign, hspace, hend, hpass, hok]

/-! ## What a table command leaves -/

/-- The symbol selected is one of the alphabet, of a table that stands and of one with changed bytes (R231, R82). -/
theorem icdfSymbol_lt {s : State} {tb n nsyms ft : Nat} (hn : n = 1 ∨ n = 2) (hnsyms : 1 ≤ nsyms)
    (hlast : tableEntry (s.tableByte .terminator) tb n (nsyms - 1) = 0)
    (hprobe : (lookup s.range.toNat s.position ft).1 < ft) : icdfSymbol s tb n nsyms ft < nsyms := by
  rw [icdfSymbol, icdfSelect]
  split
  · next hstands =>
    have hzero : icdfHeld s tb n (nsyms - 1) = 0 := by
      rw [← icdfEntry_stands hstands (by omega) hn .terminator, icdfEntry_eq hn, hlast]
    exact (firstBelow_exists hnsyms hzero (by omega)).1
  · exact Nat.mod_lt _ hnsyms

theorem icdfLow_toNat (T : Nat → Nat) (ft k : Nat) : (icdfLow T ft k).toNat = symbolLow T ft k := by
  rw [icdfLow, symbolLow]
  split
  · rfl
  · exact Int.toNat_sub _ _

theorem icdfHigh_toNat (T : Nat → Nat) (ft k : Nat) : (icdfHigh T ft k).toNat = ft - T k := Int.toNat_sub _ _

/-- The sub-range of a symbol is between its scaled bounds, as the block reads them (R200, R233). -/
theorem icdfRange_eq_scaledBound (s : State) {tb n : Nat} (hn : n = 1 ∨ n = 2) (ft k : Nat) :
    icdfRange s (icdfEntry s .lowBound tb n) (icdfEntry s .highBound tb n) ft k =
      (scaledBound s.range.toNat ft (lookup s.range.toNat s.position ft).2
          (symbolLow (tableEntry (s.tableByte .lowBound) tb n) ft k),
        scaledBound s.range.toNat ft (lookup s.range.toNat s.position ft).2
          (ft - tableEntry (s.tableByte .highBound) tb n k)) := by
  have hentry : ∀ u, icdfEntry s u tb n = tableEntry (s.tableByte u) tb n := fun u => funext fun _ => icdfEntry_eq hn
  rw [icdfRange, narrow_eq_scaledBound, icdfLow_toNat, icdfHigh_toNat, hentry, hentry]

/-- The sub-range of a symbol whose bounds pass the check holds the position and lies in the range (R201, R233). -/
theorem icdfRange_holds_position {s : State} {low high : Nat → Nat} {ft k : Nat} (h1 : 1 ≤ ft) (h2 : ft ≤ 32768)
    (hr : s.rangeOk) (hk : icdfBoundsOk low high ft (lookup s.range.toNat s.position ft).1 k = true) :
    (icdfRange s low high ft k).1 ≤ s.position ∧ s.position < (icdfRange s low high ft k).2 ∧
      (icdfRange s low high ft k).2 ≤ s.range.toNat := by
  obtain ⟨-, hle, hlt, -⟩ := lookup_spec (c := s.position) h1 (h2.trans hr.1) s.range.isLt hr.2
  obtain ⟨hlow, hprobe, hhigh⟩ := icdfBoundsOk_iff.mp hk
  have htop : icdfHigh high ft k ≤ ft := by simp only [icdfHigh]; omega
  obtain ⟨hu, hv⟩ := (narrow_contains_iff (r := s.range.toNat) (c := s.position) (ft := ft)
    (fl := (icdfLow low ft k).toNat) (fh := (icdfHigh high ft k).toNat)).mpr ⟨by omega, by omega⟩
  exact ⟨hu, hv, (narrow_bounds (by omega) (by omega) hle hlt).2⟩

/-- A table command whose symbol passes the bounds check narrows to the scaled bounds of that symbol (R233). -/
theorem icdfEffect_narrowed {s : State} {tb n nsyms ft : Nat} (hn : n = 1 ∨ n = 2) (hready : s.ready = true)
    (hinv : s.Inv) (h1 : 1 ≤ ft) (h2 : ft ≤ 32768) (hok : icdfSymbolOk s tb n ft (icdfSymbol s tb n nsyms ft) = true) :
    narrowed s
      (scaledBound s.range.toNat ft (lookup s.range.toNat s.position ft).2
        (symbolLow (tableEntry (s.tableByte .lowBound) tb n) ft (icdfSymbol s tb n nsyms ft)))
      (scaledBound s.range.toNat ft (lookup s.range.toNat s.position ft).2
        (ft - tableEntry (s.tableByte .highBound) tb n (icdfSymbol s tb n nsyms ft)))
      (icdfEffect s tb n nsyms ft).1 := by
  obtain ⟨⟨hr, hwindow, hcount, hcursor⟩, -⟩ := (inv_iff_parts hready).mp hinv
  obtain ⟨hu, hv, htop⟩ := icdfRange_holds_position h1 h2 hr hok
  have hnarrow := narrowTo_narrowed hu hv htop hwindow hcount hcursor
  rw [icdfRange_eq_scaledBound s hn] at hnarrow
  rw [icdfEffect, icdfRange_eq_scaledBound s hn]
  exact hnarrow

/-- Settles O60: the bounds check of the symbol selected decides, and a symbol that passes it is narrowed to. -/
theorem changedTableOutcome : Obligations.ChangedTableOutcome := by
  unfold Obligations.ChangedTableOutcome
  intro i s tb n nsyms ft htable hw hs hinv hi heven hin hlast hcontract
  obtain ⟨hn, hnsyms⟩ := icdfTable_shape htable hw
  obtain ⟨-, hdefined, heffect, -, hrange⟩ := icdfTable_command htable s
  obtain ⟨h1, h2⟩ := hrange hi
  have ⟨hfault, hready, _⟩ := hs
  obtain ⟨⟨hr, -⟩, -⟩ := (inv_iff_parts hready).mp hinv
  have hchecks := firstFault_icdfTable_inContract htable hn hs hi heven hin hlast hcontract
  cases hok : icdfSymbolOk s tb n ft (icdfSymbol s tb n nsyms ft) with
  | false => exact .inl (exec_raises hfault (by rw [hchecks, hok]; rfl))
  | true =>
    obtain ⟨-, -, -, hprobe⟩ := lookup_spec (c := s.position) h1 (h2.trans hr.1) s.range.isLt hr.2
    obtain ⟨hentry, hlow, hhigh⟩ := (icdfSymbolOk_iff hn).mp hok
    have hexec := exec_completes hfault (hdefined.trans ((icdfInContract_iff hn).mpr hcontract)) (by rw [hchecks, hok]; rfl)
    rw [heffect] at hexec
    exact .inr ⟨_, _, icdfSymbol s tb n nsyms ft, _, _, _, lookup_isLookup s.position h1 (h2.trans hr.1) s.range.isLt,
      icdfSymbol_lt hn hnsyms hlast hprobe, hentry, rfl, rfl, hlow, hhigh, hexec,
      icdfEffect_narrowed hn hready hinv h1 h2 hok, rfl, fun _ => ⟨rfl, rfl⟩⟩

end Sys2Proof.Machine
end

