-- ==== Sys2Proof/Proofs/Encoding.lean ====
section
/-! PROOFS. The encoder and the decoder are inverse to each other, and the decoding procedure over all words
(spec/30_encoding.md R100 to R106). -/

namespace Sys2Proof

/-! ## Decoding an encoded instruction -/

/-- Every command's word has the opcode and the zero fields of its row (R102, R103). -/
theorem encode_fields (i : Instr) : Laws.EncodeFields.Statement i := by
  cases i with
  | init storage => exact Laws.EncodeFields.init storage
  | tell => exact Laws.EncodeFields.tell
  | decode ft => exact Laws.EncodeFields.decode ft
  | decodeNorm ft => exact Laws.EncodeFields.decodeNorm ft
  | decodeBinNorm => exact Laws.EncodeFields.decodeBinNorm
  | decodeBin ftb => exact Laws.EncodeFields.decodeBin ftb
  | update fl fh ft => exact Laws.EncodeFields.update fl fh ft
  | decodeBitLogp logp => exact Laws.EncodeFields.decodeBitLogp logp
  | decodeIcdfFt tb ft nsyms => exact Laws.EncodeFields.decodeIcdfFt tb ft nsyms
  | decodeIcdf16Ft tb ft nsyms => exact Laws.EncodeFields.decodeIcdf16Ft tb ft nsyms
  | decodeIcdf tb ftb nsyms => exact Laws.EncodeFields.decodeIcdf tb ftb nsyms
  | decodeIcdf16 tb ftb nsyms => exact Laws.EncodeFields.decodeIcdf16 tb ftb nsyms
  | decodeUint ft => exact Laws.EncodeFields.decodeUint ft
  | decodeBits nbits => exact Laws.EncodeFields.decodeBits nbits

/-- The two checks of a number of symbols: 1 to 256 (R12, R101). -/
theorem nsymsOk_iff {n : Nat} : (nsymsAtLeastOne n && nsymsFitsField n) = true ↔ 1 ≤ n ∧ n ≤ 256 := by
  rw [Bool.and_eq_true]
  exact and_congr decide_eq_true_iff decide_eq_true_iff

/-- The number of symbols that a packed word carries, for one that fits its field (R101). -/
theorem fieldNsyms_packWord {op : BitVec 5} {n : Nat} {b : BitVec 16} {a : BitVec 32}
    (h : (nsymsAtLeastOne n && nsymsFitsField n) = true) : fieldNsyms (packWord op (packNsyms n) b a) = n := by
  obtain ⟨hmin, hmax⟩ := nsymsOk_iff.mp h
  rw [fieldNsyms, fieldNs_packWord]
  exact nsyms_packNsyms hmin hmax

/-- The fields of an encoded instruction are its operands: the row's opcode reads it back (R103). -/
theorem instrOf_encode {i : Instr} (h : i.wellFormed = true) :
    instrOf (Laws.EncodeFields.rowOf i).1.toNat (encode i) = some i := by
  cases i with
  | init _ | decodeUint _ => exact congrArg some (congrArg _ (fieldA_packWord ..))
  | tell | decodeBinNorm => rfl
  | decode _ | decodeNorm _ | decodeBin _ | decodeBitLogp _ | decodeBits _ =>
    exact congrArg some (congrArg _ (fieldB_packWord ..))
  | update fl fh ft => simp [instrOf, encode, Laws.EncodeFields.rowOf]
  | decodeIcdfFt _ _ _ | decodeIcdf16Ft _ _ _ | decodeIcdf _ _ _ | decodeIcdf16 _ _ _ =>
    simp [instrOf, encode, Laws.EncodeFields.rowOf, fieldNsyms_packWord h]

/-- Settles O2: the word of an instruction has its row's opcode, no bit outside the row's format, and the operands in
their fields. -/
theorem decodeOfEncode : Obligations.DecodeOfEncode := by
  unfold Obligations.DecodeOfEncode
  intro i hw
  obtain ⟨hop, hformat, hzero⟩ := encode_fields i
  rw [← hop] at hformat
  exact decode_eq_ok hformat (hop ▸ instrOf_encode hw) hzero

/-! ## Encoding a decoded word -/

/-- A word that decodes has a defined opcode, the instruction is the opcode's, and no bit outside the format is set
(R106). -/
theorem decode_ok_inv {w : CmdWord} {i : Instr} (h : decode w = .ok i) :
    ∃ f, formatOf (fieldOp w).toNat = some f ∧ instrOf (fieldOp w).toNat w = some i ∧ w &&& zeroMask f = 0 := by
  simp only [decode] at h
  split at h
  · next f j hf hj =>
    split at h
    · next hz =>
      cases h
      exact ⟨f, hf, hj, hz⟩
    · cases h
  · cases h

section

variable {w : CmdWord} {op : BitVec 5} (hop : (fieldOp w).toNat = op.toNat)

include hop

/-- A word of format Z is packed from its opcode alone (R102). -/
theorem packWord_of_z (hz : w &&& zeroMask .z = 0) : packWord op 0 0 0 = w := by
  obtain ⟨hrsv, hns, hb, ha⟩ := (zeroMask_z_iff w).mp hz
  rw [← packWord_fields hrsv, hns, hb, ha, BitVec.eq_of_toNat_eq hop]

/-- A word of format B is packed from its opcode and its B (R102). -/
theorem packWord_of_b (hz : w &&& zeroMask .b = 0) : packWord op 0 (fieldB w) 0 = w := by
  obtain ⟨hrsv, hns, ha⟩ := (zeroMask_b_iff w).mp hz
  conv_rhs => rw [← packWord_fields hrsv, hns, ha, BitVec.eq_of_toNat_eq hop]

/-- A word of format A is packed from its opcode and its A (R102). -/
theorem packWord_of_a (hz : w &&& zeroMask .a = 0) : packWord op 0 0 (fieldA w) = w := by
  obtain ⟨hrsv, hns, hb⟩ := (zeroMask_a_iff w).mp hz
  conv_rhs => rw [← packWord_fields hrsv, hns, hb, BitVec.eq_of_toNat_eq hop]

/-- A word of format U is packed from its opcode, its B and its two bounds (R102). -/
theorem packWord_of_u (hz : w &&& zeroMask .u = 0) :
    packWord op 0 (fieldB w) (packBounds (fieldFl w) (fieldFh w)) = w := by
  obtain ⟨hrsv, hns⟩ := (zeroMask_u_iff w).mp hz
  conv_rhs => rw [← packWord_fields hrsv, hns, BitVec.eq_of_toNat_eq hop]
  rw [packBounds_fields]

/-- A word of format T is packed from its opcode, its number of symbols, its B and its A (R102). -/
theorem packWord_of_t (hz : w &&& zeroMask .t = 0) :
    packWord op (packNsyms (fieldNsyms w)) (fieldB w) (fieldA w) = w := by
  have hns : packNsyms (fieldNsyms w) = fieldNs w := by simp [packNsyms, fieldNsyms]
  conv_rhs => rw [← packWord_fields ((zeroMask_t_iff w).mp hz), BitVec.eq_of_toNat_eq hop]
  rw [hns]

end

/-- The number of symbols a word carries is from 1 to 256 (R101). -/
theorem fieldNsyms_wellFormed (w : CmdWord) :
    (nsymsAtLeastOne (fieldNsyms w) && nsymsFitsField (fieldNsyms w)) = true :=
  nsymsOk_iff.mpr ⟨Nat.le_add_left 1 _, (fieldNs w).isLt⟩

/-- Settles O3: by the opcode, whose format says which fields of the word are not zero. -/
theorem encodeOfDecode : Obligations.EncodeOfDecode := by
  unfold Obligations.EncodeOfDecode
  intro w i h
  obtain ⟨f, hf, hi, hz⟩ := decode_ok_inv h
  have hns := fieldNsyms_wellFormed w
  generalize hop : (fieldOp w).toNat = n at hf hi
  unfold formatOf at hf
  -- Case `h_n` is the row of opcode `n`.
  split at hf <;> cases hf <;> cases hi
  case h_2 | h_5 => exact ⟨rfl, packWord_of_z hop hz⟩
  case h_3 | h_4 | h_6 | h_8 | h_14 => exact ⟨rfl, packWord_of_b hop hz⟩
  case h_1 | h_13 => exact ⟨rfl, packWord_of_a hop hz⟩
  case h_7 => exact ⟨rfl, packWord_of_u hop hz⟩
  case h_9 | h_10 | h_11 | h_12 => exact ⟨hns, packWord_of_t hop hz⟩

/-! ## The fields of a word as parts of its number (R100) -/

theorem field_eq_ofNat (w : CmdWord) (lo n : Nat) : w.extractLsb' lo n = BitVec.ofNat n (w.toNat / 2 ^ lo) := by
  rw [← Nat.shiftRight_eq_div_pow]; rfl

theorem fieldNsyms_eq (w : CmdWord) : fieldNsyms w = w.toNat / 2 ^ 8 % 256 + 1 := by
  rw [← Nat.shiftRight_eq_div_pow]; rfl

/-! ## The three outcomes of decoding, by the opcode as a number -/

/-- The opcodes 0 and from 15 on are reserved (R104). -/
theorem formatOf_eq_none {n : Nat} (h : n = 0 ∨ 15 ≤ n) : formatOf n = none := by
  unfold formatOf
  split
  case h_15 => rfl
  all_goals omega

/-- The opcodes 1 to 14 have a format (R103). -/
theorem formatOf_isSome {n : Nat} (h1 : 1 ≤ n) (h2 : n ≤ 14) : ∃ f, formatOf n = some f := by
  interval_cases n <;> exact ⟨_, rfl⟩

/-- An opcode with a format has an instruction (R103). -/
theorem instrOf_isSome {n : Nat} {f : Format} (h : formatOf n = some f) (w : CmdWord) : ∃ i, instrOf n w = some i := by
  unfold formatOf at h
  split at h
  case h_15 => cases h
  all_goals exact ⟨_, rfl⟩

/-- A word of a reserved opcode is ILLEGAL_OPCODE (R104). -/
theorem decode_illegal {w : CmdWord} (h : w.toNat % 32 = 0 ∨ 15 ≤ w.toNat % 32) : decode w = .error .illegalOpcode :=
  decode_eq_illegal (formatOf_eq_none (by rwa [fieldOp_toNat]))

/-- A word of a defined opcode with a bit set outside its format is RESERVED_FIELD_NONZERO (R105). -/
theorem decode_reserved {w : CmdWord} {f : Format} (hf : formatOf (w.toNat % 32) = some f) (hz : w &&& zeroMask f ≠ 0) :
    decode w = .error .reservedFieldNonzero := by
  rw [← fieldOp_toNat] at hf
  obtain ⟨i, hi⟩ := instrOf_isSome hf w
  exact decode_eq_reserved hf hi hz

/-- A word of a defined opcode with no bit set outside its format is the opcode's instruction (R106). -/
theorem decode_row {w : CmdWord} {n : Nat} {f : Format} {i : Instr} (hop : w.toNat % 32 = n) (hf : formatOf n = some f)
    (hi : instrOf n w = some i) (hz : w &&& zeroMask f = 0) : decode w = .ok i := by
  rw [← hop, ← fieldOp_toNat] at hf hi
  exact decode_eq_ok hf hi hz

/-- Settles O4: each row of the opcode table is one case of `decode_row`, and its mask one of `decode_reserved`. -/
theorem decodingProcedure : Obligations.DecodingProcedure := by
  unfold Obligations.DecodingProcedure
  intro w
  have hz : ∀ n ∈ [2, 5], formatOf n = some .z := by decide
  have hb : ∀ n ∈ [3, 4, 6, 8, 14], formatOf n = some .b := by decide
  have ha : ∀ n ∈ [1, 13], formatOf n = some .a := by decide
  have ht : ∀ n ∈ [9, 10, 11, 12], formatOf n = some .t := by decide
  rw [← field_eq_ofNat w 32 32, ← field_eq_ofNat w 16 16, ← field_eq_ofNat w 32 16, ← field_eq_ofNat w 48 16,
    ← fieldNsyms_eq]
  refine ⟨decode_illegal, fun hop => decode_reserved (hz _ hop), fun hop => decode_reserved (hb _ hop),
    fun hop => decode_reserved (ha _ hop), fun hop => decode_reserved (f := .u) (by rw [hop]; rfl),
    fun hop => decode_reserved (ht _ hop), ?_⟩
  and_intros <;> exact fun hop => decode_row hop rfl rfl

end Sys2Proof
end

