-- ==== Sys2Proof/Proofs/Assembler.lean ====
section
/-! PROOFS. Which lines the assembler accepts, and the words of the example lines
(spec/30_encoding.md R111 to R113). -/

namespace Sys2Proof.Machine

/-! ## Operands and the fields they fit -/

theorem asmField_of_lt {n v : Nat} (h : v < 2 ^ n) : asmField n v = some (BitVec.ofNat n v) := if_pos h

theorem asmField_of_le {n v : Nat} (h : 2 ^ n ≤ v) : asmField n v = none := if_neg (Nat.not_lt.mpr h)

theorem lt_of_asmField {n v : Nat} {x : BitVec n} (h : asmField n v = some x) : v < 2 ^ n := by
  by_contra hc
  simp [asmField, hc] at h

theorem asmNsyms_of_range {n : Nat} (h : 1 ≤ n ∧ n ≤ 256) : asmNsyms n = some n := if_pos (nsymsOk_iff.mpr h)

theorem range_of_asmNsyms {n m : Nat} (h : asmNsyms n = some m) : 1 ≤ n ∧ n ≤ 256 := by
  by_contra hc
  simp only [asmNsyms, if_neg (mt nsymsOk_iff.mp hc)] at h
  cases h

/-- UPDATE assembles exactly when its three operands fit their fields (R111). -/
theorem asmUpdate_eq (fl fh ft : Nat) :
    asmUpdate fl fh ft = if fl < 2 ^ 16 ∧ fh < 2 ^ 16 ∧ ft < 2 ^ 16 then
      some (.update (BitVec.ofNat 16 fl) (BitVec.ofNat 16 fh) (BitVec.ofNat 16 ft)) else none := by
  unfold asmUpdate
  split_ifs with h
  · obtain ⟨hl, hh, ht⟩ := h
    rw [asmField_of_lt hl, asmField_of_lt hh, asmField_of_lt ht]
  · split
    · next hl hh ht => exact absurd ⟨lt_of_asmField hl, lt_of_asmField hh, lt_of_asmField ht⟩ h
    · rfl

/-- A table command assembles exactly when its base and total fit their fields and it has 1 to 256 symbols (R111). -/
theorem asmTable_eq (mk : BitVec 32 → BitVec 16 → Nat → Instr) (tb b n : Nat) :
    asmTable mk tb b n = if tb < 2 ^ 32 ∧ b < 2 ^ 16 ∧ 1 ≤ n ∧ n ≤ 256 then
      some (mk (BitVec.ofNat 32 tb) (BitVec.ofNat 16 b) n) else none := by
  unfold asmTable
  split_ifs with h
  · obtain ⟨ht, hb, hn⟩ := h
    rw [asmField_of_lt ht, asmField_of_lt hb, asmNsyms_of_range hn]
  · split
    · next ht hb hn => exact absurd ⟨lt_of_asmField ht, lt_of_asmField hb, range_of_asmNsyms hn⟩ h
    · rfl

/-- UPDATE's bounds and total are bit vectors, so what assembles is well-formed (R111). -/
theorem asmUpdate_wellFormed {fl fh ft : Nat} {i : Instr} (h : asmUpdate fl fh ft = some i) : i.wellFormed = true := by
  rw [asmUpdate_eq, Option.ite_none_right_eq_some, Option.some.injEq] at h
  obtain ⟨-, rfl⟩ := h
  rfl

/-- A table command that assembles has the number of symbols its operand says, from 1 to 256 (R111). -/
theorem asmTable_eq_some {mk : BitVec 32 → BitVec 16 → Nat → Instr} {tb b n : Nat} {i : Instr}
    (h : asmTable mk tb b n = some i) :
    (nsymsAtLeastOne n && nsymsFitsField n) = true ∧ mk (BitVec.ofNat 32 tb) (BitVec.ofNat 16 b) n = i := by
  rw [asmTable_eq, Option.ite_none_right_eq_some, Option.some.injEq] at h
  obtain ⟨⟨-, -, hn⟩, hi⟩ := h
  exact ⟨nsymsOk_iff.mpr hn, hi⟩

/-! ## A line -/

/-- What assembles is well-formed (R111). -/
theorem assembleLine_wellFormed {line : AsmLine} {i : Instr} (h : assembleLine line = some i) : i.wellFormed = true := by
  cases line with
  | init _ | dec _ | decNorm _ | decBin _ | bitLogp _ | uint _ | bits _ =>
    obtain ⟨v, -, rfl⟩ := Option.map_eq_some_iff.mp h
    rfl
  | tell | decBinnorm | bool => cases h; rfl
  | upd _ _ _ | updSym _ _ => exact asmUpdate_wellFormed h
  | icdfFt _ _ _ | icdf16Ft _ _ _ | icdf _ _ _ | icdf16 _ _ _ =>
    obtain ⟨hn, rfl⟩ := asmTable_eq_some h
    exact hn

/-- Settles O5: the three ways a line reads its operands, one field, UPDATE's and a table's. -/
theorem assemblerFitsFields : Obligations.AssemblerFitsFields := by
  unfold Obligations.AssemblerFitsFields
  refine ⟨fun line i => assembleLine_wellFormed, fun n => ⟨fun h => ?_, fun h => ?_⟩, fun n => ⟨fun h => ?_, fun h => ?_⟩,
    asmUpdate_eq, asmTable_eq _, asmTable_eq _, asmTable_eq _, asmTable_eq _, rfl, rfl, fun _ _ => rfl, rfl⟩
  · simp only [assembleLine, asmField_of_le h, Option.map_none, and_self]
  · simp only [assembleLine, asmField_of_lt h, Option.map_some, and_self]
  · simp only [assembleLine, asmField_of_le h, Option.map_none, and_self]
  · simp only [assembleLine, asmField_of_lt h, Option.map_some, and_self]

/-! ## Text of a line (R113) -/

/-- A line of text that parses and assembles gives its instruction's word, which decodes to that instruction. -/
theorem assembleText_decodes {text : List Char} {line : AsmLine} {i : Instr} {w : CmdWord}
    (hparse : asmParse text = some line) (hline : assembleLine line = some i) (hw : encode i = w) :
    assembleText text = some w ∧ decode w = .ok i := by
  subst hw
  exact ⟨by rw [assembleText, hparse]; exact congrArg (Option.map encode) hline,
    decodeOfEncode i (assembleLine_wellFormed hline)⟩

/-- Settles O1: each example line parses to its line, assembles and packs to its word. -/
theorem exampleWordsDecode : Obligations.ExampleWordsDecode := by
  unfold Obligations.ExampleWordsDecode
  exact ⟨assembleText_decodes (line := .init 5) rfl rfl rfl, assembleText_decodes (line := .tell) rfl rfl rfl,
    assembleText_decodes (line := .dec 300) rfl rfl rfl, assembleText_decodes (line := .decBinnorm) rfl rfl rfl,
    assembleText_decodes (line := .decBin 4) rfl rfl rfl, assembleText_decodes (line := .upd 10 20 300) rfl rfl rfl,
    assembleText_decodes (line := .bitLogp 1) rfl rfl rfl, assembleText_decodes (line := .icdf 0x1000 2 3) rfl rfl rfl,
    assembleText_decodes (line := .icdf16Ft 0x2000 100 4) rfl rfl rfl,
    assembleText_decodes (line := .uint 1000) rfl rfl rfl, assembleText_decodes (line := .bits 3) rfl rfl rfl⟩

end Sys2Proof.Machine
end

