-- ==== Sys2Proof/Proofs/CommandWords.lean ====
section
/-! PROOFS. A step on a word that decodes, the fault of one that does not, and responses leaving the block
(spec/30_encoding.md R104 to R110, spec/60_exceptions.md R302). -/

namespace Sys2Proof.Machine

/-! ## A step on a word that decodes (R106, R109) -/

/-- The 64 bits of a word are the word (R100). -/
theorem tableWord_toNat (w : CmdWord) : tableWord 64 w.toNat = w := by
  rw [tableWord, Nat.mod_eq_of_lt w.isLt, BitVec.ofNat_toNat, BitVec.setWidth_eq]

/-- A word on the command port that decodes is executed as its instruction (R106). -/
theorem step_command {s : State} {w : CmdWord} {rest : List HostEvent} {i : Instr} (hp : s.resetDue = false)
    (hin : s.input = .command w :: rest) (hd : decode w = .ok i) :
    step s = exec i { s with input := rest, draws := s.draws + 1 } :=
  (step_event hin).trans (runWord_ok (s := s.setInput rest) hp hd)

/-- Settles O6: the word presented at the port is the first event, and an encoded instruction decodes to itself. -/
theorem stepRunsDecoded : Obligations.StepRunsDecoded := by
  unfold Obligations.StepRunsDecoded
  refine ⟨fun s w rest i => step_command, fun s i hp hw => ?_⟩
  exact step_command (s := s.withFetchWord 64 (encode i).toNat) hp rfl
    ((tableWord_toNat (encode i)).symm ▸ decodeOfEncode i hw)

/-! ## Words that do not decode -/

/-- While power lasts and FAULT = 0, a word that does not decode is fault entry with the cause decoding gives (R302). -/
theorem runWord_undecodable {w : CmdWord} {c : Cause} {s : State} (hp : s.resetDue = false) (hf : s.fault = false)
    (h : decode w = .error c) : runWord w s = .next (faulted { s with draws := s.draws + 1 } (causeCode c) w) :=
  (runWord_error hp h).trans (rejectWord_enters hf)

/-- Settles O12: a reserved opcode is ILLEGAL_OPCODE, and a word of a defined one that does not decode has a bit set
outside its format. -/
theorem undecodableWordFaults : Obligations.UndecodableWordFaults := by
  unfold Obligations.UndecodableWordFaults
  intro s w hp hf
  refine ⟨fun hop => runWord_undecodable hp hf (decode_illegal hop), fun h1 h2 hnone => ?_⟩
  obtain ⟨f, hformat⟩ := formatOf_isSome h1 h2
  obtain ⟨i, hi⟩ := instrOf_isSome hformat w
  have hz : w &&& zeroMask f ≠ 0 := fun hz => hnone i (decode_row rfl hformat hi hz)
  exact runWord_undecodable hp hf (decode_reserved hformat hz)

/-! ## Responses (R109, R110) -/

/-- The oldest response held is the one accepted (R109). -/
theorem acceptResponse_cons {s : State} {r : Response} {rs : List Response} (h : s.responses = r :: rs) :
    s.acceptResponse = { s with responses := rs, delivered := s.delivered ++ [r] } := by rw [State.acceptResponse, h]

theorem acceptResponse_nil {s : State} (h : s.responses = []) : s.acceptResponse = s := by rw [State.acceptResponse, h]

/-- Settles O10: with a response held and with none. -/
theorem responsesLeaveInOrder : Obligations.ResponsesLeaveInOrder := by
  unfold Obligations.ResponsesLeaveInOrder
  intro s rest hin
  have hstep := step_event hin
  exact ⟨fun r rs h => hstep.trans (congrArg _ (acceptResponse_cons (s := s.setInput rest) h)),
    fun h => hstep.trans (congrArg _ (acceptResponse_nil (s := s.setInput rest) h))⟩

end Sys2Proof.Machine
end

