-- ==== Sys2Proof/Proofs/Responses.lean ====
section
/-! PROOFS. The one response every command word gives, the ranges of the values returned, and the fault of an operand out
of range (spec/30_encoding.md R103, R107, R108, spec/60_exceptions.md R302 to R305). -/

namespace Sys2Proof.Machine

/-! ## An operand out of range (R303, cause 4) -/

/-- Checks that pass leave the first fault to those after them. -/
theorem firstFault_append {pre rest : List (Bool × Cause)} (h : ∀ x ∈ pre, x.1 = false) :
    firstFault (pre ++ rest) = firstFault rest := by
  induction pre with
  | nil => rfl
  | cons x pre ih =>
    obtain ⟨hx, hpre⟩ := List.forall_mem_cons.mp h
    rw [List.cons_append, firstFault_cons, hx]
    exact ih hpre

/-- A command whose operands can be out of range checks them right after READY and the phase it needs (R304). -/
theorem exists_operandCheck {i : Instr} (h : ¬ i.operandsInRange) (s : State) :
    ∃ pre ok rest, commandChecks i s = pre ++ checkOperands ok :: rest ∧ (ok = true → i.operandsInRange) ∧
      ∀ x ∈ pre, x = checkReady s ∨ (x = checkIdle s ∧ i.needsIdle = true) ∨
        (x = checkPending s ∧ ∃ fl fh ft, i = .update fl fh ft) := by
  have hidle : i.needsIdle = true → ∀ x ∈ [checkReady s, checkIdle s], x = checkReady s ∨
      (x = checkIdle s ∧ i.needsIdle = true) ∨ (x = checkPending s ∧ ∃ fl fh ft, i = .update fl fh ft) := by
    simp +contextual
  cases i with
  | init _ | tell | decodeBinNorm => exact absurd trivial h
  | decode ft => exact ⟨_, _, _, rfl, genericTotalOk_iff.mp, hidle rfl⟩
  | decodeNorm ft => exact ⟨_, _, _, rfl, normalizedTotalOk_iff.mp, hidle rfl⟩
  | decodeBin ftb => exact ⟨_, _, _, rfl, totalBitsOperandOk_iff.mp, hidle rfl⟩
  | update fl fh ft => exact ⟨[checkReady s, checkPending s], _, _, rfl, updateBoundsOk_iff.mp, by simp⟩
  | decodeBitLogp logp => exact ⟨_, _, _, rfl, logpOk_iff.mp, hidle rfl⟩
  | decodeIcdfFt _ _ _ | decodeIcdf16Ft _ _ _ => exact ⟨_, _, _, rfl, genericTotalOk_iff.mp, hidle rfl⟩
  | decodeIcdf _ _ _ | decodeIcdf16 _ _ _ => exact ⟨_, _, _, rfl, totalBitsOperandOk_iff.mp, hidle rfl⟩
  | decodeUint ft => exact ⟨_, _, _, rfl, uintTotalOk_iff.mp, hidle rfl⟩
  | decodeBits nbits => exact ⟨[checkReady s], _, _, rfl, rawWidthOk_iff.mp, by simp⟩

/-- Settles O15: the checks of READY and of the phase pass, and the operand check is next. -/
theorem operandOutOfRangeFaults : Obligations.OperandOutOfRangeFaults := by
  unfold Obligations.OperandOutOfRangeFaults
  intro i s hfault hready hi hidle hpending
  obtain ⟨pre, ok, rest, hchecks, hok, hpre⟩ := exists_operandCheck hi s
  have hpass : ∀ x ∈ pre, x.1 = false := by
    intro x hx
    rcases hpre x hx with rfl | ⟨rfl, hneeds⟩ | ⟨rfl, hupdate⟩
    · simp [checkReady, hready]
    · exact hidle hneeds
    · simp [checkPending, hpending hupdate]
  have hbad : ok = false := Bool.eq_false_iff.mpr (mt hok hi)
  exact exec_raises hfault (c := .argOutOfRange) (by rw [hchecks, firstFault_append hpass, hbad]; rfl)

/-! ## One response for every command word (R107) -/

/-- A command whose checks pass has a meaning, when its table is within the contract wherever it could run (R239). -/
theorem commandDefined_of_checks {i : Instr} {s : State} (hfault : s.fault = false)
    (hc : firstFault (commandChecks i s) = none) (hm : s.idleReady → i.operandsInRange → s.givesMeaning i) :
    commandDefined i s = true := by
  refine commandDefined_iff.mpr fun tb n nsyms ft htable => ?_
  have hinit : ∀ m, i ≠ .init m := by rintro m rfl; cases htable
  have hidle := idle_of_checks (icdfTable_command htable s).1 hc
  exact hm ⟨hfault, ready_of_checks hinit hc, hidle⟩ (operandsInRange_of_checks hc) tb n nsyms ft htable

/-- The three answers to a command word with a meaning, while power lasts: refused, a fault with the word itself as
FAULT_CMD, and the effect of its instruction. -/
theorem runWord_answers {s : State} {w : CmdWord} (hp : s.resetDue = false)
    (hm : ∀ i, decode w = .ok i → s.idleReady → i.operandsInRange → s.givesMeaning i) :
    (s.fault = true ∧ runWord w s = .next s.nextDraw.refuseWord) ∨
      (s.fault = false ∧ ∃ c, runWord w s = .next (s.nextDraw.enterFault c w)) ∨
      (s.fault = false ∧ ∃ i, decode w = .ok i ∧
        runWord w s = .next ((commandEffect i s.nextDraw).1.respond .ok (commandEffect i s.nextDraw).2)) := by
  cases hd : decode w with
  | error c =>
    rw [runWord_error hp hd]
    rcases Bool.eq_false_or_eq_true s.fault with hf | hf
    · exact .inl ⟨hf, rejectWord_faulted hf⟩
    · exact .inr (.inl ⟨hf, c, rejectWord_enters hf⟩)
  | ok i =>
    rw [runWord_ok hp hd]
    rcases exec_outcomes i s.nextDraw with ⟨hf, e⟩ | ⟨hf, c, -, e⟩ | ⟨hf, -, -, e⟩ | ⟨hf, hc, hdef, -⟩
    · exact .inl ⟨hf, e⟩
    · rw [(encodeOfDecode w i hd).2] at e
      exact .inr (.inl ⟨hf, c, e⟩)
    · exact .inr (.inr ⟨hf, i, rfl, e⟩)
    · exact absurd (commandDefined_of_checks hf hc (hm i hd)) (by simp [hdef])

/-- A completed command leaves the ports and the fault record as they are. -/
theorem commandEffect_ports (i : Instr) (s : State) :
    (commandEffect i s).1.responses = s.responses ∧ (commandEffect i s).1.delivered = s.delivered ∧
      (commandEffect i s).1.input = s.input ∧ (commandEffect i s).1.fault = s.fault ∧
      (commandEffect i s).1.cause = s.cause ∧ (commandEffect i s).1.faultCmd = s.faultCmd := by
  obtain ⟨u, hu⟩ := commandEffect_frame i s
  rw [hu]
  exact ⟨rfl, rfl, rfl, rfl, rfl, rfl⟩

/-- Settles O8: each of the three answers is one response, of the code and the effect of its kind. -/
theorem everyCommandOneResponse : Obligations.EveryCommandOneResponse := by
  unfold Obligations.EveryCommandOneResponse
  refine ⟨⟨rfl, rfl, rfl⟩, fun s w hw => ?_⟩
  rcases Bool.eq_false_or_eq_true s.resetDue with hp | hp
  · exact ⟨_, _, runWord_unreset hp, rfl, rfl, rfl, fun hpower => absurd hpower (by simp [hp])⟩
  · rcases runWord_answers hp (hw.resolve_left (by simp [hp])) with ⟨hf, e⟩ | ⟨hf, c, e⟩ | ⟨hf, i, hd, e⟩
    · exact ⟨_, _, e, rfl, rfl, rfl, fun _ => ⟨by simp [hf], fun _ => rfl, nofun, nofun, fun _ => rfl, fun _ _ => rfl,
        fun _ _ _ _ => rfl⟩⟩
    · exact ⟨_, _, e, rfl, rfl, rfl, fun _ => ⟨by simp [hf], nofun, fun _ => rfl, nofun, fun _ => rfl, fun _ _ => rfl,
        fun _ _ _ _ => rfl⟩⟩
    · obtain ⟨hresp, hdelivered, hinput, hfault, hcause, hcmd⟩ := commandEffect_ports i s.nextDraw
      have hresult : ∀ j, decode w = .ok j → (commandEffect j s.nextDraw).2 = 0 → (commandEffect i s.nextDraw).2 = 0 := by
        intro j hj hzero
        rw [hd] at hj
        cases hj
        exact hzero
      exact ⟨_, ⟨.ok, _⟩, e, congrArg (· ++ _) hresp, hdelivered, hinput, fun _ => ⟨by simp [hf], nofun, nofun,
        fun _ => ⟨hfault.trans hf, hcause, hcmd⟩, fun h => absurd rfl h, fun _ hi => hresult _ hi rfl,
        fun _ _ _ hi => hresult _ hi rfl⟩⟩

/-! ## The values returned (R108) -/

/-- A number below a bound is below it as a RESULT too. -/
theorem result_lt {m n : Nat} (h : m < n) : (BitVec.ofNat 32 m).toNat < n := by
  rw [BitVec.toNat_ofNat]
  exact (Nat.mod_le _ _).trans_lt h

/-- The probe of a legal total is below it (R171). -/
theorem probe_lt {s : State} {ft : Nat} (hr : s.rangeOk) (h1 : 1 ≤ ft) (h2 : ft ≤ 32768) :
    (lookup s.range.toNat s.position ft).1 < ft := by
  obtain ⟨hrange, hposition⟩ := hr
  obtain ⟨-, -, -, hlt⟩ := lookup_spec h1 (h2.trans hrange) s.range.isLt hposition
  exact hlt

/-- A lookup returns a probe below its total (R171). -/
theorem lookupEffect_result {s : State} {ft : Nat} (hr : s.rangeOk) (h1 : 1 ≤ ft) (h2 : ft ≤ 32768) :
    (lookupEffect s ft).2.toNat < ft :=
  result_lt (probe_lt hr h1 h2)

/-- A completed table command returns a symbol of its alphabet (R231, R233). -/
theorem icdfTable_result {i : Instr} {s : State} {tb n nsyms ft : Nat} (h : i.icdfTable = some (tb, n, nsyms, ft))
    (hw : i.wellFormed = true) (hfault : s.fault = false) (hr : s.rangeOk)
    (hready : s.ready = true) (hc : firstFault (commandChecks i s) = none) :
    (commandEffect i s).2.toNat < nsyms := by
  obtain ⟨hn, hnsyms⟩ := icdfTable_shape h hw
  obtain ⟨hneeds, -, heffect, -, hrange⟩ := icdfTable_command h s
  have hi := operandsInRange_of_checks hc
  obtain ⟨h1, h2⟩ := hrange hi
  rw [firstFault_icdfTable h ⟨hfault, hready, idle_of_checks hneeds hc⟩ hi, firstFault_eq_none] at hc
  have hmem : (!icdfTerminated (icdfEntry s .terminator tb n) nsyms, .icdfTableNonconforming) ∈
      icdfChecks s tb n nsyms ft := by simp [icdfChecks]
  have hend : icdfTerminated (icdfEntry s .terminator tb n) nsyms = true := by simpa using hc _ hmem
  rw [heffect]
  exact result_lt (icdfSymbol_lt hn hnsyms ((icdfTerminated_iff hn).mp hend) (probe_lt hr h1 h2))

/-- DECODE_UINT returns a value below its total: a direct one is a probe, and a split one is clamped (R260, R262). -/
theorem uintValue_lt {s : State} {ft : Nat} (hr : s.rangeOk) (h1 : 1 ≤ ft) : (uintValue s ft).2 < ft := by
  rcases uintValue_cases s ft with ⟨hdirect, e⟩ | ⟨-, hle, e⟩ | ⟨-, -, e⟩ <;> rw [e]
  · exact probe_lt hr h1 (by omega)
  · omega
  · exact Nat.sub_lt h1 Nat.one_pos

/-- Settles O9: the response is OK, so the value is the effect's, and each kind of effect bounds its own. -/
theorem returnValuesInRange : Obligations.ReturnValuesInRange := by
  unfold Obligations.ReturnValuesInRange
  intro i s t r hw hinv hexec hresp
  rcases exec_cases hexec with ⟨-, rfl⟩ | ⟨-, c, -, rfl⟩ | ⟨hfault, hc, -, rfl⟩
  · simp at hresp
  · simp at hresp
  obtain rfl : (commandEffect i s).2 = r := by
    rw [State.respond_responses, (commandEffect_ports i s).1] at hresp
    simpa using hresp
  have hready : (∀ n, i ≠ .init n) → s.ready = true := fun hi => ready_of_checks hi hc
  have hr : s.ready = true → s.rangeOk := fun h => by
    obtain ⟨⟨hrange, -⟩, -⟩ := hinv.1 h
    exact hrange
  have hi := operandsInRange_of_checks hc
  have hlookup : ∀ ft, i.lookupTotal = some ft → (commandEffect i s).2.toNat < ft := fun ft htotal => by
    obtain ⟨h1, h2⟩ := lookupTotal_range htotal hi
    rw [(lookup_effect htotal s).2]
    exact lookupEffect_result (hr (hready (by rintro n rfl; cases htotal))) h1 h2
  cases i with
  | init _ | tell | update _ _ _ => rfl
  | decode _ | decodeNorm _ | decodeBinNorm | decodeBin _ => exact hlookup _ rfl
  | decodeBitLogp logp =>
    rcases bitEffect_cases s logp.toNat with ⟨-, e⟩ | ⟨-, e⟩
    · exact .inr (congrArg Prod.snd e)
    · exact .inl (congrArg Prod.snd e)
  | decodeIcdfFt _ _ _ | decodeIcdf16Ft _ _ _ | decodeIcdf _ _ _ | decodeIcdf16 _ _ _ =>
    exact icdfTable_result rfl hw hfault (hr (hready nofun)) (hready nofun) hc
  | decodeUint ft => exact result_lt (uintValue_lt (hr (hready nofun)) hi)
  | decodeBits nbits => exact result_lt (rawBits_lt s nbits.toNat)

end Sys2Proof.Machine
end

