-- ==== Sys2Proof/Proofs/InitAndRenormalize.lean ====
section
/-! PROOFS. INIT and TELL, `Refill`, the renormalization shift and `Renormalize`
(spec/40_init_and_renormalization.md R141 to R149). -/

namespace Sys2Proof.Machine

/-! ## TELL and INIT -/

/-- Settles O25: READY is TELL's only check, and its effect leaves the state alone. -/
theorem tellCompletes : Obligations.TellCompletes := by
  unfold Obligations.TellCompletes
  intro s hfault hready
  exact exec_completes hfault rfl (by simp [commandChecks, checkReady, hready])

/-- INIT completes in every phase, having no check (R141). -/
theorem exec_init {s : State} (storage : BitVec 32) (hfault : s.fault = false) :
    exec (.init storage) s = .next ((s.initialise storage).respond .ok 0) :=
  exec_completes hfault rfl rfl

/-- INIT's refill in closed form: the first three bytes of the buffer, those there are, one below the other (R141,
R143). -/
theorem refill_startStream (s : State) (storage : BitVec 32) :
    refill (s.startStream storage) 0 (-15) 0 =
      ((if 0 < storage.toNat then (s.stream.read 0).toNat * 2 ^ 23 else 0) +
          (if 1 < storage.toNat then (s.stream.read 1).toNat * 2 ^ 15 else 0) +
          (if 2 < storage.toNat then (s.stream.read 2).toNat * 2 ^ 7 else 0),
        if 4 ≤ storage.toNat then 9 else 0x4000, min storage.toNat 3) := by
  have hread : ∀ j, (s.startStream storage).streamRead .forward j = s.stream.read j := fun _ =>
    streamRead_unchanged (s := s.startStream storage) List.not_mem_nil _
  rw [refill_closed _ (by decide) (Nat.dvd_zero _) (Nat.zero_le _)]
  simp only [State.startStream_storage, hread, refillBytes, Config.lotsOfBits, Nat.zero_add, Nat.sub_zero]
  generalize storage.toNat = n
  rcases (by omega : n = 0 ∨ n = 1 ∨ n = 2 ∨ n = 3 ∨ 4 ≤ n) with rfl | rfl | rfl | rfl | hn
  · simp
  · simp
  · simp [Finset.sum_range_succ]
  · simp [Finset.sum_range_succ]
  · have hthree : min ((16 - (-15 : Int)) / 8).toNat n = 3 := by omega
    obtain ⟨h0, h1, h2, h3⟩ : 0 < n ∧ 1 < n ∧ 2 < n ∧ 3 < n := by omega
    rw [hthree]
    simp [Finset.sum_range_succ, hn, h0, h1, h2, h3, h3.le]

/-- Settles O23: INIT sets the registers outright but for those of its refill. -/
theorem initCompletes : Obligations.InitCompletes := by
  unfold Obligations.InitCompletes
  intro s storage hfault
  have hcount : (BitVec.ofInt 16 (if 4 ≤ storage.toNat then 9 else 0x4000)) =
      if 4 ≤ storage.toNat then 9 else 0x4000 := by split <;> rfl
  rw [exec_init storage hfault, State.initialise, refill_startStream, State.setWindow, hcount]
  rfl

/-! ## `Refill` -/

/-- Settles O26: the closed form of `Refill`, with the bounds of what it leaves. -/
theorem refillPlacesBytes : Obligations.RefillPlacesBytes := by
  unfold Obligations.RefillPlacesBytes
  intro s val fwd cnt hlow hhigh hval hclear hfwd
  have hz : 2 ^ (16 - cnt).toNat ∣ val := Nat.dvd_of_mod_eq_zero hclear
  have hclosed := refill_closed s (by omega) hz hfwd
  obtain ⟨-, hlt, -⟩ := refill_value s val cnt fwd (by omega) hz
  have hcount := refill_count s val cnt fwd (by omega)
  have hroom : val + 2 ^ (16 - cnt).toNat ≤ 2 ^ 32 := by
    have hdvd : 2 ^ (16 - cnt).toNat ∣ 2 ^ 32 := Nat.pow_dvd_pow 2 (by omega)
    have := Nat.le_of_dvd (by omega) (Nat.dvd_sub hdvd hz)
    omega
  have hvalue := congrArg Prod.fst hclosed
  have hcursor : (refill s val cnt fwd).2.2 = fwd + refillBytes cnt (s.storage.toNat - fwd) :=
    congrArg (fun r => r.2.2) hclosed
  have hthree : refillBytes cnt (s.storage.toNat - fwd) ≤ 3 := by simp only [refillBytes]; omega
  have hleft : refillBytes cnt (s.storage.toNat - fwd) ≤ s.storage.toNat - fwd := Nat.min_le_right _ _
  have hL : (Config.lotsOfBits : Int) = 0x4000 := rfl
  refine ⟨hvalue, hlt.trans_le hroom, hcursor, by omega, by omega, fun hall => ?exhausted, fun hrest => ?full⟩
  case exhausted => omega
  case full => omega

/-! ## The renormalization shift -/

/-- Settles O27: the shift is 16 less the bit length, and one shift alone reaches the interval. -/
theorem renormalizationShift : Obligations.RenormalizationShift := by
  unfold Obligations.RenormalizationShift
  intro rng h1 h2
  obtain ⟨hle, hlow, hhigh⟩ := renormShift_spec h1 h2
  have hlog : ilog rng = Nat.log 2 rng + 1 := by
    rw [ilog, if_neg (by omega), Nat.log2_eq_log_two]
  rw [Nat.shiftLeft_eq] at hlow hhigh
  refine ⟨rfl, by rw [renormShift, hlog]; omega, hlow, hhigh, hle, fun d hd1 hd2 => ?_, renormShift_normal⟩
  rw [← Nat.shiftLeft_eq] at hd1 hd2
  exact (renormShift_unique hd1 hd2).symm

/-! ## `Renormalize` -/

/-- `Renormalize` takes the window it is given, not the one in VALUE (R146). -/
theorem renormalize_setValue (s : State) (v : BitVec 32) (val rng : Nat) :
    { s with value := v }.renormalize val rng = s.renormalize val rng := by
  have h : ∀ x cnt fwd, refillIfShort { s with value := v } x cnt fwd = refillIfShort s x cnt fwd :=
    refillIfShort_congr (s := { s with value := v }) (t := s) rfl (fun _ => rfl)
  simp only [State.renormalize, h]
  rfl

/-- With a normal range and a count that is not negative `Renormalize` neither shifts nor reads (R147). -/
theorem renormalize_normal {s : State} {rng : Nat} (val : Nat) (hrng : 32768 ≤ rng) (hcount : 0 ≤ s.count.toInt) :
    s.renormalize val rng = { s with value := BitVec.ofNat 32 val, range := BitVec.ofNat 16 rng } := by
  simp [State.renormalize, renormShift_normal hrng, refillIfShort, not_lt.mpr hcount, State.setWindow, State.setRange]

/-- Settles O28: with VALUE out of the way the state's count is legal, and `Renormalize` keeps what R49 asks. -/
theorem renormalizeRestoresInvariants : Obligations.RenormalizeRestoresInvariants := by
  unfold Obligations.RenormalizeRestoresInvariants
  intro s val rng h1 h2 hpos hlow hhigh hloaded hcounting hfwd
  have hz : lowClear val s.count.toInt :=
    ⟨fun h => Nat.dvd_of_mod_eq_zero (hloaded h), fun h => Nat.dvd_of_mod_eq_zero (hcounting h)⟩
  have hcount : { s with value := 0 }.countOk := ⟨hlow, hhigh, fun _ => Nat.zero_mod _⟩
  have hkeeps := renormalize_keeps h1 h2 (by rwa [Nat.shiftRight_eq_div_pow]) hcount hz hfwd
  have hclosed := renormalize_renormalized h1 h2 (by omega) hcount hz hfwd
  rw [renormalize_setValue] at hkeeps hclosed
  obtain ⟨⟨hrange, hposition⟩, hwindow, ⟨hnonneg, -⟩, -⟩ := hkeeps
  rw [State.position, Nat.shiftRight_eq_div_pow] at hposition
  exact ⟨hrange, hposition, hnonneg, hwindow, hclosed, fun hrng => renormalize_normal val hrng hlow⟩

end Sys2Proof.Machine
end

