-- ==== Sys2Proof/Proofs/ZeroBytes.lean ====
section
/-! PROOFS. Zero bytes around the buffer change no response: two runs of one command sequence side by side
(spec/40_init_and_renormalization.md R150). -/

namespace Sys2Proof.Machine

/-! ## Two runs side by side -/

/-- A sequence of which the first instruction completes its step goes on with the rest. -/
theorem runInstrs_cons {i : Instr} {s t : State} (h : exec i s = .next t) (is : List Instr) :
    runInstrs (i :: is) s = runInstrs is t := by
  simp only [runInstrs, h]

/-- The first instruction of a sequence that runs through completes its step. -/
theorem runInstrs_cons_some {i : Instr} {is : List Instr} {s t : State} (h : runInstrs (i :: is) s = some t) :
    ∃ u, exec i s = .next u ∧ runInstrs is u = some t := by
  cases he : exec i s with
  | next u => exact ⟨u, rfl, runInstrs_cons he is ▸ h⟩
  | fault r => simp [runInstrs, he] at h
  | refused r => simp [runInstrs, he] at h

/-- A relation of two states that each instruction of a sequence carries over is carried over by the sequence. -/
theorem runInstrs_simulation {R : State → State → Prop} {is : List Instr}
    (hstep : ∀ i ∈ is, ∀ s s' t, R s s' → exec i s = .next t → ∃ t', exec i s' = .next t' ∧ R t t')
    {s s' t : State} (hR : R s s') (h : runInstrs is s = some t) : ∃ t', runInstrs is s' = some t' ∧ R t t' := by
  induction is generalizing s s' with
  | nil =>
    cases h
    exact ⟨s', rfl, hR⟩
  | cons i is ih =>
    obtain ⟨u, hu, hrest⟩ := runInstrs_cons_some h
    obtain ⟨u', hu', hR'⟩ := hstep i List.mem_cons_self s s' u hR hu
    rw [runInstrs_cons hu']
    exact ih (fun j hj => hstep j (List.mem_cons_of_mem _ hj)) hR' hrest

/-- Two runs that start with an INIT each, when a relation holds after the two and the rest of the sequence carries it
over. -/
theorem runInstrs_init_simulation {R : State → State → Prop} {is : List Instr}
    (hstep : ∀ i ∈ is, ∀ s s' t, R s s' → exec i s = .next t → ∃ t', exec i s' = .next t' ∧ R t t')
    {s s' t : State} {storage storage' : BitVec 32} (hfault : s.fault = false) (hfault' : s'.fault = false)
    (hR : R ((s.initialise storage).respond .ok 0) ((s'.initialise storage').respond .ok 0))
    (h : runInstrs (.init storage :: is) s = some t) :
    ∃ t', runInstrs (.init storage' :: is) s' = some t' ∧ R t t' := by
  rw [runInstrs_cons (exec_init storage hfault)] at h
  rw [runInstrs_cons (exec_init storage' hfault')]
  exact runInstrs_simulation hstep hR h

/-! ## Zero bytes after the buffer: the state but for the buffer and the front cursor -/

/-- The state with another buffer, and another count and cursor in it: all in which a padded run differs (R150). -/
def State.withBuffer (s : State) (m : Memory) (storage : BitVec 32) (count : BitVec 16) (fwd : BitVec 32) : State :=
  { s with stream := m, storage := storage, count := count, fwdOffset := fwd }

/-- `t` is at the same point on a padded buffer as `s` on its own. -/
structure PaddedRun (s t : State) : Prop where
  buffer : PaddedBuffer s t
  cursors : cursorsAgree s s.count.toInt t.count.toInt s.fwdOffset.toNat t.fwdOffset.toNat
  others : t = s.withBuffer t.stream t.storage t.count t.fwdOffset

/-- No check of a command depends on the buffer or the front cursor. -/
theorem commandChecks_withBuffer (i : Instr) (s : State) (m : Memory) (n : BitVec 32) (c : BitVec 16) (f : BitVec 32) :
    commandChecks i (s.withBuffer m n c f) = commandChecks i s := by
  cases i <;> rfl

/-- Whether a command has a meaning does not depend on the buffer or the front cursor. -/
theorem commandDefined_withBuffer (i : Instr) (s : State) (m : Memory) (n : BitVec 32) (c : BitVec 16) (f : BitVec 32) :
    commandDefined i (s.withBuffer m n c f) = commandDefined i s := by
  cases i <;> rfl

/-- What does not depend on the buffer and the front cursor is the same in both states of a padded run. -/
theorem PaddedRun.congr {α : Type} {s t : State} (h : PaddedRun s t) (f : State → α)
    (hf : ∀ s m n c g, f (State.withBuffer s m n c g) = f s) : f t = f s := by
  rw [h.others]
  exact hf ..

/-- An update of the state that neither reads nor writes the buffer and the front cursor carries a padded run over:
being the same on every buffer, it keeps the state's own. -/
theorem PaddedRun.map {s t : State} (h : PaddedRun s t) (f : State → State)
    (hcomm : ∀ s m n c g, f (State.withBuffer s m n c g) = (f s).withBuffer m n c g)
    (hmarks : ∀ s, (f s).streamChanged = s.streamChanged) : PaddedRun (f s) (f t) := by
  have hkeep : ∀ s, (f s).stream = s.stream ∧ (f s).storage = s.storage ∧ (f s).count = s.count ∧
      (f s).fwdOffset = s.fwdOffset := fun s => by
    have hown : f s = (f s).withBuffer s.stream s.storage s.count s.fwdOffset := hcomm s ..
    exact ⟨(congrArg State.stream hown :), (congrArg State.storage hown :), (congrArg State.count hown :),
      (congrArg State.fwdOffset hown :)⟩
  obtain ⟨⟨hsame, hsame', hlonger, hbytes, hzeros⟩, hcursors, hothers⟩ := h
  obtain ⟨estream, estorage, ecount, efwd⟩ := hkeep s
  obtain ⟨estream', estorage', ecount', efwd'⟩ := hkeep t
  refine ⟨⟨(hmarks s).trans hsame, (hmarks t).trans hsame', ?_, ?_, ?_⟩, ?_, ?_⟩
  · rwa [estorage, estorage']
  · rwa [estorage, estream, estream']
  · rwa [estorage, estorage', estream']
  · rwa [cursorsAgree, ecount, ecount', efwd, efwd', estorage]
  · rw [estream', estorage', ecount', efwd', ← hcomm, ← hothers]

/-- Windows of the same value, with counts and cursors that agree, carry a padded run on. -/
theorem setWindow_padded {s t : State} {w w' : Nat × Int × Nat} (hbuffer : PaddedBuffer s t)
    (hothers : t = s.withBuffer t.stream t.storage t.count t.fwdOffset) (hvalue : w'.1 = w.1)
    (hcursors : cursorsAgree s w.2.1 w'.2.1 w.2.2 w'.2.2) (hfwd : w.2.2 < 2 ^ 32) (hfwd' : w'.2.2 < 2 ^ 32) :
    PaddedRun (s.setWindow w) (t.setWindow w') := by
  obtain ⟨hsame, hsame', hlonger, hbytes, hzeros⟩ := hbuffer
  refine ⟨⟨hsame, hsame', hlonger, hbytes, hzeros⟩, ?_, ?_⟩
  · simp only [cursorsAgree, State.setWindow_count, State.setWindow_fwdOffset, State.setWindow_storage,
      BitVec.toNat_ofNat, Nat.mod_eq_of_lt hfwd, Nat.mod_eq_of_lt hfwd']
    rcases hcursors with ⟨ecount, efwd⟩ | hpast
    · exact .inl ⟨by rw [ecount], efwd⟩
    · exact .inr hpast
  · rw [hothers, State.setWindow, hvalue]
    rfl

/-- `Renormalize`'s refill leaves a cursor that fits FWD_OFFSET. -/
theorem refillIfShort_fwd_lt (s : State) (val : Nat) (cnt : Int) :
    (refillIfShort s val cnt s.fwdOffset.toNat).2.2 < 2 ^ 32 := by
  have hF := s.fwdOffset.isLt
  have hS := s.storage.isLt
  rw [refillIfShort]
  split
  · obtain ⟨-, hle⟩ := refill_cursor s val cnt s.fwdOffset.toNat
    omega
  · exact hF

/-- Counts that agree still do after the same shift. -/
theorem cursorsAgree_sub {s : State} {cnt cnt' : Int} {fwd fwd' : Nat} (h : cursorsAgree s cnt cnt' fwd fwd') (d : Int) :
    cursorsAgree s (cnt - d) (cnt' - d) fwd fwd' := by
  rcases h with ⟨rfl, rfl⟩ | h
  · exact .inl ⟨rfl, rfl⟩
  · exact .inr h

/-- Narrowing to one sub-range carries a padded run over (R146, R150). -/
theorem PaddedRun.narrowTo {s t : State} (h : PaddedRun s t) (uv : Nat × Nat) :
    PaddedRun (s.narrowTo uv) (t.narrowTo uv) := by
  have hvalue : t.value = s.value := by rw [h.others]; rfl
  obtain ⟨ewindow, hcursors⟩ := refillIfShort_padded h.buffer
    ((s.value.toNat - uv.1 <<< 16) <<< renormShift (uv.2 - uv.1)) (cursorsAgree_sub h.cursors (renormShift (uv.2 - uv.1)))
  simp only [State.narrowTo, State.renormalize, hvalue]
  exact (setWindow_padded h.buffer h.others ewindow hcursors (refillIfShort_fwd_lt s _ _)
    (refillIfShort_fwd_lt t _ _)).map (State.setRange · _ _) (fun _ _ _ _ _ => rfl) (fun _ => rfl)

/-- Narrowing to a sub-range that does not depend on the buffer carries a padded run over. -/
theorem PaddedRun.narrowTo_range {s t : State} (h : PaddedRun s t) (range : State → Nat × Nat)
    (hrange : ∀ s m n c g, range (State.withBuffer s m n c g) = range s) :
    PaddedRun (s.narrowTo (range s)) (t.narrowTo (range t)) :=
  (h.congr range hrange).symm ▸ h.narrowTo (range s)

/-! ## Zero bytes after the buffer: the commands -/

/-- INIT on each of the two buffers starts a padded run (R141, R150). -/
theorem initialise_padded {s s' : State} {storage padded : BitVec 32} (hs : s' = { s with stream := s'.stream })
    (hlonger : storage.toNat ≤ padded.toNat) (hbytes : ∀ i, i < storage.toNat → s'.stream.read i = s.stream.read i)
    (hzeros : ∀ i, storage.toNat ≤ i → i < padded.toNat → s'.stream.read i = 0) :
    PaddedRun (s.initialise storage) (s'.initialise padded) := by
  have hbuffer : PaddedBuffer (s.startStream storage) (s'.startStream padded) := ⟨rfl, rfl, hlonger, hbytes, hzeros⟩
  obtain ⟨ewindow, hcursors⟩ := refill_padded hbuffer 0 (-15) 0
  obtain ⟨-, hfwd⟩ := refill_cursor (s.startStream storage) 0 (-15) 0
  obtain ⟨-, hfwd'⟩ := refill_cursor (s'.startStream padded) 0 (-15) 0
  rw [Nat.zero_max] at hfwd hfwd'
  refine setWindow_padded hbuffer ?_ ewindow hcursors (hfwd.trans_lt storage.isLt) (hfwd'.trans_lt padded.isLt)
  rw [hs]
  rfl

/-- DECODE_UINT of a total that needs no raw bits is one uniform symbol (R260). -/
theorem uintValue_direct (s : State) {ft : Nat} (h : ft ≤ 256) : uintValue s ft = uniformSymbol s ft := by
  rcases uintValue_cases s ft with ⟨-, e⟩ | ⟨hsplit, -⟩ | ⟨hsplit, -⟩
  · exact e
  · omega
  · omega

/-- A command that reads no raw bits returns the same on both buffers, and carries a padded run over. -/
theorem commandEffect_padded {s t : State} {i : Instr} (h : PaddedRun s t) (hraw : i.readsRawBits = false)
    (hinit : ∀ n, i ≠ .init n) :
    (commandEffect i t).2 = (commandEffect i s).2 ∧ PaddedRun (commandEffect i s).1 (commandEffect i t).1 := by
  have hlookup : ∀ ft, (lookupEffect t ft).2 = (lookupEffect s ft).2 ∧
      PaddedRun (lookupEffect s ft).1 (lookupEffect t ft).1 := fun ft =>
    ⟨h.congr (fun s => (lookupEffect s ft).2) (fun _ _ _ _ _ => rfl),
      h.map (fun s => (lookupEffect s ft).1) (fun _ _ _ _ _ => rfl) (fun _ => rfl)⟩
  have hicdf : ∀ tb n nsyms ft, (icdfEffect t tb n nsyms ft).2 = (icdfEffect s tb n nsyms ft).2 ∧
      PaddedRun (icdfEffect s tb n nsyms ft).1 (icdfEffect t tb n nsyms ft).1 := fun tb n nsyms ft =>
    ⟨h.congr (fun s => (icdfEffect s tb n nsyms ft).2) (fun _ _ _ _ _ => rfl),
      h.narrowTo_range (fun s => icdfRange s (icdfEntry s .lowBound tb n) (icdfEntry s .highBound tb n) ft
        (icdfSymbol s tb n nsyms ft)) (fun _ _ _ _ _ => rfl)⟩
  cases i with
  | init n => exact absurd rfl (hinit n)
  | tell => exact ⟨h.congr State.totalBits (fun _ _ _ _ _ => rfl), h⟩
  | decode _ | decodeNorm _ | decodeBinNorm | decodeBin _ => exact hlookup _
  | update fl fh ft =>
    have hclear : PaddedRun s.clearPending t.clearPending :=
      h.map State.clearPending (fun _ _ _ _ _ => rfl) (fun _ => rfl)
    exact ⟨rfl, hclear.narrowTo_range (updateRange · fl.toNat fh.toNat ft.toNat) (fun _ _ _ _ _ => rfl)⟩
  | decodeBitLogp logp =>
    have esplit := h.congr (bitSplit · logp.toNat) (fun _ _ _ _ _ => rfl)
    have eposition := h.congr State.position (fun _ _ _ _ _ => rfl)
    have erange := h.congr State.range (fun _ _ _ _ _ => rfl)
    simp only [commandEffect, bitEffect, esplit, eposition, erange]
    split
    · exact ⟨rfl, h.narrowTo _⟩
    · exact ⟨rfl, h.narrowTo _⟩
  | decodeIcdfFt _ _ _ | decodeIcdf16Ft _ _ _ | decodeIcdf _ _ _ | decodeIcdf16 _ _ _ => exact hicdf _ _ _ _
  | decodeUint ft =>
    have hdirect : ft.toNat ≤ 256 := Nat.le_of_not_lt (of_decide_eq_false hraw)
    simp only [commandEffect, withResult, uintValue_direct _ hdirect]
    exact ⟨h.congr (fun s => BitVec.ofNat 32 (uniformSymbol s ft.toNat).2) (fun _ _ _ _ _ => rfl),
      h.narrowTo_range (fun s => narrow s.range.toNat (lookup s.range.toNat s.position ft.toNat).1
        ((lookup s.range.toNat s.position ft.toNat).1 + 1) ft.toNat (lookup s.range.toNat s.position ft.toNat).2)
        (fun _ _ _ _ _ => rfl)⟩
  | decodeBits nbits => simp [Instr.readsRawBits] at hraw

/-- One more response carries a padded run over. -/
theorem PaddedRun.respond {s t : State} (h : PaddedRun s t) (c : StatusCode) (r : BitVec 32) :
    PaddedRun (s.respond c r) (t.respond c r) :=
  h.map (State.respond · c r) (fun _ _ _ _ _ => rfl) (fun _ => rfl)

/-- Whatever a command that reads no raw bits answers, it answers on both buffers (R150). -/
theorem exec_padded {i : Instr} (hraw : i.readsRawBits = false) (hinit : ∀ n, i ≠ .init n) {s s' t : State}
    (h : PaddedRun s s') (ht : exec i s = .next t) : ∃ t', exec i s' = .next t' ∧ PaddedRun t t' := by
  have efault := h.congr State.fault (fun _ _ _ _ _ => rfl)
  have echecks := h.congr (commandChecks i) (commandChecks_withBuffer i)
  have edefined := h.congr (commandDefined i) (commandDefined_withBuffer i)
  rcases exec_cases ht with ⟨hf, rfl⟩ | ⟨hf, c, hc, rfl⟩ | ⟨hf, hc, hd, rfl⟩
  · exact ⟨_, exec_faulted (efault.trans hf), h.respond .refused 0⟩
  · exact ⟨_, exec_raises (efault.trans hf) (echecks ▸ hc), h.map (State.enterFault · c (encode i))
      (fun _ _ _ _ _ => rfl) (fun _ => rfl)⟩
  · obtain ⟨eresult, heffect⟩ := commandEffect_padded h hraw hinit
    refine ⟨_, exec_completes (efault.trans hf) (edefined.trans hd) (echecks ▸ hc), ?_⟩
    rw [eresult]
    exact heffect.respond .ok _

/-- Settles O56: INIT starts a padded run, each command carries it over, and it has the responses of the plain one. -/
theorem zeroPaddingInvisible : Obligations.ZeroPaddingInvisible := by
  unfold Obligations.ZeroPaddingInvisible
  intro s s' t storage padded is hfault hs hlonger hbytes hzeros his hrun
  have hfault' : s'.fault = false := by rw [hs]; exact hfault
  have hstart := (initialise_padded hs hlonger hbytes hzeros).respond .ok 0
  have hstep : ∀ i ∈ is, ∀ s s' t, PaddedRun s s' → exec i s = .next t →
      ∃ t', exec i s' = .next t' ∧ PaddedRun t t' := by
    intro i hi s s' t h ht
    obtain ⟨hraw, hinit⟩ := his i hi
    exact exec_padded hraw hinit h ht
  obtain ⟨t', hrun', hpadded⟩ := runInstrs_init_simulation hstep hfault hfault' hstart hrun
  exact ⟨t', hrun', hpadded.congr State.responses (fun _ _ _ _ _ => rfl)⟩

/-! ## Zero bytes before the buffer -/

/-- `t` is at the same point of the raw bits on a prefixed buffer as `s` on its own: the raw bits to come are the same,
and so is all that DECODE_BITS answers from beside them. -/
structure PrefixedRun (s t : State) : Prop where
  fault : t.fault = s.fault
  ready : t.ready = s.ready
  responses : t.responses = s.responses
  back : s.backOk
  back' : t.backOk
  bits : ∀ j, rawBit t j = rawBit s j

/-- One more response carries a prefixed run over. -/
theorem PrefixedRun.respond {s t : State} (h : PrefixedRun s t) (c : StatusCode) (r : BitVec 32) :
    PrefixedRun (s.respond c r) (t.respond c r) :=
  { h with responses := congrArg (· ++ _) h.responses }

/-- The raw bits of a state that holds none in its reservoir and stands at the back of its buffer (R282). -/
theorem rawBit_of_empty {s : State} (hend : s.endBits = 0) (hback : s.bwdOffset = 0) (hsame : s.streamChanged = [])
    (j : Nat) :
    rawBit s j = (decide (j / 8 < s.storage.toNat) && (s.stream.read (s.storage.toNat - 1 - j / 8)).getLsbD (j % 8)) := by
  have hread : ∀ i, s.streamRead .backward i = s.stream.read i := fun i =>
    streamRead_unchanged (by simp [hsame]) .backward
  by_cases h : j / 8 < s.storage.toNat <;> simp [rawBit, reservoirBit, hend, hback, hread, h]

/-- INIT on each of the two buffers starts a prefixed run: the bytes read from the back are the same, and then zero
bytes, whose bits are those past the front of the buffer (R141, R150). -/
theorem initialise_prefixed {s s' : State} {storage padded : BitVec 32} (hs : s' = { s with stream := s'.stream })
    (hlonger : storage.toNat ≤ padded.toNat)
    (hbytes : ∀ i, i < storage.toNat → s'.stream.read (padded.toNat - storage.toNat + i) = s.stream.read i)
    (hzeros : ∀ i, i < padded.toNat - storage.toNat → s'.stream.read i = 0) :
    PrefixedRun (s.initialise storage) (s'.initialise padded) := by
  have hback : ∀ (s : State) (n : BitVec 32), (s.initialise n).backOk := fun s n => by
    obtain ⟨-, hback, -⟩ := (inv_iff_parts rfl).mp (initialise_inv s n)
    exact hback
  refine ⟨by rw [hs]; rfl, rfl, by rw [hs]; rfl, hback s storage, hback s' padded, fun j => ?_⟩
  rw [rawBit_of_empty rfl rfl rfl, rawBit_of_empty rfl rfl rfl]
  show (decide (j / 8 < padded.toNat) && (s'.stream.read (padded.toNat - 1 - j / 8)).getLsbD (j % 8)) =
    (decide (j / 8 < storage.toNat) && (s.stream.read (storage.toNat - 1 - j / 8)).getLsbD (j % 8))
  by_cases h : j / 8 < storage.toNat
  · have hindex : padded.toNat - 1 - j / 8 = padded.toNat - storage.toNat + (storage.toNat - 1 - j / 8) := by omega
    rw [hindex, hbytes _ (by omega)]
    simp [h, h.trans_le hlonger]
  · by_cases h' : j / 8 < padded.toNat
    · rw [hzeros _ (by omega)]
      simp [h]
    · simp [h, h']

/-- Taking as many raw bits gives the same number on both buffers, and carries a prefixed run over (R280, R282). -/
theorem rawBits_prefixed {s t : State} (h : PrefixedRun s t) {n : Nat} (hn : n ≤ 25) :
    (rawBits t n).2 = (rawBits s n).2 ∧ PrefixedRun (rawBits s n).1 (rawBits t n).1 := by
  obtain ⟨efault, eready, eresponses, ⟨hclear, hbits, hcursor⟩, ⟨hclear', hbits', hcursor'⟩, ebits⟩ := h
  refine ⟨Nat.eq_of_testBit_eq fun j => ?_, efault, eready, eresponses, rawBits_keeps hn hclear hbits hcursor,
    rawBits_keeps hn hclear' hbits' hcursor', fun j => ?_⟩
  · rw [rawBits_result hn hclear, rawBits_result hn hclear', ebits]
  · rw [rawBits_rest hn hclear hcursor, rawBits_rest hn hclear' hcursor', ebits]

/-- Whatever DECODE_BITS answers, it answers on both buffers (R150). -/
theorem exec_prefixed {nbits : BitVec 16} {s s' t : State} (h : PrefixedRun s s')
    (ht : exec (.decodeBits nbits) s = .next t) : ∃ t', exec (.decodeBits nbits) s' = .next t' ∧ PrefixedRun t t' := by
  have echecks : commandChecks (.decodeBits nbits) s' = commandChecks (.decodeBits nbits) s := by
    simp only [commandChecks, checkReady, h.ready]
  rcases exec_cases ht with ⟨hf, rfl⟩ | ⟨hf, c, hc, rfl⟩ | ⟨hf, hc, -, rfl⟩
  · exact ⟨_, exec_faulted (h.fault.trans hf), h.respond .refused 0⟩
  · exact ⟨_, exec_raises (h.fault.trans hf) (echecks ▸ hc), { h.respond .fault 0 with fault := rfl }⟩
  · obtain ⟨eresult, hrest⟩ := rawBits_prefixed h (operandsInRange_of_checks hc)
    have ewithResult : (commandEffect (.decodeBits nbits) s').2 = (commandEffect (.decodeBits nbits) s).2 :=
      congrArg (BitVec.ofNat 32) eresult
    refine ⟨_, exec_completes (h.fault.trans hf) rfl (echecks ▸ hc), ?_⟩
    rw [ewithResult]
    exact hrest.respond .ok _

/-- Settles O57: INIT starts a prefixed run, and each DECODE_BITS carries it over. -/
theorem zeroPrefixInvisible : Obligations.ZeroPrefixInvisible := by
  unfold Obligations.ZeroPrefixInvisible
  intro s s' t storage padded widths hfault hs hlonger hbytes hzeros hrun
  have hfault' : s'.fault = false := by rw [hs]; exact hfault
  have hstart := (initialise_prefixed hs hlonger hbytes hzeros).respond .ok 0
  have hstep : ∀ i ∈ widths.map Instr.decodeBits, ∀ s s' t, PrefixedRun s s' → exec i s = .next t →
      ∃ t', exec i s' = .next t' ∧ PrefixedRun t t' := by
    intro i hi s s' t h ht
    obtain ⟨nbits, -, rfl⟩ := List.mem_map.mp hi
    exact exec_prefixed h ht
  obtain ⟨t', hrun', hprefixed⟩ := runInstrs_init_simulation hstep hfault hfault' hstart hrun
  exact ⟨t', hrun', hprefixed.responses⟩

end Sys2Proof.Machine
end

