-- ==== Sys2Proof/Proofs/LookupCommands.lean ====
section
/-! PROOFS. `Lookup`, the computational form of its shift and its properties, and the four lookup commands as one lookup
(spec/41_frequency_lookup.md R170 to R177). -/

namespace Sys2Proof.Machine

/-! ## `Lookup` -/

/-- The estimate `15 − ilog(ft − 1)` of the lookup shift brings a total above 16384, and not above 32768 (R170). -/
theorem scaledByEstimate_bounds {ft : Nat} (h1 : 1 ≤ ft) (h2 : ft ≤ 32768) :
    16384 < ft * 2 ^ (15 - ilog (ft - 1)) ∧ ft * 2 ^ (15 - ilog (ft - 1)) ≤ 32768 := by
  obtain rfl | hft : ft = 1 ∨ 2 ≤ ft := by omega
  · decide
  · obtain ⟨hpos, hlow, hhigh⟩ := ilog_bounds (x := ft - 1) (by omega)
    have hlen : ilog (ft - 1) ≤ 15 := ilog_le (by omega)
    generalize ilog (ft - 1) = n at *
    have hscale : 0 < 2 ^ (15 - n) := Nat.two_pow_pos _
    constructor
    · calc 16384 = 2 ^ (n - 1) * 2 ^ (15 - n) := by rw [← Nat.pow_add, show n - 1 + (15 - n) = 14 by omega]
        _ < ft * 2 ^ (15 - n) := Nat.mul_lt_mul_of_pos_right (by omega) hscale
    · calc ft * 2 ^ (15 - n) ≤ 2 ^ n * 2 ^ (15 - n) := Nat.mul_le_mul_right _ (by omega)
        _ = 32768 := by rw [← Nat.pow_add, show n + (15 - n) = 15 by omega]

/-- In a normal range the lookup shift is its estimate, or one more where the doubled total still fits (R170). -/
theorem lookupShift_eq_estimate {r ft : Nat} (hr : 32768 ≤ r) (hr' : r < 65536) (h1 : 1 ≤ ft) (h2 : ft ≤ 32768) :
    lookupShift r ft = if ft * 2 ^ (15 - ilog (ft - 1)) ≤ r - ft * 2 ^ (15 - ilog (ft - 1))
      then 15 - ilog (ft - 1) + 1 else 15 - ilog (ft - 1) := by
  obtain ⟨hlow, hhigh⟩ := scaledByEstimate_bounds h1 h2
  generalize 15 - ilog (ft - 1) = k at *
  split
  · next hfits =>
    have hdouble : ft <<< (k + 1) = 2 * (ft * 2 ^ k) := by rw [Nat.shiftLeft_eq, Nat.pow_succ]; ring
    exact lookupShift_unique hr' (by omega) (by omega)
  · next hover =>
    rw [← Nat.shiftLeft_eq] at hlow hhigh hover
    exact lookupShift_unique hr' (by omega) (by omega)

/-- Settles O29: the shift brings the total between half the range and the range, which only one shift does. -/
theorem lookupFunction : Obligations.LookupFunction := by
  unfold Obligations.LookupFunction
  intro r c ft hr hr' _ h1 h2
  exact ⟨lookup_isLookup c h1 (h2.trans hr) hr', lookupShift_eq_estimate hr hr' h1 h2⟩

/-- Settles O30: `g` on the scaled total and on the unscaled probe, with the bounds of the shift. -/
theorem lookupProperties : Obligations.LookupProperties := by
  unfold Obligations.LookupProperties
  intro r c ft hr hr' hc h1 h2
  obtain ⟨hshift, hle, hlt⟩ := lookupShift_spec h1 (h2.trans hr) hr'
  obtain ⟨-, -, -, hprobe⟩ := lookup_spec h1 (h2.trans hr) hr' hc
  have hquotient := lookupQuotient_lt hle hlt hc
  have htotal := spread_total hle hlt
  obtain ⟨hbelow, habove⟩ := spread_quotient c (r - ft <<< lookupShift r ft)
  have hone : lookupShift r ft = 15 → ft = 1 := fun h15 => by
    rw [h15, Nat.shiftLeft_eq] at hle
    omega
  simp only [← Nat.shiftLeft_eq, ← Nat.shiftRight_eq_div_pow]
  exact ⟨_, _, lookupQuotient c (r - ft <<< lookupShift r ft), r - ft <<< lookupShift r ft, rfl, hshift, hone, by omega,
    by omega, hquotient, rfl, hprobe, fun _ _ => spread_lt_spread, htotal, hbelow, habove⟩

/-! ## The four lookup commands -/

/-- Settles O31: each of the four completes with the lookup of its total, which a normal range can scale. -/
theorem lookupCommandsComplete : Obligations.LookupCommandsComplete := by
  unfold Obligations.LookupCommandsComplete
  intro i s ft htotal hs hrange hi
  have ⟨hnormal, hposition⟩ := hrange
  obtain ⟨h1, h2⟩ := lookupTotal_range htotal hi
  obtain ⟨hshift, -, -, hprobe⟩ := lookup_spec h1 (h2.trans hnormal) s.range.isLt hposition
  exact ⟨_, _, lookup_isLookup s.position h1 (h2.trans hnormal) s.range.isLt, hprobe, hshift, exec_lookup htotal hs hi⟩

/-- In the idle phase lookup commands of one total write the same, whichever they are (R177). -/
theorem exec_eq_of_lookupTotal_eq {i j : Instr} {s : State} {n : Nat} (hs : s.idleReady) (hi : i.lookupTotal = some n)
    (hj : j.lookupTotal = some n) (hi' : i.operandsInRange) (hj' : j.operandsInRange) : exec i s = exec j s :=
  (exec_lookup hi hs hi').trans (exec_lookup hj hs hj').symm

/-- Settles O32: the commands of each pair have one total, and operands in range for it. -/
theorem lookupEquivalences : Obligations.LookupEquivalences := by
  unfold Obligations.LookupEquivalences
  intro s hs
  refine ⟨fun ft hlow hhigh => ?norm, fun ftb hftb => ?bin, ?binNorm⟩
  case norm => exact exec_eq_of_lookupTotal_eq hs rfl rfl ⟨hlow, hhigh⟩ ⟨by omega, hhigh⟩
  case bin =>
    have hpos : 1 ≤ 2 ^ ftb.toNat := Nat.one_le_two_pow
    have hle : 2 ^ ftb.toNat ≤ 2 ^ 14 := Nat.pow_le_pow_right Nat.two_pos hftb
    have htotal : (BitVec.ofNat 16 (2 ^ ftb.toNat)).toNat = 2 ^ ftb.toNat := Nat.mod_eq_of_lt (by omega)
    refine exec_eq_of_lookupTotal_eq hs rfl (congrArg some htotal) (show ftb.toNat ≤ 15 by omega) ?_
    rw [Instr.operandsInRange, htotal]
    omega
  case binNorm => exact exec_eq_of_lookupTotal_eq (n := 32768) hs rfl rfl (show 15 ≤ 15 by decide) trivial

end Sys2Proof.Machine
end

