-- ==== Sys2Proof/Proofs/UpdateAndBit.lean ====
section
/-! PROOFS. `Narrow` as a tiling of the range, UPDATE in the PENDING phase, and DECODE_BIT_LOGP as a lookup and the
UPDATE of its symbol (spec/42_update_and_bit.md R200 to R203). -/

namespace Sys2Proof.Machine

/-! ## `Narrow` -/

theorem scaledBound_eq_spread (r ft k x : Nat) : scaledBound r ft k x = spread (r - ft * 2 ^ k) (x * 2 ^ k) := rfl

@[simp] theorem scaledBound_zero (r ft k : Nat) : scaledBound r ft k 0 = 0 := by simp [scaledBound]

/-- The scaled bound of the total is the range, when the shift is that of the total (R201). -/
theorem scaledBound_total {r ft k : Nat} (hle : ft * 2 ^ k ≤ r) (hlt : r < 2 * (ft * 2 ^ k)) : scaledBound r ft k ft = r :=
  spread_total hle hlt

/-- A frequency's scaled bound is at most a position exactly when the frequency is at most the one the position stands
for, its quotient shifted down (R171, R201). -/
theorem scaledBound_le_iff {r ft k c x : Nat} :
    scaledBound r ft k x ≤ c ↔ x ≤ lookupQuotient c (r - ft * 2 ^ k) / 2 ^ k := by
  rw [scaledBound_eq_spread, spread_le_iff, Nat.le_div_iff_mul_le (Nat.two_pow_pos k)]

/-- `g` gives a scaled frequency below the excess two positions, and one from it on one (R201). -/
theorem spread_succ (d x : Nat) : spread d (x + 1) = spread d x + if x < d then 2 else 1 := by
  simp only [spread]
  split <;> omega

/-- Every position of the range lies in the sub-range of exactly one frequency (R201). -/
theorem existsUnique_frequency {r ft k c : Nat} (hle : ft * 2 ^ k ≤ r) (hlt : r < 2 * (ft * 2 ^ k)) (hc : c < r) :
    ∃! x, x < ft ∧ scaledBound r ft k x ≤ c ∧ c < scaledBound r ft k (x + 1) := by
  have hquotient : lookupQuotient c (r - ft * 2 ^ k) / 2 ^ k < ft :=
    (Nat.div_lt_iff_lt_mul (Nat.two_pow_pos k)).mpr (lookupQuotient_lt hle hlt hc)
  simp only [← Nat.not_le (b := c), scaledBound_le_iff]
  exact ⟨_, ⟨hquotient, Nat.le_refl _, by omega⟩, fun x ⟨_, _, _⟩ => by omega⟩

/-- Settles O33: the bounds are values of `g`, and a position's frequency is its quotient under `g`, shifted down. -/
theorem narrowTilesTheRange : Obligations.NarrowTilesTheRange := by
  unfold Obligations.NarrowTilesTheRange
  intro r ft k hle hlt
  have htotal := scaledBound_total hle hlt
  refine ⟨fun _ => rfl, fun _ _ => spread_lt_spread, htotal, spread_succ _, fun fl fh hfl hfh => ?symbol,
    fun c hc => ?owner⟩
  case symbol =>
    rw [← Nat.shiftLeft_eq] at hle hlt
    obtain ⟨hnonempty, hinside⟩ := narrow_bounds hfl hfh hle hlt
    refine ⟨narrow_eq_scaledBound r fl fh ft k, hnonempty, hinside, ?_, ?_, fun fm _ _ => rfl⟩
    · rintro rfl
      rw [narrow_eq_scaledBound, scaledBound_zero]
    · rintro rfl
      rw [narrow_eq_scaledBound, htotal]
  case owner =>
    simp only [narrow_eq_scaledBound]
    exact existsUnique_frequency hle hlt hc

/-! ## UPDATE -/

/-- The sub-range of an UPDATE holds the position exactly when its scaled bounds do (R200, R202). -/
theorem positionIn_updateRange_iff_scaledBound {s : State} {fl fh ft : Nat} :
    s.positionIn (updateRange s fl fh ft) = true ↔
      scaledBound s.range.toNat ft s.ext.toNat fl ≤ s.position ∧
        s.position < scaledBound s.range.toNat ft s.ext.toNat fh := by
  rw [updateRange, narrow_eq_scaledBound]
  exact positionIn_iff

/-- With its operands in range, an UPDATE of another total than the lookup's fails the check of the total (R202). -/
theorem firstFault_update_otherTotal {s : State} {fl fh ft : BitVec 16} (hready : s.ready = true)
    (hpending : s.pending = true) (hi : (Instr.update fl fh ft).operandsInRange) (ht : ft ≠ s.lookupFt) :
    firstFault (commandChecks (.update fl fh ft) s) = some .updateFtMismatch := by
  have hok : updateBoundsOk fl.toNat fh.toNat ft.toNat = true := updateBoundsOk_iff.mpr hi
  simp [commandChecks, checkReady, checkPending, checkOperands, hready, hpending, hok, ht]

/-- Settles O16: the checks of the total and of the interval come after the others, in this order. -/
theorem updateMismatchFaults : Obligations.UpdateMismatchFaults := by
  unfold Obligations.UpdateMismatchFaults
  intro fl fh ft s hfault hready hpending hi
  refine ⟨fun ht => exec_raises hfault (firstFault_update_otherTotal hready hpending hi ht), fun ht hout => ?_⟩
  refine exec_raises hfault (c := .updateInterval) ?_
  rw [firstFault_update hready hpending hi ht, if_neg (mt positionIn_updateRange_iff_scaledBound.mp hout)]

/-- Settles O34: the interval check passes, and the total and shift of the pending lookup fit the range. -/
theorem updateCompletes : Obligations.UpdateCompletes := by
  unfold Obligations.UpdateCompletes
  intro s fl fh ft hfault hready hpending hinv hi ht hu hv
  have ⟨_, _, hlt, hle⟩ := hi
  obtain ⟨⟨-, hwindow, hcount, hcursor⟩, -, hphase, -⟩ := (inv_iff_parts hready).mp hinv
  obtain ⟨hfit, hmax⟩ := hphase hpending
  rw [← ht] at hfit hmax
  have hchecks : firstFault (commandChecks (.update fl fh ft) s) = none := by
    rw [firstFault_update hready hpending hi ht, if_pos (positionIn_updateRange_iff_scaledBound.mpr ⟨hu, hv⟩)]
  have hexec := exec_completes hfault rfl hchecks
  have htop := (narrow_bounds hlt hle hfit hmax).2
  rw [narrow_eq_scaledBound] at htop
  have hnarrow := narrowTo_narrowed (uv := (_, _)) hu hv htop hwindow hcount hcursor
  rw [commandEffect, narrowTo_clearPending, updateRange, narrow_eq_scaledBound] at hexec
  exact ⟨_, hexec, hnarrow, rfl, fun _ => ⟨rfl, rfl⟩⟩

/-! ## DECODE_BIT_LOGP -/

/-- The total of a legal `logp` lies in 1 to 32768 (R203). -/
theorem bitTotal_range {logp : Nat} (h : logp ≤ 15) : 1 ≤ 2 ^ logp ∧ 2 ^ logp ≤ 32768 := by
  rw [← Nat.one_shiftLeft]
  exact one_shiftLeft_range h

/-- A bound of a legal total fits the field of an operand (R101, R203). -/
theorem bitBound_toNat {logp x : Nat} (h : logp ≤ 15) (hx : x ≤ 2 ^ logp) : (BitVec.ofNat 16 x).toNat = x := by
  have hmax := (bitTotal_range h).2
  exact Nat.mod_eq_of_lt (by omega)

/-- A total of `2^logp`, shifted by `15 − logp`, is 32768 (R203). -/
theorem bitTotal_scaled {logp : Nat} (h : logp ≤ 15) : 2 ^ logp * 2 ^ (15 - logp) = 32768 := by
  rw [← Nat.pow_add, Nat.add_sub_cancel' h]

/-- In a normal range `15 − logp` is the lookup shift of the total `2^logp` (R170, R203). -/
theorem lookupShift_bitTotal {r logp : Nat} (hr : 32768 ≤ r) (hr' : r < 65536) (h : logp ≤ 15) :
    lookupShift r (2 ^ logp) = 15 - logp := by
  have hscaled : 2 ^ logp <<< (15 - logp) = 32768 := by rw [Nat.shiftLeft_eq, bitTotal_scaled h]
  exact lookupShift_unique hr' (by omega) (by omega)

/-- The split point is the scaled bound between the two symbols of the total `2^logp` (R203). -/
theorem bitSplit_eq_scaledBound (s : State) (logp : Nat) :
    bitSplit s logp = scaledBound s.range.toNat (2 ^ logp) (15 - logp) (2 ^ logp - 1) := by
  rw [bitSplit, narrow_eq_scaledBound, Nat.one_shiftLeft]

/-- The split point in closed form (R203). -/
theorem bitSplit_closed (s : State) {logp : Nat} (h : logp ≤ 15) :
    bitSplit s logp =
      (32768 - 2 ^ (15 - logp)) + min (32768 - 2 ^ (15 - logp)) (s.range.toNat - 32768) := by
  rw [bitSplit_eq_scaledBound, scaledBound, Nat.sub_mul, bitTotal_scaled h, Nat.one_mul]

/-- In the idle phase DECODE_BIT_LOGP with its operand in range completes (R203). -/
theorem exec_decodeBitLogp {s : State} {logp : BitVec 16} (hs : s.idleReady) (h : logp.toNat ≤ 15) :
    exec (.decodeBitLogp logp) s = .next ((bitEffect s logp.toNat).1.respond .ok (bitEffect s logp.toNat).2) := by
  have ⟨hfault, hready, hidle⟩ := hs
  have hok : logpOk logp.toNat = true := logpOk_iff.mpr h
  exact exec_completes hfault rfl (by simp [commandChecks, checkReady, checkIdle, checkOperands, hready, hidle, hok])

/-- The position is at or above the split point exactly when the probe of the total `2^logp` is its last frequency
(R171, R203). -/
theorem bitSplit_le_position_iff {s : State} {logp : Nat} (hr : s.rangeOk) (h : logp ≤ 15) :
    bitSplit s logp ≤ s.position ↔ 2 ^ logp - 1 ≤ (lookup s.range.toNat s.position (2 ^ logp)).1 := by
  rw [bitSplit_eq_scaledBound, scaledBound_le_iff, lookup, lookupShift_bitTotal hr.1 s.range.isLt h,
    Nat.shiftRight_eq_div_pow, Nat.shiftLeft_eq]

/-- DECODE_BIT_LOGP narrows to the symbol that holds the probe of its total: the last frequency for a 1, those before it
for a 0 (R203). -/
theorem bitEffect_eq_narrowTo_symbol {s : State} {logp : Nat} (hr : s.rangeOk) (h : logp ≤ 15) :
    bitEffect s logp =
      if 2 ^ logp - 1 ≤ (lookup s.range.toNat s.position (2 ^ logp)).1
        then (s.narrowTo (narrow s.range.toNat (2 ^ logp - 1) (2 ^ logp) (2 ^ logp) (15 - logp)), 1)
        else (s.narrowTo (narrow s.range.toNat 0 (2 ^ logp - 1) (2 ^ logp) (15 - logp)), 0) := by
  have htop : scaledBound s.range.toNat (2 ^ logp) (15 - logp) (2 ^ logp) = s.range.toNat := by
    have hscaled := bitTotal_scaled h
    have hnormal := hr.1
    have hwidth := s.range.isLt
    exact scaledBound_total (by omega) (by omega)
  simp only [bitEffect, bitSplit_le_position_iff hr h, narrow_eq_scaledBound, ← bitSplit_eq_scaledBound, scaledBound_zero,
    htop]

/-- Settles O36: the two sides of the split point, which lies in the range. -/
theorem bitLogpCompletes : Obligations.BitLogpCompletes := by
  unfold Obligations.BitLogpCompletes
  intro s logp hs hinv h
  have ⟨_, hready, _⟩ := hs
  obtain ⟨⟨hr, hwindow, hcount, hcursor⟩, -⟩ := (inv_iff_parts hready).mp hinv
  have hexec := exec_decodeBitLogp hs h
  rcases bitEffect_cases s logp.toNat with ⟨hge, e⟩ | ⟨hlt, e⟩
  · rw [e] at hexec
    have hnarrow := narrowTo_narrowed (uv := (_, s.range.toNat)) hge hr.2 (Nat.le_refl _) hwindow hcount hcursor
    exact ⟨_, _, bitSplit_closed s h, hexec, fun _ => ⟨hnarrow, rfl⟩, fun hlt => absurd hge (Nat.not_le.mpr hlt), rfl,
      fun _ => ⟨rfl, rfl⟩⟩
  · rw [e] at hexec
    have hnarrow := narrowTo_narrowed (uv := (0, _)) (Nat.zero_le _) hlt (bitSplit_le_range hr h) hwindow hcount hcursor
    exact ⟨_, _, bitSplit_closed s h, hexec, fun hge => absurd hge (Nat.not_le.mpr hlt), fun _ => ⟨hnarrow, rfl⟩, rfl,
      fun _ => ⟨rfl, rfl⟩⟩

/-! ## DECODE_BIT_LOGP as a lookup and an UPDATE -/

/-- Narrowing neither reads nor writes the latches, PENDING and the responses (R202). -/
theorem narrowTo_setLatches (s : State) (ext : BitVec 4) (lookupFt : BitVec 16) (pending : Bool) (responses : List Response)
    (uv : Nat × Nat) :
    State.narrowTo { s with ext := ext, lookupFt := lookupFt, pending := pending, responses := responses } uv =
      { s.narrowTo uv with ext := ext, lookupFt := lookupFt, pending := pending, responses := responses } := by
  have hrefill : ∀ val cnt fwd, refillIfShort
      { s with ext := ext, lookupFt := lookupFt, pending := pending, responses := responses } val cnt fwd =
        refillIfShort s val cnt fwd := by
    intro val cnt fwd
    apply refillIfShort_congr
    · rfl
    · exact fun _ => rfl
  simp only [State.narrowTo, State.renormalize, hrefill]
  rfl

/-- An UPDATE right after the lookup of its total, with bounds that hold the probe, narrows as the lookup's shift says
and changes nothing else but the latches and the responses (R202). -/
theorem exec_update_after_lookup {s : State} {fl fh ft : BitVec 16} (hs : s.idleReady) (hr : s.rangeOk)
    (hi : (Instr.update fl fh ft).operandsInRange) (hl : fl.toNat ≤ (lookupEffect s ft.toNat).2.toNat)
    (hh : (lookupEffect s ft.toNat).2.toNat < fh.toNat) :
    ∃ t, exec (.update fl fh ft) ((lookupEffect s ft.toNat).1.respond .ok (lookupEffect s ft.toNat).2) = .next t ∧
      t.fault = false ∧
      s.narrowTo (narrow s.range.toNat fl.toNat fh.toNat ft.toNat (lookupShift s.range.toNat ft.toNat)) =
        { t with ext := s.ext, lookupFt := s.lookupFt, responses := s.responses } := by
  have ⟨hfault, hready, hidle⟩ := hs
  have ⟨h1, h2, _⟩ := hi
  obtain ⟨-, hext⟩ := lookup_phase h1 h2 hr
  have hchecks := firstFault_update_after_lookup hready hr hi
  rw [if_pos ⟨hl, hh⟩] at hchecks
  have hrange : updateRange ((lookupEffect s ft.toNat).1.respond .ok (lookupEffect s ft.toNat).2) fl.toNat fh.toNat
      ft.toNat = narrow s.range.toNat fl.toNat fh.toNat ft.toNat (lookupShift s.range.toNat ft.toNat) :=
    congrArg (narrow s.range.toNat fl.toNat fh.toNat ft.toNat) hext
  refine ⟨_, exec_completes hfault rfl hchecks, hfault, ?_⟩
  rw [commandEffect, hrange]
  generalize narrow s.range.toNat fl.toNat fh.toNat ft.toNat (lookupShift s.range.toNat ft.toNat) = uv
  have hstate : State.narrowTo ((lookupEffect s ft.toNat).1.respond .ok (lookupEffect s ft.toNat).2).clearPending uv = _ :=
    narrowTo_setLatches s _ _ false _ uv
  rw [hstate, ← hidle]
  rfl

/-- The symbol of the total `2^logp` that holds the probe, by its bounds, and the bit that narrows to it (R203). -/
theorem exists_bitSymbol {s : State} {logp : Nat} (hr : s.rangeOk) (h : logp ≤ 15) :
    ∃ (bit : BitVec 32) (fl fh : BitVec 16),
      (if 2 ^ logp - 1 ≤ (lookupEffect s (2 ^ logp)).2.toNat
        then bit = 1 ∧ fl.toNat = 2 ^ logp - 1 ∧ fh.toNat = 2 ^ logp
        else bit = 0 ∧ fl.toNat = 0 ∧ fh.toNat = 2 ^ logp - 1) ∧
      fl.toNat ≤ (lookupEffect s (2 ^ logp)).2.toNat ∧ (lookupEffect s (2 ^ logp)).2.toNat < fh.toNat ∧
      fh.toNat ≤ 2 ^ logp ∧
      bitEffect s logp = (s.narrowTo (narrow s.range.toNat fl.toNat fh.toNat (2 ^ logp) (15 - logp)), bit) := by
  have ⟨hpos, hmax⟩ := bitTotal_range h
  have hlt := lookupEffect_result hr hpos hmax
  have hprobe : (lookupEffect s (2 ^ logp)).2.toNat = (lookup s.range.toNat s.position (2 ^ logp)).1 :=
    Nat.mod_eq_of_lt ((probe_lt hr hpos hmax).trans (by omega))
  have hbit := bitEffect_eq_narrowTo_symbol hr h
  rw [← hprobe] at hbit
  by_cases hone : 2 ^ logp - 1 ≤ (lookupEffect s (2 ^ logp)).2.toNat
  · refine ⟨1, BitVec.ofNat 16 (2 ^ logp - 1), BitVec.ofNat 16 (2 ^ logp), ?_⟩
    rw [if_pos hone, bitBound_toNat h (Nat.sub_le _ _), bitBound_toNat h (Nat.le_refl _)]
    exact ⟨⟨rfl, rfl, rfl⟩, hone, hlt, Nat.le_refl _, hbit.trans (if_pos hone)⟩
  · refine ⟨0, 0, BitVec.ofNat 16 (2 ^ logp - 1), ?_⟩
    rw [if_neg hone, bitBound_toNat h (Nat.sub_le _ _)]
    exact ⟨⟨rfl, rfl, rfl⟩, Nat.zero_le _, Nat.lt_of_not_le hone, Nat.sub_le _ _, hbit.trans (if_neg hone)⟩

/-- Settles O37: the bit says which of the two symbols holds the probe, and the lookup's shift is the one
DECODE_BIT_LOGP narrows with. -/
theorem bitLogpIsLookupThenUpdate : Obligations.BitLogpIsLookupThenUpdate := by
  unfold Obligations.BitLogpIsLookupThenUpdate
  intro s logp hs hinv h
  have ⟨_, hready, _⟩ := hs
  obtain ⟨⟨hr, -⟩, -⟩ := (inv_iff_parts hready).mp hinv
  have ⟨hpos, hmax⟩ := bitTotal_range h
  have htotal := bitBound_toNat h (Nat.le_refl (2 ^ logp.toNat))
  obtain ⟨bit, fl, fh, hsymbol, hl, hh, hle, hbit⟩ := exists_bitSymbol hr h
  have hi : (Instr.update fl fh (BitVec.ofNat 16 (2 ^ logp.toNat))).operandsInRange := by
    rw [Instr.operandsInRange, htotal]
    exact ⟨hpos, hmax, by omega, hle⟩
  obtain ⟨s2, hupdate, hfault, hstate⟩ := exec_update_after_lookup hs hr hi (by rwa [htotal]) (by rwa [htotal])
  rw [htotal] at hupdate hstate
  rw [lookupShift_bitTotal hr.1 s.range.isLt h] at hstate
  refine ⟨_, s2, _, _, bit, fl, fh, exec_lookup rfl hs h, rfl, hsymbol, hupdate, hfault, exec_decodeBitLogp hs h, ?_⟩
  rw [hbit, hstate]
  rfl

end Sys2Proof.Machine
end

