-- ==== Sys2Proof/Proofs/TableSearch.lean ====
section
/-! PROOFS. The symbol of a conforming table, as the scan and as the reference binary search find it, and the table
commands on a conforming table and on a terminated one outside the contract (spec/43_icdf.md R230 to R239). -/

namespace Sys2Proof.Machine

/-! ## The reference binary search (R232) -/

/-- The entries of a conforming table never rise, from any symbol to any later one (R230). -/
theorem conformingTable_antitoneOn {T : Nat → Nat} {nsyms ft : Nat} (h : conformingTable T nsyms ft) :
    AntitoneOn T (Set.Iio nsyms) := by
  obtain ⟨-, hfall, -⟩ := h
  exact antitoneOn_of_add_one_le Set.ordConnected_Iio fun k _ _ hk => hfall k (Nat.lt_sub_of_add_lt hk)

/-- A pass splits the interval at its middle, and each half fits one pass less. -/
theorem binarySearch_middle {lo hi passes : Nat} (hlt : lo < hi) (hpasses : hi - lo < 2 ^ (passes + 1)) :
    lo ≤ (lo + hi) >>> 1 ∧ (lo + hi) >>> 1 < hi ∧ (lo + hi) >>> 1 - lo < 2 ^ passes ∧
      hi - ((lo + hi) >>> 1 + 1) < 2 ^ passes := by
  rw [Nat.pow_succ] at hpasses
  rw [Nat.shiftRight_eq_div_pow]
  omega

/-- In falling entries of which the last is below the key, with none before the interval, the binary search finds the
first entry below the key, given the passes to halve the interval down to one entry (R232). -/
theorem binarySearch_spec {T : Nat → Nat} {key passes lo hi : Nat} (hle : lo ≤ hi) (hpasses : hi - lo < 2 ^ passes)
    (hfall : AntitoneOn T (Set.Iic hi)) (hlo : ∀ j, j < lo → key ≤ T j) (hhi : T hi < key) :
    binarySearch T key passes lo hi ≤ hi ∧ T (binarySearch T key passes lo hi) < key ∧
      ∀ j, j < binarySearch T key passes lo hi → key ≤ T j := by
  induction passes generalizing lo hi with
  | zero =>
    obtain rfl : lo = hi := by omega
    exact ⟨hle, hhi, hlo⟩
  | succ passes ih =>
    rw [binarySearch]
    split
    · next hlt =>
      obtain ⟨hge, hmid, hleft, hright⟩ := binarySearch_middle hlt hpasses
      generalize (lo + hi) >>> 1 = mid at *
      split
      · next hbelow =>
        have ⟨hbound, hfound⟩ := ih hge hleft (hfall.mono (Set.Iic_subset_Iic.mpr hmid.le)) hlo hbelow
        exact ⟨hbound.trans hmid.le, hfound⟩
      · next habove =>
        have hbefore : ∀ j, j < mid + 1 → key ≤ T j := fun j hj =>
          (Nat.le_of_not_lt habove).trans (hfall (show j ≤ hi by omega) hmid.le (Nat.le_of_lt_succ hj))
        exact ih hmid hright hfall hbefore hhi
    · next hstop =>
      obtain rfl : lo = hi := by omega
      exact ⟨hle, hhi, hlo⟩

/-- The scan stops at the one index below the key that has none before it (R231). -/
theorem firstBelow_eq {T : Nat → Nat} {key n k : Nat} (hk : k < n) (hbelow : T k < key)
    (hfirst : ∀ j, j < k → key ≤ T j) :
    firstBelow T key n 0 = k := by
  obtain ⟨-, -, hbefore, hstop⟩ := firstBelow_spec (entry := T) (key := key) (m := n) (k := 0)
  have hle : firstBelow T key n 0 ≤ k := by
    by_contra hgt
    exact absurd hbelow (Nat.not_lt.mpr (hbefore k (Nat.zero_le _) (Nat.lt_of_not_le hgt)))
  have hge : k ≤ firstBelow T key n 0 := by
    by_contra hlt
    exact absurd (hstop (by omega)) (Nat.not_lt.mpr (hfirst _ (Nat.lt_of_not_le hlt)))
  exact Nat.le_antisymm hle hge

/-- Settles O39: the binary search keeps the first entry below the key in its interval, and the scan stops there too. -/
theorem binarySearchFindsTheSymbol : Obligations.BinarySearchFindsTheSymbol := by
  unfold Obligations.BinarySearchFindsTheSymbol
  intro T nsyms ft key passes hnsyms htable hkey hpasses
  have hwidth : nsyms - 1 - 0 < 2 ^ passes := by
    have hfit := (Nat.clog_le_iff_le_pow Nat.one_lt_two).mp hpasses
    omega
  have hfall : AntitoneOn T (Set.Iic (nsyms - 1)) :=
    (conformingTable_antitoneOn htable).mono fun k hk => Nat.lt_of_le_pred hnsyms hk
  obtain ⟨hbound, hbelow, hfirst⟩ := binarySearch_spec (Nat.zero_le _) hwidth hfall (by simp) (htable.1.trans_lt hkey)
  have hlt := Nat.lt_of_le_pred hnsyms hbound
  exact ⟨(firstBelow_eq hlt hbelow hfirst).symm, hlt, hbelow, hfirst⟩

/-! ## A table of which no byte has changed (R82) -/

/-- A table of which no byte has changed reads, for every use, as memory holds it (R82). -/
theorem tableEntry_unchanged {s : State} {tb n nsyms k : Nat} (hn : n = 1 ∨ n = 2) (hk : k < nsyms)
    (h : s.tableUnchanged tb (n * nsyms)) (u : EntryUse) :
    tableEntry (s.tableByte u) tb n k = tableEntry s.table.read tb n k := by
  rw [← icdfEntry_eq hn, ← icdfHeld_eq hn]
  exact icdfEntry_stands (tableStands_iff.mpr h) hk hn u

/-- On an unchanged table the symbol selected is the first whose entry is below `ft − p` (R231, R233). -/
theorem icdfSymbol_unchanged {s : State} {tb n nsyms ft : Nat} (hn : n = 1 ∨ n = 2)
    (h : s.tableUnchanged tb (n * nsyms)) :
    icdfSymbol s tb n nsyms ft =
      firstBelow (tableEntry s.table.read tb n) (ft - (lookup s.range.toNat s.position ft).1) nsyms 0 := by
  have hheld : icdfHeld s tb n = tableEntry s.table.read tb n := funext fun _ => icdfHeld_eq hn
  rw [icdfSymbol, icdfSelect, if_pos (tableStands_iff.mpr h), hheld]

/-- The bounds of a symbol of an unchanged table are those of its entries in memory (R231). -/
theorem symbolBounds_unchanged {s : State} {tb n nsyms k : Nat} (hn : n = 1 ∨ n = 2) (hk : k < nsyms)
    (h : s.tableUnchanged tb (n * nsyms)) (ft : Nat) :
    symbolLow (tableEntry (s.tableByte .lowBound) tb n) ft k = symbolLow (tableEntry s.table.read tb n) ft k ∧
      tableEntry (s.tableByte .highBound) tb n k = tableEntry s.table.read tb n k := by
  have hprevious : k - 1 < nsyms := by omega
  simp only [symbolLow, tableEntry_unchanged hn hprevious h, tableEntry_unchanged hn hk h, and_self]

/-- On a conforming, unchanged table the symbol selected passes the bounds check as the block reads it (R233). -/
theorem icdfSymbolOk_conforming {s : State} {tb n nsyms ft : Nat} (hn : n = 1 ∨ n = 2) (hnsyms : 1 ≤ nsyms)
    (htable : conformingTable (tableEntry s.table.read tb n) nsyms ft) (h : s.tableUnchanged tb (n * nsyms))
    (hprobe : (lookup s.range.toNat s.position ft).1 < ft) :
    icdfSymbolOk s tb n ft (icdfSymbol s tb n nsyms ft) = true := by
  have hscan := icdf_scan_bounds hnsyms htable hprobe
  obtain ⟨hlt, -⟩ := firstBelow_exists hnsyms htable.1 (Nat.le_sub_of_add_le' hprobe)
  rw [← icdfSymbol_unchanged hn h] at hscan hlt
  have hlow := (icdfEntry_eq hn).trans (tableEntry_unchanged (k := icdfSymbol s tb n nsyms ft - 1) hn (by omega) h .lowBound)
  have hhigh := (icdfEntry_eq hn).trans (tableEntry_unchanged hn hlt h .highBound)
  rw [icdfSymbolOk, icdfBoundsOk_iff, icdfLow, icdfHigh, hlow, hhigh]
  exact icdfBoundsOk_iff.mp hscan

/-- Settles O38: the symbol is the scan's, which passes the bounds check, and the command narrows to its bounds. -/
theorem tableCommandsComplete : Obligations.TableCommandsComplete := by
  unfold Obligations.TableCommandsComplete
  intro i s tb n nsyms ft hicdf hw hs hinv hi heven hin htable hunchanged
  obtain ⟨hn, hnsyms⟩ := icdfTable_shape hicdf hw
  obtain ⟨-, hdefined, heffect, -, hrange⟩ := icdfTable_command hicdf s
  obtain ⟨h1, h2⟩ := hrange hi
  have ⟨hfault, hready, _⟩ := hs
  obtain ⟨⟨hr, -⟩, -⟩ := (inv_iff_parts hready).mp hinv
  have hprobe := probe_lt hr h1 h2
  have hcontract := conforming_inContract htable
  have hlast := (tableEntry_unchanged hn (Nat.sub_lt hnsyms Nat.one_pos) hunchanged .terminator).trans htable.1
  have hok := icdfSymbolOk_conforming hn hnsyms htable hunchanged hprobe
  obtain ⟨hlt, hbelow, hfirst⟩ := firstBelow_exists hnsyms htable.1 (Nat.le_sub_of_add_le' hprobe)
  rw [← icdfSymbol_unchanged hn hunchanged] at hlt hbelow hfirst
  obtain ⟨-, hlow, hhigh⟩ := (icdfSymbolOk_iff hn).mp hok
  have hnarrow := icdfEffect_narrowed hn hready hinv h1 h2 hok
  obtain ⟨elow, ehigh⟩ := symbolBounds_unchanged hn hlt hunchanged ft
  rw [elow] at hlow hnarrow
  rw [ehigh] at hhigh hnarrow
  have hchecks := firstFault_icdfTable_inContract hicdf hn hs hi heven hin hlast hcontract
  rw [if_pos hok] at hchecks
  have hexec := exec_completes hfault (hdefined.trans ((icdfInContract_iff hn).mpr hcontract)) hchecks
  rw [heffect] at hexec
  exact ⟨_, _, icdfSymbol s tb n nsyms ft, _, lookup_isLookup s.position h1 (h2.trans hr.1) s.range.isLt, hlt, hbelow,
    hfirst, hlow, hhigh, hexec, hnarrow, rfl, fun _ => ⟨rfl, rfl⟩, fun _ _ => rfl⟩

/-! ## A terminated table outside the contract (R239) -/

/-- On an aligned table in the address space that ends in 0, a table command fails the bounds check or none (R233). -/
theorem firstFault_icdfTable_terminated {i : Instr} {s : State} {tb n nsyms ft : Nat}
    (h : i.icdfTable = some (tb, n, nsyms, ft)) (hn : n = 1 ∨ n = 2) (hs : s.idleReady) (hi : i.operandsInRange)
    (heven : n = 2 → tb % 2 = 0) (hin : tb + n * nsyms - 1 ≤ 2 ^ 32 - 1)
    (hlast : tableEntry (s.tableByte .terminator) tb n (nsyms - 1) = 0) :
    firstFault (commandChecks i s) =
      if icdfBoundsPass s tb n nsyms ft then none else some .icdfTableNonconforming := by
  have halign := tableAligned_iff.mpr heven
  have hspace := tableInSpace_iff.mpr hin
  have hend := (icdfTerminated_iff hn).mpr hlast
  rw [firstFault_icdfTable h hs hi]
  cases hpass : icdfBoundsPass s tb n nsyms ft <;> simp [icdfChecks, halign, hspace, hend, hpass]

/-- Outside the contract the bounds check of a table command asks for some symbol whose bounds pass (R239). -/
theorem icdfBoundsPass_outside_iff {s : State} {tb n nsyms ft : Nat} (hn : n = 1 ∨ n = 2)
    (h : ¬ s.tableInContract tb n nsyms ft) :
    icdfBoundsPass s tb n nsyms ft = true ↔
      ∃ sym, sym < nsyms ∧ s.symbolFits tb n ft (lookup s.range.toNat s.position ft).1 sym := by
  rw [icdfBoundsPass, if_neg (mt (icdfInContract_iff hn).mp h)]
  simp only [List.any_eq_true, List.mem_range, icdfSymbolOk_iff hn]

/-- Settles O40: only the bounds check is left, and a command that passes it has no meaning. -/
theorem nonconformingTableOutcome : Obligations.NonconformingTableOutcome := by
  unfold Obligations.NonconformingTableOutcome
  intro i s tb n nsyms ft hicdf hw hs hinv hi heven hin hlast hcontract
  obtain ⟨hn, -⟩ := icdfTable_shape hicdf hw
  obtain ⟨-, hdefined, -, -, hrange⟩ := icdfTable_command hicdf s
  obtain ⟨h1, h2⟩ := hrange hi
  have ⟨hfault, hready, _⟩ := hs
  obtain ⟨⟨hr, -⟩, -⟩ := (inv_iff_parts hready).mp hinv
  have hpass := icdfBoundsPass_outside_iff hn hcontract
  have hchecks := firstFault_icdfTable_terminated hicdf hn hs hi heven hin hlast
  refine ⟨_, _, lookup_isLookup s.position h1 (h2.trans hr.1) s.range.isLt, fun hfits => ?fits, fun hnone => ?none⟩
  case fits =>
    have hundefined : commandDefined i s = false := by
      rw [hdefined, ← Bool.not_eq_true, icdfInContract_iff hn]
      exact hcontract
    exact exec_undefined hfault hundefined (by rw [hchecks, if_pos (hpass.mpr hfits)])
  case none =>
    have hbad : ¬ icdfBoundsPass s tb n nsyms ft = true := by
      rw [hpass]
      rintro ⟨sym, hlt, hfits⟩
      exact hnone sym hlt hfits
    exact exec_raises hfault (c := .icdfTableNonconforming) (by rw [hchecks, if_neg hbad])

end Sys2Proof.Machine
end

