-- ==== Sys2Proof/Proofs/Stops.lean ====
section
/-! PROOFS. Where the machine stops: on a host that answers no more, and on a table command outside the contract
(spec/93_implementation_defined.md U7, U13, U14, spec/43_icdf.md R239). -/

namespace Sys2Proof.Machine

/-- A command with a meaning gives a next state (R239). -/
theorem exec_next_of_givesMeaning {i : Instr} {s : State} (h : s.givesMeaning i) : ∃ t, exec i s = .next t := by
  have hdefined := commandDefined_iff.mpr h
  rcases exec_outcomes i s with ⟨-, e⟩ | ⟨-, _, -, e⟩ | ⟨-, -, -, e⟩ | ⟨-, -, hundefined, -⟩
  · exact ⟨_, e⟩
  · exact ⟨_, e⟩
  · exact ⟨_, e⟩
  · exact absurd hdefined (by simp [hundefined])

/-- A command gives a next state, or it could run, has no meaning, and is refused by name (R239, log entry 7). -/
theorem exec_next_or_refused (i : Instr) (s : State) :
    (∃ t, exec i s = .next t) ∨
      (exec i s = .refused .nonconformingTable ∧ s.idleReady ∧ i.operandsInRange ∧ ¬ s.givesMeaning i) := by
  rcases exec_outcomes i s with ⟨-, e⟩ | ⟨-, _, -, e⟩ | ⟨-, -, -, e⟩ | ⟨hfault, hchecks, hundefined, e⟩
  · exact .inl ⟨_, e⟩
  · exact .inl ⟨_, e⟩
  · exact .inl ⟨_, e⟩
  · have hno : ¬ (s.idleReady → i.operandsInRange → s.givesMeaning i) := fun hm =>
      absurd (commandDefined_of_checks hfault hchecks hm) (by simp [hundefined])
    exact .inr ⟨e, by simpa only [Classical.not_imp] using hno⟩

/-- A command word gives a next state, or it is a command that `exec` refuses (R106, R239). -/
theorem runWord_next_or_refused (w : CmdWord) (s : State) :
    (∃ t, runWord w s = .next t) ∨
      (runWord w s = .refused .nonconformingTable ∧
        ∃ i, decode w = .ok i ∧ s.idleReady ∧ i.operandsInRange ∧ ¬ s.givesMeaning i) := by
  rcases Bool.eq_false_or_eq_true s.resetDue with hp | hp
  · exact .inl ⟨_, runWord_unreset hp⟩
  · cases hd : decode w with
    | error c =>
      rw [runWord_error hp hd]
      rcases Bool.eq_false_or_eq_true s.fault with hf | hf
      · exact .inl ⟨_, rejectWord_faulted hf⟩
      · exact .inl ⟨_, rejectWord_enters hf⟩
    | ok i =>
      rw [runWord_ok hp hd]
      exact (exec_next_or_refused i s.nextDraw).imp_right fun ⟨e, hno⟩ => ⟨e, i, rfl, hno⟩

/-- Settles O59: of the host's events one stops the machine by itself, and a command word may be refused. -/
theorem onlyAnUnansweringHostStops : Obligations.OnlyAnUnansweringHostStops := by
  unfold Obligations.OnlyAnUnansweringHostStops
  refine fun s => ⟨fun rest hin => step_event hin, fun hanswers => ?_, fun i => exec_next_of_givesMeaning⟩
  cases hin : s.input with
  | nil => exact .inl ⟨s, step_idle hin⟩
  | cons e rest =>
    rw [step_event hin]
    cases e with
    | command w =>
      exact (runWord_next_or_refused w (s.setInput rest)).imp_right fun ⟨e, i, hd, hno⟩ => ⟨e, w, rest, i, rfl, hd, hno⟩
    | neverAnswers => exact absurd hin (hanswers rest)
    | reset | powerLoss | acceptResponse | bindStream _ | writeStream _ _ | writeTable _ _ => exact .inl ⟨_, rfl⟩

end Sys2Proof.Machine
end

