-- ==== Sys2Proof/Proofs/UintAndBits.lean ====
section
/-! PROOFS. `RawBits` in closed form, DECODE_BITS and DECODE_UINT (spec/44_uint_and_bits.md R260 to R263, R280 to
R282). -/

namespace Sys2Proof.Machine

/-! ## The reservoir after `RawBits` -/

/-- The refill loop in closed form: it reads bytes until 25 bits are held, if the buffer has them all, and else stops
with the sentinel at the buffer's front (R280). -/
theorem rawRefill_closed (s : State) {n win avail bwd : Nat} (hn : 25 ≤ avail + 8 * n) (ha : avail ≤ 24)
    (hb : bwd ≤ s.storage.toNat) :
    (rawRefill s n win avail bwd).2 =
      if bwd + (32 - avail) / 8 ≤ s.storage.toNat then (avail + 8 * ((32 - avail) / 8), bwd + (32 - avail) / 8)
      else (Config.lotsOfBits, s.storage.toNat) := by
  have hW : Config.windowBits = 32 := rfl
  induction n generalizing win avail bwd with
  | zero => omega
  | succ n ih =>
    rw [rawRefill]
    split
    · next hfront =>
      rw [if_neg (by omega), Nat.le_antisymm hb hfront]
    · next hmore =>
      dsimp only
      split
      · next hfull =>
        have hone : (32 - avail) / 8 = 1 := by omega
        rw [hone, if_pos (by omega)]
      · next hshort =>
        have hcursor : bwd + 1 + (32 - (avail + 8)) / 8 = bwd + (32 - avail) / 8 := by omega
        have hbits : avail + 8 + 8 * ((32 - (avail + 8)) / 8) = avail + 8 * ((32 - avail) / 8) := by omega
        rw [ih (by omega) (by omega) (by omega), hcursor, hbits]

/-- The registers `RawBits` writes hold the reservoir less the bits taken: nothing is lost in their widths (R280, log
entry 9). -/
theorem rawBits_registers {s : State} {n : Nat} (hn : n ≤ 25) (h : s.backOk) :
    (rawBits s n).1.endWindow.toNat = (rawReservoir s n).1 / 2 ^ n ∧
      (rawBits s n).1.endBits.toNat = (rawReservoir s n).2.1 - n ∧
      (rawBits s n).1.bwdOffset.toNat = (rawReservoir s n).2.2 := by
  obtain ⟨hclear, -, hcursor⟩ := h
  obtain ⟨-, hwindow, hbits, -, hback⟩ := rawReservoir_ok hn hclear
  have hL : Config.lotsOfBits = 16384 := rfl
  have hE := s.endBits.isLt
  have hS := s.storage.isLt
  simp only [rawBits, State.takeRawBits_endWindow, State.takeRawBits_endBits, State.takeRawBits_bwdOffset,
    BitVec.toNat_ofNat, Nat.shiftRight_eq_div_pow]
  exact ⟨Nat.mod_eq_of_lt ((Nat.div_le_self _ _).trans_lt hwindow), Nat.mod_eq_of_lt (by omega),
    Nat.mod_eq_of_lt (by omega)⟩

/-- `RawBits` leaves the reservoir and the back cursor that R280 says. -/
theorem rawBits_reservoirAfter {s : State} {n : Nat} (hn : n ≤ 25) (h : s.backOk) :
    reservoirAfter s n (rawBits s n).1 := by
  have ⟨hclear, _, hcursor⟩ := h
  obtain ⟨ewindow, ebits, ecursor⟩ := rawBits_registers hn h
  refine ⟨rawBits_rest hn hclear hcursor, fun henough => ?held, fun hshort => ?refilled⟩
  case held =>
    have hkept : rawReservoir s n = (s.endWindow.toNat, s.endBits.toNat, s.bwdOffset.toNat) := if_neg (by omega)
    rw [hkept] at ewindow ebits ecursor
    exact ⟨BitVec.eq_of_toNat_eq ecursor, ebits, ewindow⟩
  case refilled =>
    have hrefilled : rawReservoir s n = rawRefill s 4 s.endWindow.toNat s.endBits.toNat s.bwdOffset.toNat :=
      if_pos hshort
    have hclosed := congrArg Prod.snd hrefilled
    rw [rawRefill_closed s (by omega) (by omega) hcursor] at hclosed
    refine ⟨fun hall => ?_, fun hfront => ?_⟩
    · rw [if_pos hall] at hclosed
      rw [hclosed] at ebits ecursor
      exact ⟨ecursor, ebits⟩
    · rw [if_neg (by omega)] at hclosed
      rw [hclosed] at ebits ecursor
      exact ⟨BitVec.eq_of_toNat_eq ecursor, ebits⟩

/-! ## DECODE_BITS -/

/-- DECODE_BITS with its operand in range completes in either phase (R281). -/
theorem exec_decodeBits {s : State} {nbits : BitVec 16} (hfault : s.fault = false) (hready : s.ready = true)
    (h : nbits.toNat ≤ 25) :
    exec (.decodeBits nbits) s =
      .next ((rawBits s nbits.toNat).1.respond .ok (BitVec.ofNat 32 (rawBits s nbits.toNat).2)) := by
  have hok : rawWidthOk nbits.toNat = true := rawWidthOk_iff.mpr h
  exact exec_completes hfault rfl (by simp [commandChecks, checkReady, checkOperands, hready, hok])

/-- Settles O44: the bits returned are the first of the stream of raw bits, and those left are the rest. -/
theorem decodeBitsCompletes : Obligations.DecodeBitsCompletes := by
  unfold Obligations.DecodeBitsCompletes
  intro s nbits hfault hready hinv h
  obtain ⟨-, ⟨hclear, -, hcursor⟩, -⟩ := (inv_iff_parts hready).mp hinv
  refine ⟨_, _, exec_decodeBits hfault hready h, fun j hj => ?_, rawBits_rest h hclear hcursor, rfl, fun _ => ⟨rfl, rfl⟩⟩
  rw [BitVec.getLsbD_ofNat, rawBits_result h hclear]
  simp [hj]

/-- Settles O45: DECODE_BITS leaves what `RawBits` leaves. -/
theorem decodeBitsReservoir : Obligations.DecodeBitsReservoir := by
  unfold Obligations.DecodeBitsReservoir
  intro s t nbits hfault hready hinv h hexec
  obtain ⟨-, hback, -⟩ := (inv_iff_parts hready).mp hinv
  rw [exec_decodeBits hfault hready h] at hexec
  cases hexec
  exact rawBits_reservoirAfter h hback

/-! ## DECODE_UINT -/

/-- In the idle phase DECODE_UINT with its operand in range completes (R260). -/
theorem exec_decodeUint {s : State} {ft : BitVec 32} (hs : s.idleReady) (h : 1 ≤ ft.toNat) :
    exec (.decodeUint ft) s =
      .next ((uintValue s ft.toNat).1.respond .ok (BitVec.ofNat 32 (uintValue s ft.toNat).2)) := by
  have ⟨hfault, hready, hidle⟩ := hs
  have hok : uintTotalOk ft.toNat = true := uintTotalOk_iff.mpr h
  exact exec_completes hfault rfl (by simp [commandChecks, checkReady, checkIdle, checkOperands, hready, hidle, hok])

/-- A uniform symbol narrows to the scaled bounds of the probe's slot (R200, R260). -/
theorem uniformSymbol_narrowed {s : State} {ft : Nat} (h : s.frontOk) (h1 : 1 ≤ ft) (h2 : ft ≤ 32768) :
    narrowed s
      (scaledBound s.range.toNat ft (lookup s.range.toNat s.position ft).2 (lookup s.range.toNat s.position ft).1)
      (scaledBound s.range.toNat ft (lookup s.range.toNat s.position ft).2 ((lookup s.range.toNat s.position ft).1 + 1))
      (uniformSymbol s ft).1 := by
  obtain ⟨⟨hnormal, hposition⟩, hwindow, hcount, hcursor⟩ := h
  obtain ⟨-, hfit, hmax, hprobe⟩ := lookup_spec h1 (h2.trans hnormal) s.range.isLt hposition
  obtain ⟨hu, hv⟩ := (narrow_contains_iff (r := s.range.toNat) (c := s.position) (ft := ft)).mpr
    ⟨Nat.le_refl _, Nat.lt_succ_self _⟩
  have htop := (narrow_bounds (Nat.lt_succ_self _) hprobe hfit hmax).2
  have hnarrow := narrowTo_narrowed hu hv htop hwindow hcount hcursor
  rw [narrow_eq_scaledBound] at hnarrow
  rw [uniformSymbol, narrow_eq_scaledBound]
  exact hnarrow

/-- Settles O41: a direct total is one uniform symbol. -/
theorem uintDirectCompletes : Obligations.UintDirectCompletes := by
  unfold Obligations.UintDirectCompletes
  intro s ft hs hinv h1 hdirect
  have ⟨_, hready, _⟩ := hs
  have h2 : ft.toNat ≤ 32768 := by omega
  obtain ⟨hfront, -⟩ := (inv_iff_parts hready).mp hinv
  have ⟨hr, _⟩ := hfront
  have hexec := exec_decodeUint hs h1
  rw [uintValue_direct s hdirect] at hexec
  exact ⟨_, _, _, lookup_isLookup s.position h1 (h2.trans hr.1) s.range.isLt, probe_lt hr h1 h2, hexec,
    uniformSymbol_narrowed hfront h1 h2, rfl, fun _ => ⟨rfl, rfl⟩⟩

/-- A split total has `ilog(ft − 1) − 8` raw bits, at least one, below a high part of more than 128 symbols (R260). -/
theorem uintSplit_shape {ft : Nat} (h : 256 < ft) :
    uintRawBits ft + 8 = Nat.log 2 (ft - 1) + 1 ∧ 1 ≤ uintRawBits ft ∧
      uintHighTotal ft = (ft - 1) / 2 ^ uintRawBits ft + 1 ∧ 129 ≤ uintHighTotal ft := by
  have hU : Config.uintBits = 8 := rfl
  have hlog : ilog (ft - 1) = Nat.log 2 (ft - 1) + 1 := by rw [ilog, if_neg (by omega), Nat.log2_eq_log_two]
  have hlong : 8 < ilog (ft - 1) := lt_ilog (by omega)
  obtain ⟨-, hlow, -⟩ := ilog_bounds (x := ft - 1) (by omega)
  have hbits : uintRawBits ft + 8 = ilog (ft - 1) := by simp only [uintRawBits]; omega
  have htotal : uintHighTotal ft = (ft - 1) / 2 ^ uintRawBits ft + 1 := by
    rw [uintHighTotal, Nat.shiftRight_eq_div_pow]
  have hhigh : 128 ≤ (ft - 1) / 2 ^ uintRawBits ft := by
    rw [Nat.le_div_iff_mul_le (Nat.two_pow_pos _)]
    calc 128 * 2 ^ uintRawBits ft = 2 ^ (ilog (ft - 1) - 1) := by
          rw [← hbits, show uintRawBits ft + 8 - 1 = 7 + uintRawBits ft by omega, Nat.pow_add]
      _ ≤ ft - 1 := hlow
  exact ⟨hbits.trans hlog, by omega, htotal, by omega⟩

/-- A split joins the raw bits below the high part (R260). -/
theorem uintJoin_value (s : State) (ft : Nat) :
    (uintJoin s ft).2 = (uniformSymbol s (uintHighTotal ft)).2 * 2 ^ uintRawBits ft +
      (rawBits (uniformSymbol s (uintHighTotal ft)).1 (uintRawBits ft)).2 := by
  rw [uintJoin, ← Nat.shiftLeft_add_eq_or_of_lt (rawBits_lt _ _), Nat.shiftLeft_eq]

/-- DECODE_UINT of a split total leaves the joined parts' state, with ERROR and the response that the clamp says (R260,
R262). -/
theorem exec_decodeUint_split {s : State} {ft : BitVec 32} (hs : s.idleReady) (h : 256 < ft.toNat) :
    ∃ error responses,
      exec (.decodeUint ft) s = .next { (uintJoin s ft.toNat).1 with error := error, responses := responses } ∧
      ((uintJoin s ft.toNat).2 ≤ ft.toNat - 1 → error = s.error ∧
        responses = s.responses ++ [{ status := .ok, result := BitVec.ofNat 32 (uintJoin s ft.toNat).2 }]) ∧
      (ft.toNat - 1 < (uintJoin s ft.toNat).2 → error = true ∧
        responses = s.responses ++ [{ status := .ok, result := ft - 1 }]) := by
  have hexec := exec_decodeUint hs (ft := ft) (by omega)
  rcases uintValue_cases s ft.toNat with ⟨hdirect, -⟩ | ⟨-, hin, e⟩ | ⟨-, hout, e⟩
  · omega
  · rw [e] at hexec
    exact ⟨_, _, hexec, fun _ => ⟨rfl, rfl⟩, fun hout => absurd hin (Nat.not_le.mpr hout)⟩
  · have hpred : BitVec.ofNat 32 (ft.toNat - 1) = ft - 1 := by bv_omega
    rw [e, hpred] at hexec
    exact ⟨_, _, hexec, fun hin => absurd hin (Nat.not_le.mpr hout), fun _ => ⟨rfl, rfl⟩⟩

/-- Settles O42: a split total is one uniform symbol, and then raw bits; the clamp sets ERROR and nothing else. -/
theorem uintSplitCompletes : Obligations.UintSplitCompletes := by
  unfold Obligations.UintSplitCompletes
  intro s ft hs hinv hsplit
  have ⟨_, hready, _⟩ := hs
  obtain ⟨hraw, hone, hmax⟩ := uintSplit_bounds hsplit ft.isLt
  obtain ⟨hbits, hsome, htotal, hmin⟩ := uintSplit_shape hsplit
  have hlegal : uintHighTotal ft.toNat ≤ 32768 := hmax.trans (by decide)
  obtain ⟨hfront, hback, -⟩ := (inv_iff_parts hready).mp hinv
  have ⟨hr, _⟩ := hfront
  have hsymbol : (uniformSymbol s (uintHighTotal ft.toNat)).1.backOk := hback
  have ⟨hclear, _⟩ := hsymbol
  obtain ⟨error, responses, hexec, hin, hout⟩ := exec_decodeUint_split hs hsplit
  rw [uintJoin_value] at hin hout
  have hlow : ∀ j, j < uintRawBits ft.toNat →
      (rawBits (uniformSymbol s (uintHighTotal ft.toNat)).1 (uintRawBits ft.toNat)).2.testBit j = rawBit s j := by
    intro j hj
    rw [rawBits_result (by omega) hclear, decide_eq_true hj, Bool.true_and]
    rfl
  have hafter := rawBits_reservoirAfter (n := uintRawBits ft.toNat) (by omega) hsymbol
  exact ⟨_, _, _, _, _, _, _, hbits, htotal, hsome, hraw, hmin, hmax,
    lookup_isLookup s.position hone (hlegal.trans hr.1) s.range.isLt, probe_lt hr hone hlegal,
    uniformSymbol_narrowed hfront hone hlegal, uniformSymbol_frame s _, rawBits_lt _ _, hlow, hexec, hafter, hin, hout,
    rfl, fun _ => ⟨rfl, rfl⟩⟩

/-- Settles O43: the functions DECODE_UINT splits a total with, evaluated at each row. -/
theorem uintThresholdVectors : Obligations.UintThresholdVectors := by
  unfold Obligations.UintThresholdVectors
  decide

end Sys2Proof.Machine
end

