-- ==== Sys2Proof/Proofs/Exceptions.lean ====
section
/-! PROOFS. Fault entry, the faults of the wrong phase, the faulted block, reset and loss of power
(spec/60_exceptions.md R302 to R307, R315, spec/70_reset_and_hazards.md R340). -/

namespace Sys2Proof.Machine

/-! ## Fault entry (R302, R303) -/

/-- While power lasts, a word that leaves FAULT = 1 in an unfaulted block has entered a fault: no refusal is due, and no
effect of a command writes FAULT. -/
theorem runWord_enters_fault {s t : State} {w : CmdWord} (hp : s.resetDue = false) (hf : s.fault = false)
    (h : runWord w s = .next t) (ht : t.fault = true) : ∃ c, t = s.nextDraw.enterFault c w := by
  rcases runWord_cases h with ⟨hdue, -⟩ | ⟨-, i, hd, hexec⟩ | ⟨-, c, -, rfl⟩
  · exact absurd hdue (by simp [hp])
  · rcases exec_cases hexec with ⟨hfaulted, -⟩ | ⟨-, c, -, rfl⟩ | ⟨-, -, -, rfl⟩
    · exact absurd hfaulted (by simp [hf])
    · exact ⟨c, by rw [(encodeOfDecode w i hd).2]⟩
    · obtain ⟨-, -, -, hfault, -, -⟩ := commandEffect_ports i s.nextDraw
      exact absurd ht (by simp [hfault, hf])
  · exact ⟨c, if_neg (by simp [hf])⟩

/-- Settles O11: the word entered a fault, and every cause has a code of R303. -/
theorem faultEntry : Obligations.FaultEntry := by
  unfold Obligations.FaultEntry
  intro s t w hp hf hrun ht
  obtain ⟨c, hc⟩ := runWord_enters_fault hp hf hrun ht
  obtain ⟨hlow, hhigh⟩ := causeCode_range c
  exact ⟨causeCode c, hlow, hhigh, hc⟩

/-! ## The wrong phase (R303, causes 5 and 6) -/

/-- A command that needs the idle phase checks READY and the phase first (R304). -/
theorem commandChecks_idle {i : Instr} (hi : i.needsIdle = true) (s : State) :
    ∃ rest, commandChecks i s = checkReady s :: checkIdle s :: rest := by
  cases i with
  | init _ | tell | update _ _ _ | decodeBits _ => simp [Instr.needsIdle] at hi
  | _ => exact ⟨_, rfl⟩

/-- Settles O14: READY passes, and the check of the phase comes before those of the operands. -/
theorem phaseViolationFaults : Obligations.PhaseViolationFaults := by
  unfold Obligations.PhaseViolationFaults
  intro i s hfault hready
  refine ⟨fun hpending hi => ?idle, fun hpending fl fh ft hi => ?pending⟩
  case idle =>
    obtain ⟨rest, hrest⟩ := commandChecks_idle hi s
    exact exec_raises hfault (c := .lookupPending) (by simp [hrest, checkReady, checkIdle, hready, hpending])
  case pending =>
    subst hi
    exact exec_raises hfault (c := .noPendingLookup) (by simp [commandChecks, checkReady, checkPending, hready, hpending])

/-! ## The faulted block (R305, R307) -/

/-- While power lasts a faulted block refuses a word, whether it decodes or not. -/
theorem runWord_faulted {s : State} (w : CmdWord) (hp : s.resetDue = false) (hf : s.fault = true) :
    runWord w s = .next s.nextDraw.refuseWord := by
  cases hd : decode w with
  | ok i => exact (runWord_ok hp hd).trans (exec_faulted hf)
  | error c => exact (runWord_error hp hd).trans (rejectWord_faulted hf)

/-- Settles O18: a refused word leaves its response alone. -/
theorem faultedBlockRefuses : Obligations.FaultedBlockRefuses := by
  unfold Obligations.FaultedBlockRefuses
  exact fun s w hp hf => runWord_faulted w hp hf

/-- While power lasts no event but reset writes a register of a faulted block. -/
theorem step_faulted_registers {s t : State} (hf : s.fault = true) (hstep : step s = .next t) (hdue : s.resetDue = false)
    (hpower : ∀ rest, s.input ≠ .powerLoss :: rest) (hreset : ∀ rest, s.input ≠ .reset :: rest) :
    t.registers = s.registers := by
  rcases step_cases hstep with ⟨-, rfl⟩ | ⟨e, rest, hin, hev⟩
  · rfl
  · rcases hev with ⟨w, rfl, hrun⟩ | ⟨rfl, -⟩ | ⟨rfl, -⟩ | ⟨-, rfl⟩ | ⟨bytes, -, rfl⟩ | ⟨a, b, -, rfl⟩ | ⟨a, b, -, rfl⟩
    · rw [runWord_faulted (s := s.setInput rest) w hdue hf] at hrun
      cases hrun
      rfl
    · exact absurd hin (hreset rest)
    · exact absurd hin (hpower rest)
    · exact (acceptResponse_registers (s.setInput rest)).1
    all_goals rfl

/-- Reset leaves the reset state but for what is the host's and the model's draw counter (R340, log entry 12). -/
theorem step_reset {s : State} {rest : List HostEvent} (hin : s.input = .reset :: rest) :
    step s = .next { State.reset with
      stream := s.stream, table := s.table, draws := s.draws, delivered := s.delivered, input := rest } :=
  step_event hin

/-- Settles O19: the fault record is registers, which no other event writes, and reset leaves all of them 0. -/
theorem onlyResetClearsFault : Obligations.OnlyResetClearsFault := by
  unfold Obligations.OnlyResetClearsFault
  refine ⟨fun s t hf hstep hdue hpower hreset => ?_, fun s rest hin => ⟨_, step_reset hin, rfl, rfl, rfl, rfl⟩⟩
  have hregisters := step_faulted_registers hf hstep hdue hpower hreset
  have hfault : t.fault = s.fault := (congrArg State.fault hregisters :)
  exact ⟨hfault.trans hf, (congrArg State.cause hregisters :), (congrArg State.faultCmd hregisters :)⟩

/-! ## No event, and loss of power (R315) -/

/-- Settles O7: with no event the step is idle. -/
theorem idleBlockHoldsState : Obligations.IdleBlockHoldsState := by
  unfold Obligations.IdleBlockHoldsState
  exact fun _ => step_idle

/-- A block that loses its registers holds the free value of its draw in each (log entry 17). -/
theorem loseRegisters_registersUnknown (s : State) : s.loseRegisters.registersUnknown :=
  ⟨rfl, rfl, rfl, rfl, rfl, rfl, rfl, rfl, rfl, rfl, rfl, rfl, rfl, rfl, rfl, rfl, rfl⟩

theorem losePower_registersUnknown (s : State) : s.losePower.registersUnknown :=
  loseRegisters_registersUnknown s.nextDraw

theorem answerUnreset_registersUnknown (s : State) : s.answerUnreset.registersUnknown :=
  loseRegisters_registersUnknown s

/-- Settles O58: the loss of power, a word before reset, and reset. -/
theorem powerLossForgetsTheRegisters : Obligations.PowerLossForgetsTheRegisters := by
  unfold Obligations.PowerLossForgetsTheRegisters
  exact ⟨fun s rest hin => ⟨_, step_event hin, losePower_registersUnknown (s.setInput rest), rfl⟩,
    fun s w hdue => ⟨_, _, runWord_unreset hdue, answerUnreset_registersUnknown s.nextDraw, rfl⟩,
    fun s rest hin => ⟨_, step_reset hin, rfl, rfl⟩⟩

end Sys2Proof.Machine
end

