-- ==== Sys2Proof/Proofs/ResetAndInit.lean ====
section
/-! PROOFS. The state after reset, and two blocks of different pasts side by side from an INIT on
(spec/70_reset_and_hazards.md R340, R344, spec/20_memory.md R84). -/

namespace Sys2Proof.Machine

/-! ## Reset (R340, R57) -/

/-- Settles O22: reset leaves the reset state but for what is the host's. -/
theorem resetClearsRegisters : Obligations.ResetClearsRegisters := by
  unfold Obligations.ResetClearsRegisters
  exact fun _ _ => step_reset

/-- Settles O54: READY is 0, so the invariant asks only that no lookup is pending; the memories and the marks are empty,
and the fault record is 0. -/
theorem resetMeetsInvariants : Obligations.ResetMeetsInvariants := by
  unfold Obligations.ResetMeetsInvariants
  have hinv : State.reset.Inv := ⟨nofun, fun _ => rfl⟩
  have hmemories : State.reset.memoriesOk := ⟨rfl, rfl, .nil, .nil⟩
  have hrecord : State.reset.faultRecordOk := ⟨rfl, rfl⟩
  exact ⟨hinv, hmemories, hrecord⟩

/-! ## The past of a block -/

/-- The state with the past of another: its draw counter, the responses its host has accepted, the events to come, and
whether a reset is due. -/
def State.withPast (s o : State) : State :=
  { s with draws := o.draws, delivered := o.delivered, input := o.input, resetDue := o.resetDue }

/-- No byte of either memory counts as changed (R82). -/
def State.unmarked (s : State) : Prop := s.streamChanged = [] ∧ s.tableChanged = []

/-! ## Reads and shared operations do not depend on the past -/

/-- While no byte counts as changed no stream read is a draw. -/
theorem streamRead_withPast {s : State} (h : s.unmarked) (o : State) (c : StreamCursor) (i : Nat) :
    (s.withPast o).streamRead c i = s.streamRead c i := by
  have hi : i ∉ s.streamChanged := by simp [h.1]
  rw [streamRead_unchanged hi]
  exact streamRead_unchanged (s := s.withPast o) hi c

/-- While no byte counts as changed no table read is a draw. -/
theorem icdfEntry_withPast {s : State} (h : s.unmarked) (o : State) : icdfEntry (s.withPast o) = icdfEntry s := by
  have hbyte : ∀ u, (s.withPast o).tableByte u = s.tableByte u := fun u => by
    funext a
    have ha : a ∉ s.tableChanged := by simp [h.2]
    rw [tableByte_unchanged ha]
    exact tableByte_unchanged (s := s.withPast o) ha u
  funext u tb n k
  simp only [icdfEntry, State.tableRead, hbyte]

/-- While no byte counts as changed the search in a table is no draw (R231). -/
theorem icdfSymbol_withPast {s : State} (h : s.unmarked) (o : State) (tb n nsyms ft : Nat) :
    icdfSymbol (s.withPast o) tb n nsyms ft = icdfSymbol s tb n nsyms ft := by
  have hstands : s.tableStands tb (n * nsyms) = true := by simp [State.tableStands, h.2]
  rw [icdfSymbol, icdfSymbol, icdfSelect, icdfSelect, if_pos hstands]
  exact if_pos hstands

/-- Narrowing, whose refill reads the buffer, does not depend on the past (R146). -/
theorem narrowTo_withPast {s : State} (h : s.unmarked) (o : State) (uv : Nat × Nat) :
    (s.withPast o).narrowTo uv = (s.narrowTo uv).withPast o := by
  have hrefill : ∀ val cnt fwd, refillIfShort (s.withPast o) val cnt fwd = refillIfShort s val cnt fwd :=
    refillIfShort_congr rfl (streamRead_withPast h o .forward)
  simp only [State.narrowTo, State.renormalize, hrefill]
  rfl

/-- The refill of `RawBits` depends on the buffer's length and bytes alone (R280). -/
theorem rawRefill_congr {s t : State} (hs : s.storage = t.storage)
    (hr : ∀ i, s.streamRead .backward i = t.streamRead .backward i) (n win avail bwd : Nat) :
    rawRefill s n win avail bwd = rawRefill t n win avail bwd := by
  induction n generalizing win avail bwd with
  | zero => rfl
  | succ n ih => simp only [rawRefill, hs, hr, ih]

/-- `RawBits` does not depend on the past (R280). -/
theorem rawBits_withPast {s : State} (h : s.unmarked) (o : State) (n : Nat) :
    rawBits (s.withPast o) n = ((rawBits s n).1.withPast o, (rawBits s n).2) := by
  have hrefill : ∀ n win avail bwd, rawRefill (s.withPast o) n win avail bwd = rawRefill s n win avail bwd :=
    rawRefill_congr rfl (streamRead_withPast h o .backward)
  have hreservoir : rawReservoir (s.withPast o) n = rawReservoir s n := by
    rw [rawReservoir, hrefill]
    rfl
  rw [rawBits, hreservoir]
  rfl

/-- A uniform symbol does not depend on the past (R260). -/
theorem uniformSymbol_withPast {s : State} (h : s.unmarked) (o : State) (ft : Nat) :
    uniformSymbol (s.withPast o) ft = ((uniformSymbol s ft).1.withPast o, (uniformSymbol s ft).2) := by
  rw [uniformSymbol, narrowTo_withPast h]
  rfl

/-- DECODE_UINT does not depend on the past: its symbol leaves no mark, so neither do its raw bits (R260, R262). -/
theorem uintValue_withPast {s : State} (h : s.unmarked) (o : State) (ft : Nat) :
    uintValue (s.withPast o) ft = ((uintValue s ft).1.withPast o, (uintValue s ft).2) := by
  have hsymbol : (uniformSymbol s (uintHighTotal ft)).1.unmarked := h
  have hjoin : uintJoin (s.withPast o) ft = ((uintJoin s ft).1.withPast o, (uintJoin s ft).2) := by
    rw [uintJoin, uniformSymbol_withPast h, rawBits_withPast hsymbol]
    rfl
  rw [uintValue, uintValue, hjoin, uniformSymbol_withPast h]
  split
  · rw [uintClamp, uintClamp]
    split <;> rfl
  · rfl

/-- INIT does not depend on the past (R141). -/
theorem initialise_withPast (s o : State) (storage : BitVec 32) :
    (s.withPast o).initialise storage = (s.initialise storage).withPast o := by
  rw [State.initialise, State.initialise, refill_startStream, refill_startStream]
  rfl

/-! ## The commands do not depend on the past -/

/-- Whether a command has a meaning does not depend on the past. -/
theorem commandDefined_withPast (i : Instr) (s o : State) : commandDefined i (s.withPast o) = commandDefined i s := by
  cases i <;> rfl

/-- The checks of a table command read the table, and no draw while no byte counts as changed (R233). -/
theorem icdfChecks_withPast {s : State} (h : s.unmarked) (o : State) (tb n nsyms ft : Nat) :
    icdfChecks (s.withPast o) tb n nsyms ft = icdfChecks s tb n nsyms ft := by
  have hok : icdfSymbolOk (s.withPast o) tb n ft = icdfSymbolOk s tb n ft := by
    funext k
    rw [icdfSymbolOk, icdfEntry_withPast h]
    rfl
  rw [icdfChecks, icdfBoundsPass, hok, icdfEntry_withPast h, icdfSymbol_withPast h]
  rfl

/-- The checks of a command do not depend on the past. -/
theorem commandChecks_withPast {s : State} (h : s.unmarked) (o : State) (i : Instr) :
    commandChecks i (s.withPast o) = commandChecks i s := by
  cases i with
  | decodeIcdfFt _ _ _ | decodeIcdf16Ft _ _ _ | decodeIcdf _ _ _ | decodeIcdf16 _ _ _ =>
    rw [commandChecks, icdfChecks_withPast h]
    rfl
  | _ => rfl

/-- What a table command leaves and returns does not depend on the past (R233). -/
theorem icdfEffect_withPast {s : State} (h : s.unmarked) (o : State) (tb n nsyms ft : Nat) :
    icdfEffect (s.withPast o) tb n nsyms ft =
      ((icdfEffect s tb n nsyms ft).1.withPast o, (icdfEffect s tb n nsyms ft).2) := by
  rw [icdfEffect, icdfEntry_withPast h, icdfSymbol_withPast h, narrowTo_withPast h]
  rfl

/-- A command returns the same whatever the past, and leaves the past as it is. -/
theorem commandEffect_withPast {s : State} (h : s.unmarked) (o : State) (i : Instr) :
    commandEffect i (s.withPast o) = ((commandEffect i s).1.withPast o, (commandEffect i s).2) := by
  cases i with
  | init storage => exact congrArg (·, 0) (initialise_withPast s o storage)
  | tell | decode _ | decodeNorm _ | decodeBinNorm | decodeBin _ => rfl
  | update fl fh ft =>
    have hclear : s.clearPending.unmarked := h
    exact congrArg (·, 0) (narrowTo_withPast hclear o _)
  | decodeBitLogp logp =>
    have hsplit : bitSplit (s.withPast o) logp.toNat = bitSplit s logp.toNat := rfl
    have hposition : (s.withPast o).position = s.position := rfl
    simp only [commandEffect, bitEffect, hsplit, hposition, narrowTo_withPast h]
    split <;> rfl
  | decodeIcdfFt _ _ _ | decodeIcdf16Ft _ _ _ | decodeIcdf _ _ _ | decodeIcdf16 _ _ _ =>
    exact icdfEffect_withPast h o _ _ _ _
  | decodeUint ft => exact congrArg withResult (uintValue_withPast h o ft.toNat)
  | decodeBits nbits => exact congrArg withResult (rawBits_withPast h o nbits.toNat)

/-- No effect of a command marks a byte as changed (R82). -/
theorem commandEffect_unmarked {s : State} (h : s.unmarked) (i : Instr) : (commandEffect i s).1.unmarked := by
  by_cases hinit : ∃ n, i = .init n
  · obtain ⟨n, rfl⟩ := hinit
    exact ⟨rfl, rfl⟩
  · obtain ⟨hstream, htable⟩ := commandEffect_marks s fun n hi => hinit ⟨n, hi⟩
    exact ⟨hstream.trans h.1, htable.trans h.2⟩

/-- No command marks a byte as changed, whatever it answers. -/
theorem exec_unmarked {i : Instr} {s t : State} (h : s.unmarked) (ht : exec i s = .next t) : t.unmarked := by
  rcases exec_cases ht with ⟨-, rfl⟩ | ⟨-, c, -, rfl⟩ | ⟨-, -, -, rfl⟩
  · exact h
  · exact h
  · exact commandEffect_unmarked h i

/-- Whatever a command answers, it answers on every past. -/
theorem exec_withPast {i : Instr} {s t : State} (h : s.unmarked) (o : State) (ht : exec i s = .next t) :
    exec i (s.withPast o) = .next (t.withPast o) := by
  have hchecks := commandChecks_withPast h o i
  rcases exec_cases ht with ⟨hf, rfl⟩ | ⟨hf, c, hc, rfl⟩ | ⟨hf, hc, hd, rfl⟩
  · exact exec_faulted (s := s.withPast o) hf
  · exact exec_raises (s := s.withPast o) hf (hchecks ▸ hc)
  · have hdefined := (commandDefined_withPast i s o).trans hd
    have hcompletes := exec_completes (s := s.withPast o) hf hdefined (hchecks ▸ hc)
    rw [commandEffect_withPast h] at hcompletes
    exact hcompletes

/-! ## After INIT (R344) -/

/-- The fault record of an unfaulted block is 0 (R47, R48). -/
theorem faultRecord_of_unfaulted {s : State} (h : s.faultRecordOk) (hf : s.fault = false) :
    s.cause = 0 ∧ s.faultCmd = 0 := by
  simpa [State.faultRecordOk, hf] using h

/-- INIT sets every register but the fault record, so it leaves two unfaulted blocks with the same memories and no
response waiting in states that differ in their pasts alone (R141). -/
theorem exec_init_withPast {s s' : State} (storage : BitVec 32) (hf : s.fault = false) (hf' : s'.fault = false)
    (hrecord : s.faultRecordOk) (hrecord' : s'.faultRecordOk) (hstream : s.stream = s'.stream)
    (htable : s.table = s'.table) (hresponses : s.responses = s'.responses) :
    ∃ u, exec (.init storage) s = .next u ∧ u.unmarked ∧ exec (.init storage) s' = .next (u.withPast s') := by
  refine ⟨_, initCompletes s storage hf, ⟨rfl, rfl⟩, ?_⟩
  obtain ⟨hcause, hcmd⟩ := faultRecord_of_unfaulted hrecord hf
  obtain ⟨hcause', hcmd'⟩ := faultRecord_of_unfaulted hrecord' hf'
  rw [initCompletes s' storage hf']
  simp only [State.withPast, hf, hf', hcause, hcause', hcmd, hcmd', hstream, htable, hresponses]

/-- Settles O24: after INIT the two blocks differ in their pasts alone, and every command keeps it so. -/
theorem initForgetsThePast : Obligations.InitForgetsThePast := by
  unfold Obligations.InitForgetsThePast
  intro s s' t t' storage is hf hf' hrecord hrecord' hstream htable hnone hnone' hrun hrun'
  obtain ⟨u, hu, hunmarked, hu'⟩ :=
    exec_init_withPast storage hf hf' hrecord hrecord' hstream htable (hnone.trans hnone'.symm)
  rw [runInstrs_cons hu] at hrun
  rw [runInstrs_cons hu'] at hrun'
  have hstep : ∀ i ∈ is, ∀ v v' w, (v.unmarked ∧ v' = v.withPast s') → exec i v = .next w →
      ∃ w', exec i v' = .next w' ∧ (w.unmarked ∧ w' = w.withPast s') := by
    rintro i - v _ w ⟨hv, rfl⟩ hw
    exact ⟨_, exec_withPast hv s' hw, exec_unmarked hv hw, rfl⟩
  obtain ⟨w, hw, -, rfl⟩ :=
    runInstrs_simulation (R := fun v v' => v.unmarked ∧ v' = v.withPast s') hstep ⟨hunmarked, rfl⟩ hrun
  exact (Option.some.inj (hw.symm.trans hrun')).symm

end Sys2Proof.Machine
end

