-- ==== Sys2Proof/Proofs/CanonicalMemories.lean ====
section
/-! PROOFS. Every step keeps the two memories in canonical form and the marks of changed bytes in order (spec/20_memory.md
R71, R79, R82; log entries 4 to 6). -/

namespace Sys2Proof.Machine

/-! ## The host replaces a memory -/

/-- A stream memory in canonical form may replace the old one: its marks are added in order. -/
theorem changeStream_memoriesOk {s : State} {m : Memory} (h : s.memoriesOk) (hm : m.wf = true) :
    (s.changeStream m).memoriesOk := by
  obtain ⟨-, htable, hstreamMarks, htableMarks⟩ := h
  exact ⟨hm, htable, markChanges_sorted hstreamMarks, htableMarks⟩

/-- A table memory in canonical form may replace the old one: its marks are added in order. -/
theorem changeTable_memoriesOk {s : State} {m : Memory} (h : s.memoriesOk) (hm : m.wf = true) :
    (s.changeTable m).memoriesOk := by
  obtain ⟨hstream, -, hstreamMarks, htableMarks⟩ := h
  exact ⟨hstream, hm, hstreamMarks, markChanges_sorted htableMarks⟩

/-! ## Steps that write no memory -/

/-- Reset leaves the memories and clears the marks (R340). -/
theorem resetBlock_memoriesOk {s : State} (h : s.memoriesOk) : s.resetBlock.memoriesOk := by
  obtain ⟨hstream, htable, -, -⟩ := h
  exact ⟨hstream, htable, .nil, .nil⟩

/-- Accepting a response touches neither a memory nor a mark (R109). -/
theorem acceptResponse_memoriesOk {s : State} (h : s.memoriesOk) : s.acceptResponse.memoriesOk := by
  unfold State.acceptResponse
  split <;> exact h

/-- The effect of a command leaves the memories, and the marks are cleared by INIT and left by every other command (R79,
R82). -/
theorem commandEffect_memoriesOk {s : State} (i : Instr) (h : s.memoriesOk) : (commandEffect i s).1.memoriesOk := by
  obtain ⟨hstream, htable, hstreamMarks, htableMarks⟩ := h
  by_cases hinit : ∃ n, i = .init n
  · obtain ⟨n, rfl⟩ := hinit
    exact ⟨hstream, htable, .nil, .nil⟩
  · obtain ⟨u, hu⟩ := commandEffect_frame i s
    obtain ⟨estream, etable⟩ := commandEffect_marks s fun n hi => hinit ⟨n, hi⟩
    exact ⟨hu ▸ hstream, hu ▸ htable, estream ▸ hstreamMarks, etable ▸ htableMarks⟩

/-- A command keeps the memories canonical, whatever it answers. -/
theorem exec_memoriesOk {i : Instr} {s t : State} (h : s.memoriesOk) (ht : exec i s = .next t) : t.memoriesOk := by
  rcases exec_cases ht with ⟨-, rfl⟩ | ⟨-, c, -, rfl⟩ | ⟨-, -, -, rfl⟩
  · exact h
  · exact h
  · exact commandEffect_memoriesOk i h

/-- A word keeps the memories canonical: one that is no command, or that enters an unreset block, writes registers and a
response only (R305, R315). -/
theorem runWord_memoriesOk {w : CmdWord} {s t : State} (h : s.memoriesOk) (ht : runWord w s = .next t) :
    t.memoriesOk := by
  rcases runWord_cases ht with ⟨-, rfl⟩ | ⟨-, i, -, hexec⟩ | ⟨-, c, -, rfl⟩
  · exact h
  · exact exec_memoriesOk (s := s.nextDraw) h hexec
  · split <;> exact h

/-! ## Every step -/

/-- Settles O51: the event taken replaces one memory by a canonical one, or it writes neither memory and leaves or clears the
marks. -/
theorem stepKeepsMemoriesCanonical : Obligations.StepKeepsMemoriesCanonical := by
  unfold Obligations.StepKeepsMemoriesCanonical
  intro s t h hstep
  rcases step_cases hstep with ⟨-, rfl⟩ | ⟨e, rest, -, hev⟩
  · exact h
  · have htaken : (s.setInput rest).memoriesOk := h
    have ⟨hstream, htable, _, _⟩ := h
    rcases hev with ⟨w, -, hrun⟩ | ⟨-, rfl⟩ | ⟨-, rfl⟩ | ⟨-, rfl⟩ | ⟨bytes, -, rfl⟩ | ⟨a, b, -, rfl⟩ | ⟨a, b, -, rfl⟩
    · exact runWord_memoriesOk htaken hrun
    · exact resetBlock_memoriesOk htaken
    · exact h
    · exact acceptResponse_memoriesOk htaken
    · exact changeStream_memoriesOk htaken (Memory.ofBytes_wf 0 bytes)
    · exact changeStream_memoriesOk htaken (Memory.write_wf a.toNat b hstream)
    · exact changeTable_memoriesOk htaken (Memory.write_wf a.toNat b htable)

end Sys2Proof.Machine
end
